-- ==== Sys2Proof/Word.lean ====
section
/-! DEFINITION. The word types of the core: bytes, 32-bit registers, bit strings (R8, R9, R10). -/
namespace Sys2Proof

/-- A byte (R10). -/
abbrev Byte := BitVec 8

/-- A register value or a 4-byte field (R20, R65). -/
abbrev Word := BitVec 32

/-- A bit string, index 0 first (R10). -/
abbrev Bits := List Bool

end Sys2Proof
end

