-- ==== Sys2Proof/Syntax.lean ====
section
/-! DEFINITION. The encodings the core decodes: command words, LZSS tokens, container chunks (R90, opcode_table.json). -/
namespace Sys2Proof

/-- One constructor per row of spec/opcode_table.json. -/
inductive Instr where
  -- command words (R91, R92): no operand stands in the word
  | nop
  | lzssCompress
  | lzssDecompress
  | huffEncode
  | huffDecode
  | pack
  | unpack
  | contWrite
  | contRead
  | crc32
  -- reserved command opcodes (R93)
  | reservedCmdA
  | reservedCmdB
  | reservedCmdC
  | reservedCmdD
  | reservedCmdE
  | reservedCmdF
  -- LZSS tokens (R95, R96): literal byte; 12-bit offset and 4-bit length field
  | lit (b : Byte)
  | matchToken (offset : BitVec 12) (lenField : BitVec 4)
  -- reserved tags (R97), each range with the low bits of its tag
  | reservedTag02 (low : BitVec 1)
  | reservedTag04 (low : BitVec 2)
  | reservedTag08 (low : BitVec 3)
  | reservedTag10 (low : BitVec 4)
  | reservedTag20 (low : BitVec 5)
  | reservedTag40 (low : BitVec 6)
  | reservedTag80 (low : BitVec 7)
  -- container chunks (R104, R105): payload and CRC field; the length field is the payload's length
  | chunkIhdr (payload : List Byte) (crc : Word)
  | chunkIdat (payload : List Byte) (crc : Word)
  | chunkIend (payload : List Byte) (crc : Word)
  | chunkOther (tag : Word) (payload : List Byte) (crc : Word)
  deriving DecidableEq, Repr

/-- An LZSS token as the token stream spells it (R94). -/
inductive Token where
  | lit (b : Byte)
  | copy (offset : BitVec 12) (lenField : BitVec 4)
  | reserved (tag : Byte)
  deriving DecidableEq, Repr

/-- A container chunk (R104). -/
structure Chunk where
  tag : Word
  payload : List Byte
  crc : Word
  deriving DecidableEq, Repr

/-- The three encoding families that spell instructions (R90): a command word, the bytes at a
token's start, the bytes at a chunk's start. -/
inductive Code where
  | command (w : Word)
  | token (bytes : List Byte)
  | chunk (bytes : List Byte)
  deriving DecidableEq, Repr

/-- Tag of a metadata chunk, "IHDR" (R105). -/
def tagIhdr : Word := 0x49484452

/-- Tag of a payload chunk, "IDAT" (R105). -/
def tagIdat : Word := 0x49444154

/-- Tag of an end marker, "IEND" (R105). -/
def tagIend : Word := 0x49454E44

end Sys2Proof
end

