-- ==== Sys2Proof/WellFormed.lean ====
section
/-! DEFINITION. Which terms of `Instr` an encoding spells. -/
namespace Sys2Proof

/-- A payload's length fits the 4-byte length field (R104, R243). -/
def payloadFits (payload : List Byte) : Bool := payload.length < 2 ^ 32

/-- "Any other" tag of R105: none of IHDR, IDAT, IEND. -/
def isOtherTag (tag : Word) : Bool := tag != tagIhdr && tag != tagIdat && tag != tagIend

/-- The term is spelt by some encoding: chunk lengths fit their field (R104), and an unknown chunk's
tag is none of the three known ones (R105). Commands and tokens carry no further check. -/
def Instr.wellFormed : Instr → Bool
  | .nop => true
  | .lzssCompress => true
  | .lzssDecompress => true
  | .huffEncode => true
  | .huffDecode => true
  | .pack => true
  | .unpack => true
  | .contWrite => true
  | .contRead => true
  | .crc32 => true
  | .reservedCmdA => true
  | .reservedCmdB => true
  | .reservedCmdC => true
  | .reservedCmdD => true
  | .reservedCmdE => true
  | .reservedCmdF => true
  | .lit _ => true
  | .matchToken _ _ => true
  | .reservedTag02 _ => true
  | .reservedTag04 _ => true
  | .reservedTag08 _ => true
  | .reservedTag10 _ => true
  | .reservedTag20 _ => true
  | .reservedTag40 _ => true
  | .reservedTag80 _ => true
  | .chunkIhdr payload _ => payloadFits payload
  | .chunkIdat payload _ => payloadFits payload
  | .chunkIend payload _ => payloadFits payload
  | .chunkOther tag payload _ => isOtherTag tag && payloadFits payload

end Sys2Proof
end

