-- ==== Sys2Proof/Decode.lean ====
section
/-! DEFINITION. Byte order, the decoders of the three encoding families, and their encoders (R90 to R110, R150, R151). -/
namespace Sys2Proof

/-- Why the bytes spell no instruction. -/
inductive DecodeError where
  /-- no byte is left: the token stream ends at a token boundary (R98) -/
  | endOfStream
  /-- a LIT or MATCH tag without its payload (R182) -/
  | tokenCutShort
  /-- fewer than 8 bytes for a chunk's length and tag (R247) -/
  | chunkHeaderCutShort
  /-- the declared payload or the CRC field runs past the end (R247) -/
  | chunkCutShort
  deriving DecidableEq, Repr

/-- `BE16` (R150). -/
def be16 (v : BitVec 16) : List Byte := [v.extractLsb' 8 8, v.extractLsb' 0 8]

/-- `BE32` (R150). -/
def be32 (v : Word) : List Byte :=
  [v.extractLsb' 24 8, v.extractLsb' 16 8, v.extractLsb' 8 8, v.extractLsb' 0 8]

/-- `U16(s, j)` (R151); callers check that the two bytes exist. -/
def u16At (s : List Byte) (j : Nat) : BitVec 16 := s.getD j 0 ++ s.getD (j + 1) 0

/-- `U32(s, j)` (R151); callers check that the four bytes exist. -/
def u32At (s : List Byte) (j : Nat) : Word :=
  s.getD j 0 ++ s.getD (j + 1) 0 ++ s.getD (j + 2) 0 ++ s.getD (j + 3) 0

/-! ### Command words (R91 to R93) -/

/-- The command that an opcode selects (R92); opcodes 0xA to 0xF are reserved (R93). -/
def commandOf (op : BitVec 4) : Instr :=
  match op.toNat with
  | 0 => .nop
  | 1 => .lzssCompress
  | 2 => .lzssDecompress
  | 3 => .huffEncode
  | 4 => .huffDecode
  | 5 => .pack
  | 6 => .unpack
  | 7 => .contWrite
  | 8 => .contRead
  | 9 => .crc32
  | 10 => .reservedCmdA
  | 11 => .reservedCmdB
  | 12 => .reservedCmdC
  | 13 => .reservedCmdD
  | 14 => .reservedCmdE
  | _ => .reservedCmdF

/-- The command word: OP is bits 3:0, bits 31:4 are never decoded (R91). -/
def decodeCommand (w : Word) : Instr := commandOf (w.extractLsb' 0 4)

/-! ### LZSS tokens (R94 to R98) -/

/-- The token at the start of the bytes (R94); the tag is looked at before completeness (R177). -/
def parseToken : List Byte → Except DecodeError Token
  | [] => .error .endOfStream
  | tag :: rest =>
    if tag = 0x00 then
      match rest with
      | b :: _ => .ok (.lit b)
      | [] => .error .tokenCutShort
    else if tag = 0x01 then
      match rest with
      | hi :: lo :: _ => .ok (.copy ((hi ++ lo).extractLsb' 4 12) ((hi ++ lo).extractLsb' 0 4))
      | _ => .error .tokenCutShort
    else .ok (.reserved tag)

/-- The table's row of a reserved tag (R97, opcode_table.json), tags 0x02 to 0xFF. -/
def reservedInstr (tag : Byte) : Instr :=
  if tag < 0x04 then .reservedTag02 (tag.extractLsb' 0 1)
  else if tag < 0x08 then .reservedTag04 (tag.extractLsb' 0 2)
  else if tag < 0x10 then .reservedTag08 (tag.extractLsb' 0 3)
  else if tag < 0x20 then .reservedTag10 (tag.extractLsb' 0 4)
  else if tag < 0x40 then .reservedTag20 (tag.extractLsb' 0 5)
  else if tag < 0x80 then .reservedTag40 (tag.extractLsb' 0 6)
  else .reservedTag80 (tag.extractLsb' 0 7)

/-- The instruction that a token is. -/
def Token.toInstr : Token → Instr
  | .lit b => .lit b
  | .copy offset lenField => .matchToken offset lenField
  | .reserved tag => reservedInstr tag

/-- The token instruction at the start of the bytes. -/
def decodeToken (bytes : List Byte) : Except DecodeError Instr :=
  match parseToken bytes with
  | .ok t => .ok t.toInstr
  | .error e => .error e

/-! ### Container chunks (R103 to R109) -/

/-- The chunk at the start of the bytes (R104), with the completeness checks of R247 in order. -/
def parseChunk (s : List Byte) : Except DecodeError Chunk :=
  if s.length < 8 then .error .chunkHeaderCutShort
  else
    let len := (u32At s 0).toNat
    if s.length < 12 + len then .error .chunkCutShort
    else .ok
      { tag := u32At s 4, payload := (s.drop 8).take len, crc := u32At s (8 + len) }

/-- The instruction that a chunk is (R105). -/
def Chunk.toInstr (c : Chunk) : Instr :=
  if c.tag = tagIhdr then .chunkIhdr c.payload c.crc
  else if c.tag = tagIdat then .chunkIdat c.payload c.crc
  else if c.tag = tagIend then .chunkIend c.payload c.crc
  else .chunkOther c.tag c.payload c.crc

/-- The chunk instruction at the start of the bytes. -/
def decodeChunk (bytes : List Byte) : Except DecodeError Instr :=
  match parseChunk bytes with
  | .ok c => .ok c.toInstr
  | .error e => .error e

/-- Decoding of any code, total: an instruction or a named reason why there is none. -/
def decode : Code → Except DecodeError Instr
  | .command w => .ok (decodeCommand w)
  | .token bytes => decodeToken bytes
  | .chunk bytes => decodeChunk bytes

/-! ### Encoders -/

/-- The command word of an opcode, reserved bits zero (R91). -/
def commandWord (op : BitVec 4) : Word := op.setWidth 32

/-- `Encode` of a token (R175, R96); a reserved tag is its one examined byte (R97). -/
def encodeToken : Token → List Byte
  | .lit b => [0x00, b]
  | .copy offset lenField => 0x01 :: be16 (offset ++ lenField)
  | .reserved tag => [tag]

/-- The bytes of a chunk (R104). -/
def encodeChunk (c : Chunk) : List Byte :=
  be32 (BitVec.ofNat 32 c.payload.length) ++ be32 c.tag ++ c.payload ++ be32 c.crc

/-- The code of an instruction, from the same tables of the spec (R91, R95 to R97, R104, R105). -/
def encode : Instr → Code
  | .nop => .command (commandWord 0x0)
  | .lzssCompress => .command (commandWord 0x1)
  | .lzssDecompress => .command (commandWord 0x2)
  | .huffEncode => .command (commandWord 0x3)
  | .huffDecode => .command (commandWord 0x4)
  | .pack => .command (commandWord 0x5)
  | .unpack => .command (commandWord 0x6)
  | .contWrite => .command (commandWord 0x7)
  | .contRead => .command (commandWord 0x8)
  | .crc32 => .command (commandWord 0x9)
  | .reservedCmdA => .command (commandWord 0xA)
  | .reservedCmdB => .command (commandWord 0xB)
  | .reservedCmdC => .command (commandWord 0xC)
  | .reservedCmdD => .command (commandWord 0xD)
  | .reservedCmdE => .command (commandWord 0xE)
  | .reservedCmdF => .command (commandWord 0xF)
  | .lit b => .token (encodeToken (.lit b))
  | .matchToken offset lenField => .token (encodeToken (.copy offset lenField))
  | .reservedTag02 low => .token (encodeToken (.reserved (1#7 ++ low)))
  | .reservedTag04 low => .token (encodeToken (.reserved (1#6 ++ low)))
  | .reservedTag08 low => .token (encodeToken (.reserved (1#5 ++ low)))
  | .reservedTag10 low => .token (encodeToken (.reserved (1#4 ++ low)))
  | .reservedTag20 low => .token (encodeToken (.reserved (1#3 ++ low)))
  | .reservedTag40 low => .token (encodeToken (.reserved (1#2 ++ low)))
  | .reservedTag80 low => .token (encodeToken (.reserved (1#1 ++ low)))
  | .chunkIhdr payload crc => .chunk (encodeChunk ⟨tagIhdr, payload, crc⟩)
  | .chunkIdat payload crc => .chunk (encodeChunk ⟨tagIdat, payload, crc⟩)
  | .chunkIend payload crc => .chunk (encodeChunk ⟨tagIend, payload, crc⟩)
  | .chunkOther tag payload crc => .chunk (encodeChunk ⟨tag, payload, crc⟩)

/-- The code followed by more bytes of its stream; a command word has no bytes after it. -/
def Code.followedBy (rest : List Byte) : Code → Code
  | .command w => .command w
  | .token bytes => .token (bytes ++ rest)
  | .chunk bytes => .chunk (bytes ++ rest)

/-- How many bytes of its family an instruction occupies (R91, R94, R104, R110). -/
def Instr.size : Instr → Nat
  | .nop => 4
  | .lzssCompress => 4
  | .lzssDecompress => 4
  | .huffEncode => 4
  | .huffDecode => 4
  | .pack => 4
  | .unpack => 4
  | .contWrite => 4
  | .contRead => 4
  | .crc32 => 4
  | .reservedCmdA => 4
  | .reservedCmdB => 4
  | .reservedCmdC => 4
  | .reservedCmdD => 4
  | .reservedCmdE => 4
  | .reservedCmdF => 4
  | .lit _ => 2
  | .matchToken _ _ => 3
  | .reservedTag02 _ => 1
  | .reservedTag04 _ => 1
  | .reservedTag08 _ => 1
  | .reservedTag10 _ => 1
  | .reservedTag20 _ => 1
  | .reservedTag40 _ => 1
  | .reservedTag80 _ => 1
  | .chunkIhdr payload _ => 12 + payload.length
  | .chunkIdat payload _ => 12 + payload.length
  | .chunkIend payload _ => 12 + payload.length
  | .chunkOther _ payload _ => 12 + payload.length

/-- How many bytes a code occupies. -/
def Code.size : Code → Nat
  | .command _ => 4
  | .token bytes => bytes.length
  | .chunk bytes => bytes.length

/-! ### Words numbered as opcode_table.json numbers them -/

/-- The first three bytes of a token stream whose first byte is bits 7:0 of `w`, the second bits
15:8, the third bits 23:16. -/
def tokenBytesOf (w : Nat) : List Byte :=
  [BitVec.ofNat 8 w, BitVec.ofNat 8 (w >>> 8), BitVec.ofNat 8 (w >>> 16)]

/-- The chunk with tag `w` and every other bit zero: no payload, CRC field 0. The table numbers a
chunk row's 32 bits as the tag read by `U32` (R105). -/
def chunkBytesOf (w : Nat) : List Byte :=
  be32 0 ++ be32 (BitVec.ofNat 32 w) ++ be32 0

/-- Which family a table row of `nbits` bits is of: 32 bits with a known chunk tag is a chunk, any
other 32-bit word a command; the row that fixes no bit (CHUNK_OTHER) is a chunk; of one byte, the
values that are an opcode are the low byte of a command word, whose other bits are 0, and every
other value a token's tag; two and three bytes are a token. Log 8. -/
def tableCode (nbits w : Nat) : Option Code :=
  if nbits = 32 then
    if isOtherTag (BitVec.ofNat 32 w) then some (.command (BitVec.ofNat 32 w))
    else some (.chunk (chunkBytesOf w))
  else if nbits = 0 then some (.chunk (chunkBytesOf w))
  else if nbits ≤ 8 ∧ w < 16 then some (.command (BitVec.ofNat 32 w))
  else if nbits ≤ 24 then some (.token (tokenBytesOf w))
  else none

/-- The instruction that the decoder reads from a table row's word. -/
def decodeTableWord (nbits w : Nat) : Option Instr :=
  match tableCode nbits w with
  | some c => (decode c).toOption
  | none => none

end Sys2Proof
end

