-- ==== Sys2Proof/Machine/Internals.lean ====
section
/-! DEFINITION. The engine's internal state: position counters, internal tables and scratch storage (R45, R46, R49). -/
namespace Sys2Proof.Machine
open Sys2Proof

/-- The metadata of a container, as `ParseIhdr` gives it (R249). -/
structure Ihdr where
  width : Word
  height : Word
  depth : Byte
  colour : Byte
  comp : Byte
  filt : Byte
  il : Byte
  deriving DecidableEq, Repr, Inhabited

/-- The LZSS token decoder (R45, R177): the bytes not yet read, the read index `q` of the next of
them, the output so far, and the truncation indicator of the stages before it (R306). -/
structure TokenUnit where
  rest : List Byte
  q : Nat
  out : List Byte
  trunc : Bool
  deriving DecidableEq, Repr, Inhabited

/-- The LZSS encoder (R45, R174): the input position `p` and the tokens written so far. -/
structure EncoderUnit where
  pos : Nat
  out : List Byte
  deriving DecidableEq, Repr, Inhabited

/-- The container parser (R45, R247): the bytes not yet read, the index `pos` of the next of them,
the metadata once seen, and the accumulated payload `P`. -/
structure ChunkUnit where
  rest : List Byte
  pos : Nat
  hdr : Option Ihdr
  payload : List Byte
  deriving DecidableEq, Repr, Inhabited

/-- A node of the arena (R46): a leaf with its byte value, or an internal node with the arena
indices of its children; each with its weight of 32 bits and its insertion sequence number. -/
inductive ArenaNode where
  | leaf (value : Byte) (weight : Word) (seq : Nat)
  | internal (weight : Word) (left right : Nat) (seq : Nat)
  deriving DecidableEq, Repr, Inhabited

/-- An entry of a decoded code table, in table order (R208); its length is 8 bits (R101). -/
structure Entry where
  value : Byte
  len : Byte
  code : Bits
  deriving DecidableEq, Repr, Inhabited

/-- The Huffman bitstream decoder (R45, R209): the decoded table, the bits not yet read, the bit
index of the next of them, the candidate-code register of up to 255 bits (R46), the output so far,
and the truncation indicator of what came before it (R306). -/
structure BitUnit where
  table : List Entry
  rest : Bits
  bitIndex : Nat
  cand : Bits
  out : List Byte
  trunc : Bool
  deriving DecidableEq, Repr, Inhabited

/-- Everything the engine holds only while a command runs (R45, R46, R49). No command reads a
field it has not itself written (R47); between commands every field is unspecified (R341). -/
structure Internals where
  /-- LZSS encoder (R174). -/
  enc : EncoderUnit
  /-- LZSS token decoder (R177). -/
  tok : TokenUnit
  /-- Container parser (R247). -/
  chunk : ChunkUnit
  /-- Frequency table: 256 counters of 32 bits (R200). -/
  freq : List Word
  /-- Node arena: at most 511 nodes, none ever dropped (R203). -/
  arena : List ArenaNode
  /-- The merge queue `Q`: arena indices, in the order of the key (R203). -/
  queue : List Nat
  /-- The next insertion sequence number `next_seq` (R203). -/
  nextSeq : Nat
  /-- Code table (R204). -/
  codes : List (Byte × Bits)
  /-- Huffman decoder: decoded table, bit index, candidate-code register (R208, R209). -/
  bits : BitUnit
  /-- Scratch storage: the intermediate at hand (R49, R138). -/
  scratch : List Byte
  deriving DecidableEq, Repr, Inhabited

end Sys2Proof.Machine
end

