-- ==== Sys2Proof/Config.lean ====
section
/-! DEFINITION. What an implementation fixes (the OPEN parameters of R6 and R64) and the free values. -/
namespace Sys2Proof

/-- The lane order of a host bus (`HOST_BUS_ENDIAN`, R6, R63). -/
inductive ByteOrder where
  | little
  | big
  deriving DecidableEq, Repr, Inhabited

/-- The OPEN parameters that are plain data (R6, R64). `LMEM_SIZE` is held less one, so that
`1 ≤ LMEM_SIZE ≤ 2^28` by type; `SCRATCH_SIZE < 2^32` by type. Log 1. -/
structure Params where
  lmemSizeLessOne : BitVec 28
  scratchWord : Word
  archiveMagic : Word
  regBase : Nat
  lmemBase : Nat
  busOrder : ByteOrder
  deriving DecidableEq, Repr, Inhabited

/-- `LMEM_SIZE` (R6, R60). -/
def Params.lmemSize (p : Params) : Nat := p.lmemSizeLessOne.toNat + 1

/-- `SCRATCH_SIZE` (R6, R138). -/
def Params.scratchSize (p : Params) : Nat := p.scratchWord.toNat

/-- The external black-box compressor: two functions and the one law that R7 lets a model assume
of them. The default fields only show that such a pair exists; `Config.ext` is opaque. -/
structure ExternalCompressor where
  compress : List Byte → List Byte := id
  decompress : List Byte → Option (List Byte) := some
  law : ∀ x, decompress (compress x) = some x := by intro x; rfl
  deriving Inhabited

/-- The parameters of the core at hand (R6, R64): OPEN, so nothing is known of them. Log 1. -/
opaque Config.params : Params

/-- `EXT_COMPRESS` and `EXT_DECOMPRESS` (R6, R7). Log 1. -/
opaque Config.ext : ExternalCompressor

/-- The value of an unspecified LMEM byte (R143, R341, R344, R351): by the number of the event
that left it unspecified, and its address. Log 2. -/
opaque Config.freeByte : Nat → Nat → Byte

/-- The value of a result register read while BUSY (R349), by the number of the read. Log 3. -/
opaque Config.freeWord : Nat → Word

/-- What the internal tables and scratch hold once a command or a reset has left them
unspecified (R46, R47, R341), by the number of that event. Log 3. -/
opaque Config.freeInternals : Nat → Machine.Internals

end Sys2Proof
end

