-- ==== Sys2Proof/Machine/State.lean ====
section
/-! DEFINITION. The state of the core: every piece the spec gives it, as plain data (10_state.md). -/
namespace Sys2Proof.Machine
open Sys2Proof

/-- Why the machine would stop. The core has no trap and no stop: an error is the completion of a
command (R134, R310, R313), so no step raises a fault and the type has no constructor (safe). -/
inductive Fault where
  deriving DecidableEq, Repr

/-- Why a step has no meaning. -/
inductive Refusal where
  /-- an instruction of the table without a meaning here; raised by a dispatch arm only (safe). No
  arm raises it. -/
  | notModelled (mnemonic : String)
  /-- the host's LMEM access while STATUS.BUSY = 1, which "a model refuses" (R347); raised by the
  host step (safe) -/
  | hostLmemWhileBusy
  deriving DecidableEq, Repr

/-- The named registers of the register block (R20). -/
inductive RegName where
  | id | ctrl | cmd | cfg | status | errInfo
  | srcAddr | srcLen | dstAddr | dstCap | auxAddr | auxLen
  | bitLen | outLen | auxOutLen | imgWidth | imgHeight | metaWord | metaIl | result
  deriving DecidableEq, Repr

/-- The width of a host access (R26, R63). The spec says 32 bits or "another width"; that the others
are 8 and 16 bits is the model's choice. Log 11. -/
inductive AccessWidth where
  | w8
  | w16
  | w32
  deriving DecidableEq, Repr

/-- One pending transaction of the host (R13, R26, R63, R111, R112), or the platform's hard reset
(R340). -/
inductive HostOp where
  /-- a register write at a byte offset of the block; `wr NAME, value` is one of width 32 -/
  | regWrite (offset : BitVec 8) (width : AccessWidth) (value : Word)
  /-- a register read at a byte offset of the block; `rd NAME` is one of width 32 -/
  | regRead (offset : BitVec 8) (width : AccessWidth)
  /-- `HostMemWrite(addr, b)` -/
  | memWrite (addr : Nat) (b : Byte)
  /-- `HostMemRead(addr)` -/
  | memRead (addr : Nat)
  /-- `run MNEMONIC`, with the mnemonic's opcode -/
  | run (op : BitVec 4)
  /-- `poll`: read STATUS until DONE is 1 -/
  | poll
  /-- `ack`: acknowledge the completion -/
  | ack
  /-- `srst`: soft reset -/
  | srst
  /-- a write of 1, 2 or 4 bytes at a platform address, before the bridge (R63, R64) -/
  | busStore (addr : Nat) (width : AccessWidth) (value : Word)
  /-- a read of 1, 2 or 4 bytes at a platform address, before the bridge (R63, R64) -/
  | busLoad (addr : Nat) (width : AccessWidth)
  /-- the bridge's end of a wide read of LMEM: the last bytes read become one value (R63). Log 6. -/
  | busGather (width : AccessWidth)
  /-- the platform asserts the hard reset (R340) -/
  | hardReset
  deriving DecidableEq, Repr

/-- What a host read returned. -/
inductive Reply where
  | word (w : Word)
  | byte (b : Byte)
  deriving DecidableEq, Repr

/-- Who makes a move (R309). `engine` moves as one atomic command step (R131), or goes on with an
internal run already begun; `engineUnit` begins the command's internal run, where it has one, and
goes on with it (R5, R45, R69). Log 4. -/
inductive Turn where
  | host
  | engine
  | engineUnit
  deriving DecidableEq, Repr

/-- Which internal stage the engine is in between two steps (R45, R46): none; the LZSS token decoder;
the container parser before its signature check, and at its chunks; the LZSS encoder; the Huffman coder's frequency count, leaf set, tree builder,
code generator and bitstream encoder; the Huffman decoder. -/
inductive Sequencer where
  | idle
  | tokens
  | signature
  | chunks
  | encoder
  | count
  | leaves
  | build
  | codes
  | emit
  | bits
  deriving DecidableEq, Repr

/-- The registers (R20), field by field; reserved bits have no storage (R22 to R25, R40, R42). -/
structure Regs where
  /-- CTRL.IE (R22) -/
  ie : Bool
  /-- CMD.OP (R23) -/
  op : BitVec 4
  /-- CFG.CONT_LZSS (R24) -/
  contLzss : Bool
  /-- STATUS.BUSY (R25, R43) -/
  busy : Bool
  /-- STATUS.DONE (R25) -/
  done : Bool
  /-- STATUS.TRUNC (R25) -/
  trunc : Bool
  /-- STATUS.ERR (R25, R300) -/
  err : Byte
  /-- ERR_INFO (R27, R301) -/
  errInfo : Word
  /-- SRC_ADDR (R28) -/
  srcAddr : Word
  /-- SRC_LEN (R29) -/
  srcLen : Word
  /-- DST_ADDR (R30) -/
  dstAddr : Word
  /-- DST_CAP (R31) -/
  dstCap : Word
  /-- AUX_ADDR (R32) -/
  auxAddr : Word
  /-- AUX_LEN (R33) -/
  auxLen : Word
  /-- BIT_LEN (R34) -/
  bitLen : Word
  /-- OUT_LEN (R35) -/
  outLen : Word
  /-- AUX_OUT_LEN (R36) -/
  auxOutLen : Word
  /-- IMG_WIDTH (R37) -/
  imgWidth : Word
  /-- IMG_HEIGHT (R38) -/
  imgHeight : Word
  /-- META (R39) -/
  metaWord : Word
  /-- META_IL.IL (R40) -/
  metaIl : Byte
  /-- RESULT (R41) -/
  result : Word
  deriving DecidableEq, Repr

/-- LMEM as (address, byte) pairs with addresses strictly rising; an unlisted byte is unspecified
(R79, R341). Log 2. -/
abbrev Memory := List Host.Cell

/-- The state of the core. -/
structure State where
  /-- the OPEN parameters (R6, R64); no step changes them (log 1) -/
  params : Params
  /-- the registers (R20) -/
  regs : Regs
  /-- LMEM (R48, R60): the bytes with a value -/
  lmem : Memory
  /-- the MODEL's: the event that last left all of LMEM unspecified (log 2) -/
  lmemEpoch : Nat
  /-- which internal stage the engine is in (R45) -/
  seq : Sequencer
  /-- internal tables, counters and scratch (R45, R46, R49) -/
  internals : Internals
  /-- the MODEL's: pending host transactions, the next first (log 4) -/
  host : List HostOp
  /-- the MODEL's: what the host's reads returned, newest first (log 4) -/
  received : List Reply
  /-- the MODEL's: who moves next (log 4) -/
  turns : List Turn
  /-- the MODEL's: the number of the next free value (log 3) -/
  freeCtr : Nat
  deriving DecidableEq, Repr

/-- The registers after either reset (R20, R341, R342): CFG = 1, every other stored bit 0. -/
def Regs.reset : Regs where
  ie := false
  op := 0
  contLzss := true
  busy := false
  done := false
  trunc := false
  err := 0
  errInfo := 0
  srcAddr := 0
  srcLen := 0
  dstAddr := 0
  dstCap := 0
  auxAddr := 0
  auxLen := 0
  bitLen := 0
  outLen := 0
  auxOutLen := 0
  imgWidth := 0
  imgHeight := 0
  metaWord := 0
  metaIl := 0
  result := 0

/-- The machine after a hard reset (R341): registers at their reset values, the engine idle, every
byte of LMEM and every internal table unspecified. The model's own fields: log 2, 3, 4. -/
def State.reset : State where
  params := Config.params
  regs := Regs.reset
  lmem := []
  lmemEpoch := 0
  seq := .idle
  internals := Config.freeInternals 0
  host := []
  received := []
  turns := []
  freeCtr := 1

end Sys2Proof.Machine
end

