-- ==== Sys2Proof/Machine/Flags.lean ====
section
/-! DEFINITION. Status, error codes and control words: how the fields of CTRL, CMD, CFG, STATUS and META_IL make up a register's value (R21 to R25, R40), and IRQ (R50). -/
namespace Sys2Proof.Machine
open Sys2Proof

/-- The error codes that a command can raise (R300). -/
inductive ErrCode where
  | badCmd | range | capacity | badMagic | badArchive | badTag | badOffset | badTable
  | badSignature | crc | chunkOrder | badParam | badFilter | ext
  deriving DecidableEq, Repr

/-- The code in STATUS.ERR (R300). -/
def ErrCode.toByte : ErrCode → Byte
  | .badCmd => 0x01
  | .range => 0x02
  | .capacity => 0x03
  | .badMagic => 0x04
  | .badArchive => 0x05
  | .badTag => 0x06
  | .badOffset => 0x07
  | .badTable => 0x08
  | .badSignature => 0x09
  | .crc => 0x0A
  | .chunkOrder => 0x0B
  | .badParam => 0x0C
  | .badFilter => 0x0D
  | .ext => 0x0E

/-- `Err(code, info)` (R11), with the part of the check order it comes from: `late` for the stages
and the capacity checks, (5) and (6) of R140, after which output regions are unspecified (R143). -/
structure CmdError where
  code : ErrCode
  info : Nat
  late : Bool
  deriving DecidableEq, Repr

/-- An error of checks (1) to (4) of R140. -/
def earlyErr (code : ErrCode) (info : Nat) : CmdError := ⟨code, info, false⟩

/-- An error of checks (5) and (6) of R140. -/
def lateErr (code : ErrCode) (info : Nat) : CmdError := ⟨code, info, true⟩

/-- The constant of ID (R21). -/
def idValue : Word := 0x4C5A4831

/-- CTRL: IE is bit 2; START and SRST read 0 (R22). -/
def ctrlWord (r : Regs) : Word := (0 : BitVec 29) ++ BitVec.ofBool r.ie ++ (0 : BitVec 2)

/-- CMD: OP is bits 3:0 (R23). -/
def cmdWord (r : Regs) : Word := r.op.setWidth 32

/-- CFG: CONT_LZSS is bit 0 (R24). -/
def cfgWord (r : Regs) : Word := (BitVec.ofBool r.contLzss).setWidth 32

/-- STATUS: BUSY bit 0, DONE bit 1, TRUNC bit 2, ERR bits 15:8 (R25). -/
def statusWord (r : Regs) : Word :=
  (0 : BitVec 16) ++ r.err ++ (0 : BitVec 5) ++ BitVec.ofBool r.trunc ++ BitVec.ofBool r.done ++
    BitVec.ofBool r.busy

/-- META_IL: IL is bits 7:0 (R40). -/
def metaIlWord (r : Regs) : Word := r.metaIl.setWidth 32

/-- The interrupt output (R50, R308). -/
def irq (s : State) : Bool := s.regs.done && s.regs.ie

/-- The bit of CFG.CONT_LZSS as the compression-method byte (R106, R240). -/
def compByte (r : Regs) : Byte := if r.contLzss then 0x01 else 0x00

end Sys2Proof.Machine
end

