-- ==== Sys2Proof/Machine/Operands.lean ====
section
/-! DEFINITION. Operand regions, their checks, and the registers by offset (R20, R136 to R141). -/
namespace Sys2Proof.Machine
open Sys2Proof

/-- A region `(addr, len)` of LMEM (R136). -/
structure Region where
  addr : Nat
  len : Nat
  deriving DecidableEq, Repr

/-- SRC (R136). -/
def srcRegion (r : Regs) : Region := ⟨r.srcAddr.toNat, r.srcLen.toNat⟩

/-- DST (R136). -/
def dstRegion (r : Regs) : Region := ⟨r.dstAddr.toNat, r.dstCap.toNat⟩

/-- AUX (R136). -/
def auxRegion (r : Regs) : Region := ⟨r.auxAddr.toNat, r.auxLen.toNat⟩

/-- The region lies in LMEM, without wrap-around (R136). -/
def Region.inRange (size : Nat) (r : Region) : Bool := decide (r.addr + r.len ≤ size)

/-- Two regions share a byte (R137). -/
def Region.overlaps (a b : Region) : Bool :=
  decide (0 < a.len) && decide (0 < b.len) && decide (a.addr < b.addr + b.len) &&
    decide (b.addr < a.addr + a.len)

/-- The address is one of the region's. -/
def Region.holds (r : Region) (a : Nat) : Bool := decide (r.addr ≤ a) && decide (a < r.addr + r.len)

/-- One range check: `Err(0x02, k)` when it fails (R136). -/
def rangeCheck (size : Nat) (r : Region) (k : Nat) : Except CmdError Unit :=
  if r.inRange size then .ok () else .error (earlyErr .range k)

/-- One overlap check: `Err(0x02, k)` when it fails (R137). -/
def overlapCheck (a b : Region) (k : Nat) : Except CmdError Unit :=
  if a.overlaps b then .error (earlyErr .range k) else .ok ()

/-- The checks of a command that uses SRC alone (CRC32, R157). -/
def checkSrc (s : State) : Except CmdError Unit :=
  rangeCheck s.params.lmemSize (srcRegion s.regs) 1

/-- The checks of a command that uses SRC and DST (R136, R137, R141). -/
def checkSrcDst (s : State) : Except CmdError Unit := do
  rangeCheck s.params.lmemSize (srcRegion s.regs) 1
  rangeCheck s.params.lmemSize (dstRegion s.regs) 2
  overlapCheck (srcRegion s.regs) (dstRegion s.regs) 4

/-- The checks of HUFF_DECODE, whose AUX is an input (R136, R137). -/
def checkSrcDstAuxIn (s : State) : Except CmdError Unit := do
  rangeCheck s.params.lmemSize (srcRegion s.regs) 1
  rangeCheck s.params.lmemSize (dstRegion s.regs) 2
  rangeCheck s.params.lmemSize (auxRegion s.regs) 3
  overlapCheck (srcRegion s.regs) (dstRegion s.regs) 4
  overlapCheck (auxRegion s.regs) (dstRegion s.regs) 5

/-- The checks of HUFF_ENCODE, whose AUX is an output (R136, R137). -/
def checkSrcDstAuxOut (s : State) : Except CmdError Unit := do
  checkSrcDstAuxIn s
  overlapCheck (srcRegion s.regs) (auxRegion s.regs) 6

/-- A capacity check: `Err(0x03, k)` when `n` bytes do not fit (R138, R139). -/
def capacityCheck (n cap k : Nat) : Except CmdError Unit :=
  if n ≤ cap then .ok () else .error (lateErr .capacity k)

/-- The output regions of a command, by opcode (R141). -/
def outputRegions (op : BitVec 4) (r : Regs) : List Region :=
  match op.toNat with
  | 1 | 2 | 4 | 5 | 6 | 7 | 8 => [dstRegion r]
  | 3 => [dstRegion r, auxRegion r]
  | _ => []

/-- The input regions of a command, by opcode (R141). -/
def inputRegions (op : BitVec 4) (r : Regs) : List Region :=
  match op.toNat with
  | 1 | 2 | 3 | 5 | 6 | 7 | 8 | 9 => [srcRegion r]
  | 4 => [srcRegion r, auxRegion r]
  | _ => []

/-- A register's byte offset (R20). -/
def RegName.offset : RegName → BitVec 8
  | .id => 0x00
  | .ctrl => 0x04
  | .cmd => 0x08
  | .cfg => 0x0C
  | .status => 0x10
  | .errInfo => 0x14
  | .srcAddr => 0x18
  | .srcLen => 0x1C
  | .dstAddr => 0x20
  | .dstCap => 0x24
  | .auxAddr => 0x28
  | .auxLen => 0x2C
  | .bitLen => 0x30
  | .outLen => 0x34
  | .auxOutLen => 0x38
  | .imgWidth => 0x3C
  | .imgHeight => 0x40
  | .metaWord => 0x44
  | .metaIl => 0x48
  | .result => 0x4C

/-- The named registers in offset order (R20). -/
def allRegs : List RegName :=
  [.id, .ctrl, .cmd, .cfg, .status, .errInfo, .srcAddr, .srcLen, .dstAddr, .dstCap, .auxAddr,
    .auxLen, .bitLen, .outLen, .auxOutLen, .imgWidth, .imgHeight, .metaWord, .metaIl, .result]

/-- The register at an offset; none at a reserved slot or an unaligned offset (R20, R42). -/
def regAt (offset : BitVec 8) : Option RegName := allRegs.find? (fun n => n.offset == offset)

end Sys2Proof.Machine
end

