-- ==== Sys2Proof/Machine/Ops.lean ====
section
/-! DEFINITION. The shared operations: LMEM, registers, acceptance, completion with or without an error, resets. -/
namespace Sys2Proof.Machine
open Sys2Proof

/-! ### LMEM (R60 to R63, R79) -/

/-- The byte that an address has been given; none while it is unspecified. -/
def memLookup : Memory → Nat → Option Byte
  | [], _ => none
  | (a, b) :: m, x => if x = a then some b else memLookup m x

/-- Give one address a byte, keeping addresses strictly rising. -/
def memInsert : Memory → Nat → Byte → Memory
  | [], x, v => [(x, v)]
  | (a, b) :: m, x, v =>
    if x < a then (x, v) :: (a, b) :: m
    else if x = a then (a, v) :: m
    else (a, b) :: memInsert m x v

/-- The canonical form: every address exists and addresses strictly rise. An unlisted address has
no value, so no entry can equal what it reads as. -/
def Memory.wf (size : Nat) : Memory → Bool
  | [] => true
  | [(a, _)] => decide (a < size)
  | (a, _) :: (b, v) :: m => decide (a < b) && Memory.wf size ((b, v) :: m)

/-- One byte written; an address outside LMEM names no byte (R63). -/
def memSet (size : Nat) (m : Memory) (a : Nat) (b : Byte) : Memory :=
  if a < size then memInsert m a b else m

/-- `MemWrite` (R62). -/
def memWrite (size : Nat) : Memory → Nat → List Byte → Memory
  | m, _, [] => m
  | m, a, b :: bs => memWrite size (memSet size m a b) (a + 1) bs

/-- Each address listed takes an unspecified value, that of event `n` (R143, R351). -/
def memScramble (size n : Nat) : Memory → List Nat → Memory
  | m, [] => m
  | m, a :: as => memScramble size n (memSet size m a (Config.freeByte n a)) as

/-- The byte of LMEM at an address: its value, or the free value of an unspecified byte (R344). -/
def lmemByte (s : State) (a : Nat) : Byte := (memLookup s.lmem a).getD (Config.freeByte s.lmemEpoch a)

/-- `MemRead` (R62). -/
def memRead (s : State) (r : Region) : List Byte := (List.range' r.addr r.len).map (lmemByte s)

/-- The addresses of a region that exist. -/
def regionAddrs (size : Nat) (r : Region) : List Nat := List.range' r.addr (min r.len (size - r.addr))

/-- The addresses of a command's output regions that exist (R143). -/
def outputAddrs (size : Nat) (op : BitVec 4) (r : Regs) : List Nat :=
  (outputRegions op r).flatMap (regionAddrs size)

/-! ### Registers (R20 to R42) -/

/-- The value of a named register (R20). -/
def readReg (r : Regs) : RegName → Word
  | .id => idValue
  | .ctrl => ctrlWord r
  | .cmd => cmdWord r
  | .cfg => cfgWord r
  | .status => statusWord r
  | .errInfo => r.errInfo
  | .srcAddr => r.srcAddr
  | .srcLen => r.srcLen
  | .dstAddr => r.dstAddr
  | .dstCap => r.dstCap
  | .auxAddr => r.auxAddr
  | .auxLen => r.auxLen
  | .bitLen => r.bitLen
  | .outLen => r.outLen
  | .auxOutLen => r.auxOutLen
  | .imgWidth => r.imgWidth
  | .imgHeight => r.imgHeight
  | .metaWord => r.metaWord
  | .metaIl => metaIlWord r
  | .result => r.result

/-- The registers whose value a read while BUSY does not say (R349). -/
def readFreeWhileBusy : RegName → Bool
  | .bitLen | .outLen | .auxOutLen | .imgWidth | .imgHeight | .metaWord | .metaIl | .result => true
  | _ => false

/-- A host write of an operand register or of CMD or CFG, when it is not ignored (R20, R23, R24);
every other register is unchanged. -/
def setOperand (r : Regs) (v : Word) : RegName → Regs
  | .cmd => { r with op := v.extractLsb' 0 4 }
  | .cfg => { r with contLzss := v.getLsbD 0 }
  | .srcAddr => { r with srcAddr := v }
  | .srcLen => { r with srcLen := v }
  | .dstAddr => { r with dstAddr := v }
  | .dstCap => { r with dstCap := v }
  | .auxAddr => { r with auxAddr := v }
  | .auxLen => { r with auxLen := v }
  | .bitLen => { r with bitLen := v }
  | .imgWidth => { r with imgWidth := v }
  | .imgHeight => { r with imgHeight := v }
  | _ => r

/-- Acceptance of a start request (R130), ignored while BUSY (R130, R348). -/
def accept (r : Regs) : Regs :=
  if r.busy then r
  else { r with busy := true, done := false, trunc := false, err := 0, errInfo := 0 }

/-! ### Completion (R131, R133 to R135, R143) -/

/-- What CONT_READ reports of the metadata (R255). -/
structure ImageInfo where
  width : Word
  height : Word
  metaWord : Word
  metaIl : Byte
  deriving DecidableEq, Repr

/-- `Ok(outputs, trunc)` with the result registers that the command names (R132, R133). -/
structure CmdOutput where
  primary : List Byte := []
  aux : List Byte := []
  trunc : Bool := false
  bitLen : Option Word := none
  image : Option ImageInfo := none
  result : Option Word := none
  deriving DecidableEq, Repr

/-- The outcome of a command's pseudocode (R132). -/
abbrev CmdResult := Except CmdError CmdOutput

/-- The registers after a successful or truncated completion (R131, R133, R135). -/
def okRegs (r : Regs) (o : CmdOutput) : Regs :=
  { r with
    busy := false
    done := true
    trunc := o.trunc
    err := 0
    errInfo := 0
    outLen := BitVec.ofNat 32 o.primary.length
    auxOutLen := BitVec.ofNat 32 o.aux.length
    bitLen := o.bitLen.getD r.bitLen
    imgWidth := (o.image.map ImageInfo.width).getD r.imgWidth
    imgHeight := (o.image.map ImageInfo.height).getD r.imgHeight
    metaWord := (o.image.map ImageInfo.metaWord).getD r.metaWord
    metaIl := (o.image.map ImageInfo.metaIl).getD r.metaIl
    result := o.result.getD r.result }

/-- The registers after an error completion (R131, R134): error entry's cause registers. -/
def errRegs (r : Regs) (e : CmdError) : Regs :=
  { r with
    busy := false
    done := true
    trunc := false
    err := e.code.toByte
    errInfo := BitVec.ofNat 32 e.info
    outLen := 0
    auxOutLen := 0 }

/-- LMEM after a successful or truncated completion (R143): exactly the outputs are written. -/
def okMem (s : State) (o : CmdOutput) : Memory :=
  memWrite s.params.lmemSize
    (memWrite s.params.lmemSize s.lmem s.regs.dstAddr.toNat o.primary) s.regs.auxAddr.toNat o.aux

/-- LMEM after an error (R143): unchanged after checks (1) to (4); after (5) and (6) every byte of
the command's output regions is unspecified. -/
def errMem (op : BitVec 4) (s : State) (e : CmdError) : Memory :=
  if e.late then
    memScramble s.params.lmemSize s.freeCtr s.lmem (outputAddrs s.params.lmemSize op s.regs)
  else s.lmem

/-- `Complete(result)` of the command `op` and the end of the engine step (R131, R133 to R135).
The engine is idle after it and its internal tables are discarded (R47). -/
def complete (op : BitVec 4) (result : CmdResult) (s : State) : State :=
  match result with
  | .ok o =>
    { s with
      regs := okRegs s.regs o
      lmem := okMem s o
      seq := .idle
      internals := Config.freeInternals s.freeCtr
      freeCtr := s.freeCtr + 1 }
  | .error e =>
    { s with
      regs := errRegs s.regs e
      lmem := errMem op s e
      seq := .idle
      internals := Config.freeInternals s.freeCtr
      freeCtr := s.freeCtr + 1 }

/-- The host's acknowledgement, the "return" from a completion: STATUS.DONE is cleared, so IRQ
drops (R311). -/
def acknowledge (r : Regs) : Regs := { r with done := false }

/-! ### Resets (R340 to R343, R351) -/

/-- The bytes that an abandoned command leaves unspecified: those of its output regions, but the
command's input bytes are unchanged (R342, R351). Log 7. -/
def abandonedAddrs (s : State) : List Nat :=
  (outputAddrs s.params.lmemSize s.regs.op s.regs).filter
    (fun a => !(inputRegions s.regs.op s.regs).any (fun r => r.holds a))

/-- Soft reset (R342): every register at its reset value; a running command is abandoned. -/
def softReset (s : State) : State :=
  { s with
    regs := Regs.reset
    lmem :=
      if s.regs.busy then memScramble s.params.lmemSize s.freeCtr s.lmem (abandonedAddrs s)
      else s.lmem
    seq := .idle
    internals := Config.freeInternals s.freeCtr
    freeCtr := s.freeCtr + 1 }

/-- Hard reset (R341): registers at their reset values, all of LMEM and the internal tables
unspecified. The platform's and the host's own lists stay (log 4). -/
def hardReset (s : State) : State :=
  { s with
    regs := Regs.reset
    lmem := []
    lmemEpoch := s.freeCtr
    seq := .idle
    internals := Config.freeInternals s.freeCtr
    freeCtr := s.freeCtr + 1 }

end Sys2Proof.Machine
end

