-- ==== Sys2Proof/Machine/Primitives.lean ====
section
/-! DEFINITION. Bit and byte primitives, CRC-32, and the commands that need nothing else: NOP, CRC32, the reserved opcodes (41_primitives.md, R142, R93). -/
namespace Sys2Proof.Machine
open Sys2Proof

/-- `ceil8(n)` (R10). -/
def ceil8 (n : Nat) : Nat := (n + 7) / 8

/-- The byte whose bit `7 - k` is the k-th of eight bits (R66). -/
def byteOfBits (bit : Nat → Bool) : Byte :=
  BitVec.ofBool (bit 0) ++ BitVec.ofBool (bit 1) ++ BitVec.ofBool (bit 2) ++ BitVec.ofBool (bit 3) ++
    BitVec.ofBool (bit 4) ++ BitVec.ofBool (bit 5) ++ BitVec.ofBool (bit 6) ++ BitVec.ofBool (bit 7)

/-- `PackBits` (R152): first bit most significant, zero padding. -/
def packBits (bits : Bits) : List Byte :=
  (List.range (ceil8 bits.length)).map (fun j => byteOfBits (fun k => bits.getD (8 * j + k) false))

/-- Bit `8j + k` of a byte sequence is bit `7 - k` of byte `j` (R153). -/
def bitAt (s : List Byte) (i : Nat) : Bool := (s.getD (i / 8) 0).getLsbD (7 - i % 8)

/-- `UnpackBits(s, n)` (R153). -/
def unpackBits (s : List Byte) (n : Nat) : Bits := (List.range n).map (bitAt s)

/-- `push_bit` (R154): one bit appended. -/
def pushBit (buf : Bits) (x : Bool) : Bits := buf ++ [x]

/-- One bit of the CRC register (R155). -/
def crcBit (c : Word) : Word := if c.getLsbD 0 then (c >>> 1) ^^^ 0xEDB88320 else c >>> 1

/-- One byte into the CRC register: eight bits (R155). -/
def crcByte (c : Word) (b : Byte) : Word :=
  crcBit (crcBit (crcBit (crcBit (crcBit (crcBit (crcBit (crcBit (c ^^^ b.setWidth 32))))))))

/-- `Crc32(s)` (R155). -/
def crc32 (s : List Byte) : Word := s.foldl crcByte 0xFFFFFFFF ^^^ 0xFFFFFFFF

/-! ### NOP (R142) -/

/-- `Nop()` (R142). -/
def cmdNop : CmdResult := .ok {}

/-- NOP (R142). -/
def execNop (s : State) : Host.Outcome State Fault Refusal := .next (complete 0x0 cmdNop s)

/-! ### CRC32 (R157) -/

/-- `CmdCrc32()` (R157). -/
def cmdCrc32 (s : State) : CmdResult := do
  checkSrc s
  return { result := some (crc32 (memRead s (srcRegion s.regs))) }

/-- CRC32 (R157). -/
def execCrc32 (s : State) : Host.Outcome State Fault Refusal := .next (complete 0x9 (cmdCrc32 s) s)

/-! ### Reserved opcodes (R93, R131) -/

/-- A reserved opcode completes with ERR_BAD_CMD and the opcode as information (R93, R131). -/
def cmdReserved (op : BitVec 4) : CmdResult := .error (earlyErr .badCmd op.toNat)

/-- Opcode 0xA (R93). -/
def execReservedCmdA (s : State) : Host.Outcome State Fault Refusal :=
  .next (complete 0xA (cmdReserved 0xA) s)

/-- Opcode 0xB (R93). -/
def execReservedCmdB (s : State) : Host.Outcome State Fault Refusal :=
  .next (complete 0xB (cmdReserved 0xB) s)

/-- Opcode 0xC (R93). -/
def execReservedCmdC (s : State) : Host.Outcome State Fault Refusal :=
  .next (complete 0xC (cmdReserved 0xC) s)

/-- Opcode 0xD (R93). -/
def execReservedCmdD (s : State) : Host.Outcome State Fault Refusal :=
  .next (complete 0xD (cmdReserved 0xD) s)

/-- Opcode 0xE (R93). -/
def execReservedCmdE (s : State) : Host.Outcome State Fault Refusal :=
  .next (complete 0xE (cmdReserved 0xE) s)

/-- Opcode 0xF (R93). -/
def execReservedCmdF (s : State) : Host.Outcome State Fault Refusal :=
  .next (complete 0xF (cmdReserved 0xF) s)

end Sys2Proof.Machine
end

