-- ==== Sys2Proof/Machine/Lzss.lean ====
section
/-! DEFINITION. The LZSS engine: match finder, token encoder, token decoder, their commands and the token instructions (42_lzss.md). -/
namespace Sys2Proof.Machine
open Sys2Proof

/-! ### Match finder (R170 to R173) -/

/-- `WINDOW` (R6, R170). -/
def lzssWindow : Nat := 4096

/-- `MAX_MATCH` (R6, R170). -/
def maxMatch : Nat := 18

/-- How many leading bytes of two sequences agree, at most `k` (R171). -/
def commonLen : Nat → List Byte → List Byte → Nat
  | k + 1, a :: as, b :: bs => if a = b then commonLen k as bs + 1 else 0
  | _, _, _ => 0

/-- `CandLen(d, p, i)` (R171): the comparison ends with the input, at 18 bytes or at a difference. -/
def candLen (d : List Byte) (p i : Nat) : Nat := commonLen maxMatch (d.drop i) (d.drop p)

/-- The scan of the starts with offsets `offset` down to 1, left to right: `cand` is the input from
the first of them on, `target` the input from `p` on. A strictly longer candidate replaces the best
pair of length and offset (R172). -/
def scanWindow (target : List Byte) : Nat → List Byte → Nat × Nat → Nat × Nat
  | offset + 1, c :: cand, best =>
    if commonLen maxMatch (c :: cand) target > best.1 then
      scanWindow target offset cand (commonLen maxMatch (c :: cand) target, offset + 1)
    else scanWindow target offset cand best
  | _, _, best => best

/-- `FindMatch(d, p)`: length and offset; the scan begins at `max(0, p - WINDOW)` (R170, R172). -/
def findMatch (d : List Byte) (p : Nat) : Nat × Nat :=
  scanWindow (d.drop p) (min p lzssWindow) (d.drop (p - lzssWindow)) (0, 0)

/-- The token at `p`: a match that is long enough and fits its fields, else a literal (R173). -/
def tokenAt (d : List Byte) (p : Nat) : Token :=
  let m := findMatch d p
  if 3 ≤ m.1 ∧ m.2 ≤ 4095 ∧ m.1 - 3 ≤ 15 then
    .copy (BitVec.ofNat 12 m.2) (BitVec.ofNat 4 (m.1 - 3))
  else .lit (d.getD p 0)

/-! ### Token encoder (R174, R175) -/

/-- How many input bytes a token reproduces (R174). -/
def Token.span : Token → Nat
  | .lit _ => 1
  | .copy _ lenField => lenField.toNat + 3
  | .reserved _ => 1

/-- The tokens from position `p` on, at most `n` of them (R174). -/
def tokensFrom (d : List Byte) : Nat → Nat → List Token
  | 0, _ => []
  | n + 1, p =>
    if p < d.length then tokenAt d p :: tokensFrom d n (p + Token.span (tokenAt d p)) else []

/-- `LzssCompress(d)` (R174). -/
def lzssCompress (d : List Byte) : List Byte := (tokensFrom d d.length 0).flatMap encodeToken

/-- One pass of the encoder's loop (R174): the token at `p` is written; none at the end. -/
def encodeOne (d : List Byte) (u : EncoderUnit) : Option EncoderUnit :=
  if u.pos < d.length then
    some ⟨u.pos + Token.span (tokenAt d u.pos), u.out ++ encodeToken (tokenAt d u.pos)⟩
  else none

/-! ### Token decoder (R177 to R182) -/

/-- The byte-by-byte copy of a MATCH: each copied byte is available to the next (R179). -/
def copyBytes (offset : Nat) : Nat → List Byte → List Byte
  | 0, out => out
  | n + 1, out => copyBytes offset n (out ++ [out.getD (out.length - offset) 0])

/-- A LIT token: its byte is appended (R178). -/
def applyLit (b : Byte) (u : TokenUnit) : Except CmdError TokenUnit :=
  .ok { u with rest := u.rest.drop 2, q := u.q + 2, out := u.out ++ [b] }

/-- A complete MATCH token: offset check, then the copy (R179, R181). -/
def applyCopy (offset : BitVec 12) (lenField : BitVec 4) (u : TokenUnit) :
    Except CmdError TokenUnit :=
  if offset = 0 ∨ u.out.length < offset.toNat then .error (lateErr .badOffset u.q)
  else .ok
    { u with
      rest := u.rest.drop 3
      q := u.q + 3
      out := copyBytes offset.toNat (lenField.toNat + 3) u.out }

/-- A reserved tag ends decoding (R180). -/
def applyReserved (u : TokenUnit) : Except CmdError TokenUnit := .error (lateErr .badTag u.q)

/-- One pass of the decoder's loop with a complete token (R177). -/
def applyToken (t : Token) (u : TokenUnit) : Except CmdError TokenUnit :=
  match t with
  | .lit b => applyLit b u
  | .copy offset lenField => applyCopy offset lenField u
  | .reserved _ => applyReserved u

/-- The decoder's loop (R177), at most `n` tokens: output and truncation indicator. -/
def tokenLoop : Nat → TokenUnit → Except CmdError (List Byte × Bool)
  | 0, u => .ok (u.out, u.trunc)
  | n + 1, u =>
    match parseToken u.rest with
    | .ok t =>
      match applyToken t u with
      | .ok u' => tokenLoop n u'
      | .error e => .error e
    | .error .endOfStream => .ok (u.out, u.trunc)
    | .error _ => .ok (u.out, true)

/-- The decoder at the start of a token stream, with the truncation of the stages before it. -/
def tokenStart (stream : List Byte) (trunc : Bool) : TokenUnit := ⟨stream, 0, [], trunc⟩

/-- The decoder run from a unit to its end; a token takes at least one byte. -/
def runTokens (u : TokenUnit) : Except CmdError (List Byte × Bool) := tokenLoop u.rest.length u

/-- `LzssDecompress(s)` (R177). -/
def lzssDecompress (s : List Byte) : Except CmdError (List Byte × Bool) :=
  runTokens (tokenStart s false)

/-! ### Commands (R183, R184) -/

/-- `CmdLzssCompress()` after the encoder (R183). -/
def finishLzssCompress (s : State) (t : List Byte) : CmdResult := do
  capacityCheck t.length s.regs.dstCap.toNat 1
  return { primary := t }

/-- `CmdLzssCompress()` (R183). -/
def cmdLzssCompress (s : State) : CmdResult := do
  checkSrcDst s
  finishLzssCompress s (lzssCompress (memRead s (srcRegion s.regs)))

/-- LZSS_COMPRESS (R183). -/
def execLzssCompress (s : State) : Host.Outcome State Fault Refusal :=
  .next (complete 0x1 (cmdLzssCompress s) s)

/-- `CmdLzssDecompress()` up to the token loop (R184). -/
def startLzssDecompress (s : State) : Except CmdError TokenUnit := do
  checkSrcDst s
  return tokenStart (memRead s (srcRegion s.regs)) false

/-- `CmdLzssDecompress()` after the token loop (R184). -/
def finishLzssDecompress (s : State) (out : List Byte) (trunc : Bool) : CmdResult := do
  capacityCheck out.length s.regs.dstCap.toNat 1
  return { primary := out, trunc := trunc }

/-- `CmdLzssDecompress()` (R184). -/
def cmdLzssDecompress (s : State) : CmdResult := do
  let u ← startLzssDecompress s
  let (out, trunc) ← runTokens u
  finishLzssDecompress s out trunc

/-- LZSS_DECOMPRESS (R184). -/
def execLzssDecompress (s : State) : Host.Outcome State Fault Refusal :=
  .next (complete 0x2 (cmdLzssDecompress s) s)

/-! ### Token instructions: one pass of the decoder's loop on the engine's own decoder (R45, R177) -/

/-- The decoder after one token; an error ends the running command (R177, R134). -/
def afterToken (r : Except CmdError TokenUnit) (s : State) : State :=
  match r with
  | .ok u => { s with internals := { s.internals with tok := u } }
  | .error e => complete s.regs.op (.error e) s

/-- LIT (R178). -/
def execLit (b : Byte) (s : State) : Host.Outcome State Fault Refusal :=
  .next (afterToken (applyLit b s.internals.tok) s)

/-- MATCH (R179, R181). -/
def execMatchToken (offset : BitVec 12) (lenField : BitVec 4) (s : State) :
    Host.Outcome State Fault Refusal :=
  .next (afterToken (applyCopy offset lenField s.internals.tok) s)

/-- Reserved tags 0x02, 0x03 (R180). -/
def execReservedTag02 (s : State) : Host.Outcome State Fault Refusal :=
  .next (afterToken (applyReserved s.internals.tok) s)

/-- Reserved tags 0x04 to 0x07 (R180). -/
def execReservedTag04 (s : State) : Host.Outcome State Fault Refusal :=
  .next (afterToken (applyReserved s.internals.tok) s)

/-- Reserved tags 0x08 to 0x0F (R180). -/
def execReservedTag08 (s : State) : Host.Outcome State Fault Refusal :=
  .next (afterToken (applyReserved s.internals.tok) s)

/-- Reserved tags 0x10 to 0x1F (R180). -/
def execReservedTag10 (s : State) : Host.Outcome State Fault Refusal :=
  .next (afterToken (applyReserved s.internals.tok) s)

/-- Reserved tags 0x20 to 0x3F (R180). -/
def execReservedTag20 (s : State) : Host.Outcome State Fault Refusal :=
  .next (afterToken (applyReserved s.internals.tok) s)

/-- Reserved tags 0x40 to 0x7F (R180). -/
def execReservedTag40 (s : State) : Host.Outcome State Fault Refusal :=
  .next (afterToken (applyReserved s.internals.tok) s)

/-- Reserved tags 0x80 to 0xFF (R180). -/
def execReservedTag80 (s : State) : Host.Outcome State Fault Refusal :=
  .next (afterToken (applyReserved s.internals.tok) s)

end Sys2Proof.Machine
end

