-- ==== Sys2Proof/Machine/Container.lean ====
section
/-! DEFINITION. The container codec: writer, reader, CONT_WRITE, CONT_READ and the chunk instructions (44_container.md). -/
namespace Sys2Proof.Machine
open Sys2Proof

/-- `CONTAINER_SIGNATURE` (R6, R103). -/
def containerSignature : List Byte := [0x89, 0x50, 0x4E, 0x47, 0x0D, 0x0A, 0x1A, 0x0A]

/-- `BPP` times the width: the pixel bytes of a row (R6, R107). -/
def rowBytes (w : Nat) : Nat := 3 * w

/-! ### Writer (R240 to R244) -/

/-- `IhdrPayload(w, h, c)` (R240, R106). -/
def ihdrPayload (w h : Word) (comp : Byte) : List Byte :=
  be32 w ++ be32 h ++ [0x08, 0x02, comp, 0x00, 0x00]

/-- `Filter(x, w, h)` (R241): each row after a 0 marker. -/
def filterRows (x : List Byte) (w h : Nat) : List Byte :=
  (List.range h).flatMap (fun r => 0x00 :: (x.drop (rowBytes w * r)).take (rowBytes w))

/-- `Compress(R)` by CFG.CONT_LZSS (R242). -/
def compressRows (contLzss : Bool) (rows : List Byte) : List Byte :=
  if contLzss then lzssCompress rows else Config.ext.compress rows

/-- The CRC of a chunk: over tag and payload (R104, R155). -/
def chunkCrc (tag : Word) (payload : List Byte) : Word := crc32 (be32 tag ++ payload)

/-- `Chunk(ty, pl)` (R243). -/
def chunkBytes (tag : Word) (payload : List Byte) : List Byte :=
  encodeChunk ⟨tag, payload, chunkCrc tag payload⟩

/-- The container around a compressed scanline stream (R244). -/
def containerBytes (w h : Word) (comp : Byte) (packed : List Byte) : List Byte :=
  containerSignature ++ chunkBytes tagIhdr (ihdrPayload w h comp) ++ chunkBytes tagIdat packed ++
    chunkBytes tagIend []

/-- `ContainerWrite(w, h, x)` with `CFG.CONT_LZSS` (R244). -/
def containerWrite (contLzss : Bool) (w h : Word) (x : List Byte) : List Byte :=
  containerBytes w h (if contLzss then 0x01 else 0x00)
    (compressRows contLzss (filterRows x w.toNat h.toNat))

/-- The operand checks of CONT_WRITE (R245): zero dimension, then pixel count. -/
def imageCheck (w h srcLen : Nat) : Except CmdError Unit :=
  if w = 0 ∨ h = 0 then .error (earlyErr .badParam 1)
  else if srcLen ≠ rowBytes w * h then .error (earlyErr .badParam 2)
  else .ok ()

/-- `CmdContWrite()` up to the compressor: the scanline stream (R245). -/
def startContWrite (s : State) : Except CmdError (List Byte) := do
  checkSrcDst s
  imageCheck s.regs.imgWidth.toNat s.regs.imgHeight.toNat s.regs.srcLen.toNat
  let rows :=
    filterRows (memRead s (srcRegion s.regs)) s.regs.imgWidth.toNat s.regs.imgHeight.toNat
  capacityCheck rows.length s.params.scratchSize 3
  return rows

/-- `CmdContWrite()` after the compressor (R245). -/
def finishContWrite (s : State) (packed : List Byte) : CmdResult := do
  capacityCheck packed.length s.params.scratchSize 3
  capacityCheck (57 + packed.length) s.regs.dstCap.toNat 1
  return { primary := containerBytes s.regs.imgWidth s.regs.imgHeight (compByte s.regs) packed }

/-- `CmdContWrite()` (R245). -/
def cmdContWrite (s : State) : CmdResult := do
  let rows ← startContWrite s
  finishContWrite s (compressRows s.regs.contLzss rows)

/-- CONT_WRITE (R245). -/
def execContWrite (s : State) : Host.Outcome State Fault Refusal :=
  .next (complete 0x7 (cmdContWrite s) s)

/-! ### Reader: chunks (R246 to R252) -/

/-- `ParseIhdr(pl)` (R249). -/
def parseIhdr (pl : List Byte) : Ihdr where
  width := u32At pl 0
  height := u32At pl 4
  depth := pl.getD 8 0
  colour := pl.getD 9 0
  comp := pl.getD 10 0
  filt := pl.getD 11 0
  il := pl.getD 12 0

/-- What one chunk does to the parser: it goes on, or it stops at the end marker (R247). -/
inductive ChunkStep where
  | goOn (u : ChunkUnit)
  | stop (u : ChunkUnit)
  deriving DecidableEq, Repr

/-- Checksum verification, of every chunk that fits (R248). -/
def crcCheck (c : Chunk) (u : ChunkUnit) : Except CmdError Unit :=
  if c.crc = chunkCrc c.tag c.payload then .ok () else .error (lateErr .crc u.pos)

/-- The parser past a chunk: `pos <- pos + 12 + L` (R247). -/
def pastChunk (payload : List Byte) (u : ChunkUnit) : ChunkUnit :=
  { u with rest := u.rest.drop (12 + payload.length), pos := u.pos + (12 + payload.length) }

/-- A metadata chunk (R249). -/
def applyIhdr (payload : List Byte) (crc : Word) (u : ChunkUnit) : Except CmdError ChunkStep := do
  crcCheck ⟨tagIhdr, payload, crc⟩ u
  if u.hdr.isSome then .error (lateErr .chunkOrder u.pos)
  else if payload.length ≠ 13 then .error (lateErr .badParam 3)
  else .ok (.goOn { pastChunk payload u with hdr := some (parseIhdr payload) })

/-- A payload chunk (R250). -/
def applyIdat (payload : List Byte) (crc : Word) (u : ChunkUnit) : Except CmdError ChunkStep := do
  crcCheck ⟨tagIdat, payload, crc⟩ u
  if u.hdr.isNone then .error (lateErr .chunkOrder u.pos)
  else .ok (.goOn { pastChunk payload u with payload := u.payload ++ payload })

/-- An end marker (R251): the payload, empty or not, is ignored. -/
def applyIend (payload : List Byte) (crc : Word) (u : ChunkUnit) : Except CmdError ChunkStep := do
  crcCheck ⟨tagIend, payload, crc⟩ u
  if u.hdr.isNone then .error (lateErr .chunkOrder u.pos) else .ok (.stop u)

/-- Any other chunk: verified and skipped (R252). -/
def applyOther (tag : Word) (payload : List Byte) (crc : Word) (u : ChunkUnit) :
    Except CmdError ChunkStep := do
  crcCheck ⟨tag, payload, crc⟩ u
  .ok (.goOn (pastChunk payload u))

/-- One pass of the parser's loop with a chunk that fits (R247). -/
def applyChunk (c : Chunk) (u : ChunkUnit) : Except CmdError ChunkStep :=
  if c.tag = tagIhdr then applyIhdr c.payload c.crc u
  else if c.tag = tagIdat then applyIdat c.payload c.crc u
  else if c.tag = tagIend then applyIend c.payload c.crc u
  else applyOther c.tag c.payload c.crc u

/-- The parser's loop (R247), at most `n` chunks: the parser and the truncation indicator. -/
def chunkLoop : Nat → ChunkUnit → Except CmdError (ChunkUnit × Bool)
  | 0, u => .ok (u, true)
  | n + 1, u =>
    match parseChunk u.rest with
    | .ok c =>
      match applyChunk c u with
      | .ok (.goOn u') => chunkLoop n u'
      | .ok (.stop u') => .ok (u', false)
      | .error e => .error e
    | .error _ => .ok (u, true)

/-- The parser run to its end; a chunk takes at least twelve bytes. -/
def runChunks (u : ChunkUnit) : Except CmdError (ChunkUnit × Bool) := chunkLoop u.rest.length u

/-- The parser when its command starts: the index is 0 (R45). -/
def chunkStart (s : List Byte) : ChunkUnit := ⟨s, 0, none, []⟩

/-- The signature check at index 0, then the parser at the first chunk, index 8 (R246, R247). -/
def passSignature (u : ChunkUnit) : Except CmdError ChunkUnit :=
  if u.rest.length < 8 ∨ u.rest.take 8 ≠ containerSignature then
    .error (lateErr .badSignature u.pos)
  else .ok { u with rest := u.rest.drop 8, pos := u.pos + 8 }

/-- The parser past the signature of a container (R246, R247). -/
def openContainer (s : List Byte) : Except CmdError ChunkUnit := passSignature (chunkStart s)

/-- `ContainerRead(s)` (R247). -/
def containerRead (s : List Byte) : Except CmdError (ChunkUnit × Bool) := do
  let u ← openContainer s
  runChunks u

/-! ### Reader: pixels (R253 to R255) -/

/-- `Unfilter(R, w, h)` from index `j` on, `h` rows left: pixels and truncation (R254). -/
def unfilterRows (w : Nat) : Nat → Nat → List Byte → Except CmdError (List Byte × Bool)
  | 0, _, _ => .ok ([], false)
  | _ + 1, _, [] => .ok ([], true)
  | h + 1, j, marker :: rest =>
    if marker ≠ 0x00 then .error (lateErr .badFilter j)
    else if rest.length < rowBytes w then .ok (rest, true)
    else
      match unfilterRows w h (j + (1 + rowBytes w)) (rest.drop (rowBytes w)) with
      | .ok (out, trunc) => .ok (rest.take (rowBytes w) ++ out, trunc)
      | .error e => .error e

/-- `Unfilter(R, w, h)` (R254). -/
def unfilter (rows : List Byte) (w h : Nat) : Except CmdError (List Byte × Bool) :=
  unfilterRows w h 0 rows

/-- What CONT_READ reports of the metadata (R255, R39, R40). -/
def imageInfoOf (hdr : Ihdr) : ImageInfo where
  width := hdr.width
  height := hdr.height
  metaWord := hdr.filt ++ hdr.comp ++ hdr.colour ++ hdr.depth
  metaIl := hdr.il

/-- What a container truncated before any IHDR reports (R255). -/
def noImageInfo : ImageInfo := ⟨0, 0, 0, 0⟩

/-- `CmdContRead()` from the decompressed stream on (R255). -/
def readPixels (s : State) (hdr : Ihdr) (rows : List Byte) (trunc : Bool) : CmdResult := do
  capacityCheck rows.length s.params.scratchSize 3
  let (out, tr2) ← unfilter rows hdr.width.toNat hdr.height.toNat
  capacityCheck out.length s.regs.dstCap.toNat 1
  return { primary := out, trunc := trunc || tr2, image := some (imageInfoOf hdr) }

/-- `EXT_DECOMPRESS(P)`, a failure being ERR_EXT (R253). -/
def extDecompress (payload : List Byte) : Except CmdError (List Byte) :=
  match Config.ext.decompress payload with
  | some rows => .ok rows
  | none => .error (lateErr .ext 0)

/-- What follows the chunk loop: the result, or the token loop over `P` (R255). -/
inductive AfterChunks where
  | done (o : CmdOutput)
  | tokens (u : TokenUnit)
  deriving DecidableEq, Repr

/-- `CmdContRead()` between the chunk loop and the token loop (R253, R255). -/
def afterChunks (s : State) (u : ChunkUnit) (trunc : Bool) : Except CmdError AfterChunks :=
  match u.hdr with
  | none => .ok (.done { trunc := true, image := some noImageInfo })
  | some hdr => do
    capacityCheck u.payload.length s.params.scratchSize 3
    if s.regs.contLzss then return .tokens (tokenStart u.payload trunc)
    else
      let rows ← extDecompress u.payload
      let o ← readPixels s hdr rows trunc
      return .done o

/-- `CmdContRead()` after the token loop (R255); the header is the chunk parser's. -/
def finishContRead (s : State) (hdr : Option Ihdr) (rows : List Byte) (trunc : Bool) : CmdResult :=
  match hdr with
  | some h => readPixels s h rows trunc
  | none => .ok { trunc := true, image := some noImageInfo }

/-- `CmdContRead()` up to the parser (R255). -/
def startContRead (s : State) : Except CmdError ChunkUnit := do
  checkSrcDst s
  return chunkStart (memRead s (srcRegion s.regs))

/-- `CmdContRead()` (R255). -/
def cmdContRead (s : State) : CmdResult := do
  let start ← startContRead s
  let u0 ← passSignature start
  let (u, tr0) ← runChunks u0
  match ← afterChunks s u tr0 with
  | .done o => return o
  | .tokens t =>
    let (rows, tr1) ← runTokens t
    finishContRead s u.hdr rows tr1

/-- CONT_READ (R255). -/
def execContRead (s : State) : Host.Outcome State Fault Refusal :=
  .next (complete 0x8 (cmdContRead s) s)

/-! ### Chunk instructions: one pass of the parser's loop on the engine's own parser (R45, R247) -/

/-- The end of the chunk loop (R255): the command completes, or the token decoder starts on `P`. -/
def chunksEnd (trunc : Bool) (s : State) : State :=
  match afterChunks s s.internals.chunk trunc with
  | .ok (.done o) => complete s.regs.op (.ok o) s
  | .ok (.tokens t) =>
    { s with
      seq := .tokens
      internals := { s.internals with tok := t, scratch := s.internals.chunk.payload } }
  | .error e => complete s.regs.op (.error e) s

/-- The parser after one chunk; an error ends the running command (R247, R134). -/
def afterChunk (r : Except CmdError ChunkStep) (s : State) : State :=
  match r with
  | .ok (.goOn u) => { s with internals := { s.internals with chunk := u } }
  | .ok (.stop u) => chunksEnd false { s with internals := { s.internals with chunk := u } }
  | .error e => complete s.regs.op (.error e) s

/-- A metadata chunk (R249). -/
def execChunkIhdr (payload : List Byte) (crc : Word) (s : State) :
    Host.Outcome State Fault Refusal :=
  .next (afterChunk (applyIhdr payload crc s.internals.chunk) s)

/-- A payload chunk (R250). -/
def execChunkIdat (payload : List Byte) (crc : Word) (s : State) :
    Host.Outcome State Fault Refusal :=
  .next (afterChunk (applyIdat payload crc s.internals.chunk) s)

/-- An end marker (R251). -/
def execChunkIend (payload : List Byte) (crc : Word) (s : State) :
    Host.Outcome State Fault Refusal :=
  .next (afterChunk (applyIend payload crc s.internals.chunk) s)

/-- Any other chunk (R252). -/
def execChunkOther (tag : Word) (payload : List Byte) (crc : Word) (s : State) :
    Host.Outcome State Fault Refusal :=
  .next (afterChunk (applyOther tag payload crc s.internals.chunk) s)

end Sys2Proof.Machine
end

