-- ==== Sys2Proof/Machine/Huffman.lean ====
section
/-! DEFINITION. The Huffman coder: tree builder, code generator, table serializer and deserializer, bitstream coder, and its commands (43_huffman.md). -/
namespace Sys2Proof.Machine
open Sys2Proof

/-- A code table as (value, code) pairs in ascending byte value (R204). -/
abbrev CodeTable := List (Byte × Bits)

/-- The byte values in ascending order. -/
def byteValues : List Byte := (List.range 256).map (BitVec.ofNat 8)

/-- A Huffman tree (glossary, R203): leaves hold one byte value, the left child is bit 0. -/
inductive HuffTree where
  | leaf (value : Byte)
  | node (left right : HuffTree)
  deriving DecidableEq, Repr, Inhabited

/-- A node of the merge queue with the tree under it (R201, R203). -/
structure HuffNode where
  weight : Nat
  seq : Nat
  tree : HuffTree
  deriving DecidableEq, Repr, Inhabited

/-! ### Tree builder (R200 to R203) -/

/-- `freq[v]` (R200). -/
def freqOf (d : List Byte) (v : Byte) : Nat := d.count v

/-- The frequency table as the engine holds it: 256 counters of 32 bits (R46, R200). -/
def freqTable (d : List Byte) : List Word := byteValues.map (fun v => BitVec.ofNat 32 (freqOf d v))

/-- The count that a frequency table gives a byte value. -/
def tableCount (freq : List Word) (v : Byte) : Nat := (freq.getD v.toNat 0).toNat

/-- The leaves for the values that a count says are present, with their sequence numbers, in
ascending byte value (R201). -/
def leavesOf (count : Byte → Nat) : List HuffNode :=
  (byteValues.filter (fun v => 0 < count v)).zipIdx.map (fun p => ⟨count p.1, p.2, .leaf p.1⟩)

/-- The queue's order: by weight, then by insertion sequence number (R203). -/
def nodeBefore (a b : HuffNode) : Bool :=
  decide (a.weight < b.weight) || (a.weight == b.weight && decide (a.seq < b.seq))

/-- Insert into the queue, which is kept in its order. -/
def enqueue (x : HuffNode) : List HuffNode → List HuffNode
  | [] => [x]
  | y :: ys => if nodeBefore x y then x :: y :: ys else y :: enqueue x ys

/-- The merge loop (R203), at most `n` merges from `nextSeq` on: the first node extracted is the
left child, the second the right. -/
def mergeLoop : Nat → Nat → List HuffNode → List HuffNode
  | n + 1, nextSeq, a :: b :: queue =>
    mergeLoop n (nextSeq + 1) (enqueue ⟨a.weight + b.weight, nextSeq, .node a.tree b.tree⟩ queue)
  | _, _, queue => queue

/-- `BuildTree(leaves)` (R203): the root alone is left, or nothing of no leaves. -/
def buildTree (leaves : List HuffNode) : List HuffNode :=
  mergeLoop leaves.length leaves.length (leaves.foldr enqueue [])

/-! ### Code generator (R202, R204) -/

/-- `Codes(node, path)` (R204): left edges are 0, right edges 1. -/
def treeCodes : HuffTree → Bits → List (Byte × Bits)
  | .leaf v, path => [(v, path)]
  | .node l r, path => treeCodes l (pushBit path false) ++ treeCodes r (pushBit path true)

/-- The codes of the present values, in ascending byte value (R204, R207). -/
def sortCodes (codes : List (Byte × Bits)) : CodeTable :=
  byteValues.filterMap (fun v => (codes.lookup v).map (fun c => (v, c)))

/-- `CT` of what the tree builder left: nothing, a single leaf with the code "0", or a tree
(R202, R204). -/
def codesOf : List HuffNode → CodeTable
  | [] => []
  | ⟨_, _, .leaf v⟩ :: _ => [(v, [false])]
  | ⟨_, _, .node l r⟩ :: _ => sortCodes (treeCodes (.node l r) [])

/-- `CT` for an input (R200 to R204). -/
def codeTable (d : List Byte) : CodeTable := codesOf (buildTree (leavesOf (freqOf d)))

/-! ### Tree builder and code generator on the engine's own arena (R46, R203, R204) -/

/-- The weight of a node. -/
def ArenaNode.weight : ArenaNode → Word
  | .leaf _ w _ => w
  | .internal w _ _ _ => w

/-- The insertion sequence number of a node. -/
def ArenaNode.seq : ArenaNode → Nat
  | .leaf _ _ n => n
  | .internal _ _ _ n => n

/-- The node at an index of the arena. -/
def arenaAt (arena : List ArenaNode) (i : Nat) : ArenaNode := arena.getD i default

/-- The leaves that a frequency table gives, in ascending byte value (R201). -/
def arenaLeaves (freq : List Word) : List ArenaNode :=
  (byteValues.filter (fun v => 0 < tableCount freq v)).zipIdx.map
    (fun p => .leaf p.1 (freq.getD p.1.toNat 0) p.2)

/-- The queue's order on two nodes of the arena (R203). -/
def indexBefore (arena : List ArenaNode) (i j : Nat) : Bool :=
  decide ((arenaAt arena i).weight < (arenaAt arena j).weight) ||
    ((arenaAt arena i).weight == (arenaAt arena j).weight &&
      decide ((arenaAt arena i).seq < (arenaAt arena j).seq))

/-- Insert an index into the queue, which is kept in its order. -/
def enqueueIndex (arena : List ArenaNode) (i : Nat) : List Nat → List Nat
  | [] => [i]
  | j :: js => if indexBefore arena i j then i :: j :: js else j :: enqueueIndex arena i js

/-- The internal node over the nodes at two indices (R203). -/
def mergedNode (arena : List ArenaNode) (i j seq : Nat) : ArenaNode :=
  .internal ((arenaAt arena i).weight + (arenaAt arena j).weight) i j seq

/-- `Codes(node, path)` from an index of the arena (R204), at most `n` nodes deep. -/
def codesFrom (arena : List ArenaNode) : Nat → Nat → Bits → List (Byte × Bits)
  | 0, _, _ => []
  | n + 1, i, path =>
    match arenaAt arena i with
    | .leaf v _ _ => [(v, path)]
    | .internal _ l r _ =>
      codesFrom arena n l (pushBit path false) ++ codesFrom arena n r (pushBit path true)

/-- `CT` of the root that the queue holds (R202, R204). -/
def arenaCodes (arena : List ArenaNode) : List Nat → CodeTable
  | [] => []
  | i :: _ =>
    match arenaAt arena i with
    | .leaf v _ _ => [(v, [false])]
    | .internal _ _ _ _ => sortCodes (codesFrom arena arena.length i [])

/-! ### Bitstream encoder and table serializer (R206, R207) -/

/-- `CT[v]`. -/
def codeOf (ct : CodeTable) (v : Byte) : Bits := (ct.lookup v).getD []

/-- The bitstream of an input with a code table (R206). -/
def encodeBits (ct : CodeTable) (d : List Byte) : Bits := d.flatMap (codeOf ct)

/-- `HuffmanEncode(d)` (R206). -/
def huffmanEncode (d : List Byte) : Bits × CodeTable := (encodeBits (codeTable d) d, codeTable d)

/-- One entry of a serialized table (R100, R207). -/
def entryBytes (e : Byte × Bits) : List Byte := e.1 :: BitVec.ofNat 8 e.2.length :: packBits e.2

/-- `SerializeTable(CT)` (R207). -/
def serializeTable (ct : CodeTable) : List Byte :=
  be16 (BitVec.ofNat 16 ct.length) ++ ct.flatMap entryBytes

/-! ### Table deserializer (R208) -/

/-- The entries from table index `q` on, `count` of them (R208). -/
def tableEntries : Nat → Nat → List Byte → Except CmdError (List Entry)
  | 0, _, _ => .ok []
  | n + 1, q, v :: l :: rest =>
    if rest.length < ceil8 l.toNat then .error (lateErr .badTable q)
    else
      match tableEntries n (q + 2 + ceil8 l.toNat) (rest.drop (ceil8 l.toNat)) with
      | .ok es => .ok (⟨v, l, unpackBits (rest.take (ceil8 l.toNat)) l.toNat⟩ :: es)
      | .error e => .error e
  | _ + 1, q, _ => .error (lateErr .badTable q)

/-- `DeserializeTable(t)` (R208). -/
def deserializeTable (t : List Byte) : Except CmdError (List Entry) :=
  if t.length < 2 then .error (lateErr .badTable 0)
  else if 256 < (u16At t 0).toNat then .error (lateErr .badTable 0)
  else tableEntries (u16At t 0).toNat 2 (t.drop 2)

/-! ### Bitstream decoder (R209 to R211) -/

/-- The first entry in table order whose length and code are the candidate's (R209). -/
def matchEntry (table : List Entry) (cand : Bits) : Option Entry :=
  table.find? (fun e => e.len.toNat == cand.length && e.code == cand)

/-- The decoder's loop: bits left, candidate, output (R209, R210). -/
def decodeBits (table : List Entry) : Bits → Bits → List Byte → List Byte × Bool
  | [], cand, out => (out, !cand.isEmpty)
  | b :: bits, cand, out =>
    match matchEntry table (pushBit cand b) with
    | some e => decodeBits table bits [] (out ++ [e.value])
    | none => decodeBits table bits (pushBit cand b) out

/-- `HuffmanDecode(bits, E)` (R209). -/
def huffmanDecode (bits : Bits) (table : List Entry) : List Byte × Bool := decodeBits table bits [] []

/-- The decoder at the start of a bit string, with the truncation of what came before it. -/
def bitStart (table : List Entry) (bits : Bits) (trunc : Bool) : BitUnit :=
  ⟨table, bits, 0, [], [], trunc⟩

/-- The decoder past one bit: the candidate grows, and a match emits its byte (R209). A candidate
that fills its register of 255 bits (R46) can never match once another bit follows, so the decoder
stops consuming there (R210). -/
def pastBit (b : Bool) (rest : Bits) (u : BitUnit) : BitUnit :=
  if 255 ≤ u.cand.length then { u with rest := [] }
  else match matchEntry u.table (pushBit u.cand b) with
    | some e =>
      { u with rest := rest, bitIndex := u.bitIndex + 1, cand := [], out := u.out ++ [e.value] }
    | none => { u with rest := rest, bitIndex := u.bitIndex + 1, cand := pushBit u.cand b }

/-- The decoder run from a unit to its end: output and truncation indicator (R209, R210, R306). -/
def runBits (u : BitUnit) : List Byte × Bool :=
  let r := decodeBits u.table u.rest u.cand u.out
  (r.1, u.trunc || r.2)

/-- The bits that `bitLen` asks for and the bytes hold, and whether it asked for more (R213, R284). -/
def clampBits (bytes : List Byte) (bitLen : Nat) : Bits × Bool :=
  if 8 * bytes.length < bitLen then (unpackBits bytes (8 * bytes.length), true)
  else (unpackBits bytes bitLen, false)

/-! ### Commands (R212, R213) -/

/-- `CmdHuffEncode()` after the coder (R212). -/
def finishHuffEncode (s : State) (bits : Bits) (ct : CodeTable) : CmdResult := do
  let packed := packBits bits
  let table := serializeTable ct
  capacityCheck packed.length s.regs.dstCap.toNat 1
  capacityCheck table.length s.regs.auxLen.toNat 2
  return { primary := packed, aux := table, bitLen := some (BitVec.ofNat 32 bits.length) }

/-- `CmdHuffEncode()` (R212). -/
def cmdHuffEncode (s : State) : CmdResult := do
  checkSrcDstAuxOut s
  let (bits, ct) := huffmanEncode (memRead s (srcRegion s.regs))
  finishHuffEncode s bits ct

/-- HUFF_ENCODE (R212). -/
def execHuffEncode (s : State) : Host.Outcome State Fault Refusal :=
  .next (complete 0x3 (cmdHuffEncode s) s)

/-- `CmdHuffDecode()` up to the bitstream decoder (R213). -/
def startHuffDecode (s : State) : Except CmdError BitUnit := do
  checkSrcDstAuxIn s
  let table ← deserializeTable (memRead s (auxRegion s.regs))
  let (bits, tr0) := clampBits (memRead s (srcRegion s.regs)) s.regs.bitLen.toNat
  return bitStart table bits tr0

/-- `CmdHuffDecode()` after the bitstream decoder (R213). -/
def finishHuffDecode (s : State) (out : List Byte) (trunc : Bool) : CmdResult := do
  capacityCheck out.length s.regs.dstCap.toNat 1
  return { primary := out, trunc := trunc }

/-- `CmdHuffDecode()` (R213). -/
def cmdHuffDecode (s : State) : CmdResult := do
  let u ← startHuffDecode s
  let (out, trunc) := runBits u
  finishHuffDecode s out trunc

/-- HUFF_DECODE (R213). -/
def execHuffDecode (s : State) : Host.Outcome State Fault Refusal :=
  .next (complete 0x4 (cmdHuffDecode s) s)

end Sys2Proof.Machine
end

