-- ==== Sys2Proof/Machine/Pipeline.lean ====
section
/-! DEFINITION. The two-stage pipeline and its archive: PACK and UNPACK (45_pipeline.md). -/
namespace Sys2Proof.Machine
open Sys2Proof

/-- `ArchiveBytes(B, tb, P)` (R281). -/
def archiveBytes (magic : Word) (bitLen : Nat) (table packed : List Byte) : List Byte :=
  be32 magic ++ be32 (BitVec.ofNat 32 bitLen) ++ be32 (BitVec.ofNat 32 table.length) ++ table ++
    packed

/-- The archive of an LZSS stream: Huffman coding and framing (R280). -/
def archiveOf (magic : Word) (stream : List Byte) : List Byte :=
  archiveBytes magic (huffmanEncode stream).1.length (serializeTable (huffmanEncode stream).2)
    (packBits (huffmanEncode stream).1)

/-- `Pack(x)` (R280). -/
def packArchive (magic : Word) (x : List Byte) : List Byte := archiveOf magic (lzssCompress x)

/-- The header's bit length `B` and table length `N`, or the first failing check (R282). -/
def archiveHeader (magic : Word) (a : List Byte) : Except CmdError (Nat × Nat) :=
  if a.length < 4 ∨ a.take 4 ≠ be32 magic then .error (lateErr .badMagic 0)
  else if a.length < 12 then .error (lateErr .badArchive 1)
  else if a.length < 12 + (u32At a 8).toNat then .error (lateErr .badArchive 2)
  else .ok ((u32At a 4).toNat, (u32At a 8).toNat)

/-- `Unpack` up to the bitstream decoder (R282 to R284). -/
def openArchive (magic : Word) (a : List Byte) : Except CmdError BitUnit := do
  let (bitLen, tableLen) ← archiveHeader magic a
  let table ← deserializeTable ((a.drop 12).take tableLen)
  let (bits, tr0) := clampBits (a.drop (12 + tableLen)) bitLen
  return bitStart table bits tr0

/-- `Unpack` up to and with the Huffman stage: the intermediate `T` and its truncation (R285). -/
def unpackStream (magic : Word) (a : List Byte) : Except CmdError (List Byte × Bool) := do
  let u ← openArchive magic a
  return runBits u

/-- `Unpack(a)` (R285). -/
def unpackArchive (magic : Word) (a : List Byte) : Except CmdError (List Byte × Bool) := do
  let (stream, trunc) ← unpackStream magic a
  runTokens (tokenStart stream trunc)

/-! ### Commands (R286, R287) -/

/-- `CmdPack()` after the Huffman coder (R286). -/
def finishPack (s : State) (bits : Bits) (ct : CodeTable) : CmdResult := do
  let archive :=
    archiveBytes s.params.archiveMagic bits.length (serializeTable ct) (packBits bits)
  capacityCheck archive.length s.regs.dstCap.toNat 1
  return { primary := archive }

/-- `CmdPack()` (R286). -/
def cmdPack (s : State) : CmdResult := do
  checkSrcDst s
  let stream := lzssCompress (memRead s (srcRegion s.regs))
  capacityCheck stream.length s.params.scratchSize 3
  let (bits, ct) := huffmanEncode stream
  finishPack s bits ct

/-- PACK (R286). -/
def execPack (s : State) : Host.Outcome State Fault Refusal := .next (complete 0x5 (cmdPack s) s)

/-- `CmdUnpack()` up to the bitstream decoder (R287). -/
def startUnpack (s : State) : Except CmdError BitUnit := do
  checkSrcDst s
  openArchive s.params.archiveMagic (memRead s (srcRegion s.regs))

/-- `CmdUnpack()` between the bitstream decoder and the token loop (R287). -/
def afterUnpackBits (s : State) (stream : List Byte) (trunc : Bool) : Except CmdError TokenUnit := do
  capacityCheck stream.length s.params.scratchSize 3
  return tokenStart stream trunc

/-- `CmdUnpack()` after the token loop (R287). -/
def finishUnpack (s : State) (out : List Byte) (trunc : Bool) : CmdResult := do
  capacityCheck out.length s.regs.dstCap.toNat 1
  return { primary := out, trunc := trunc }

/-- `CmdUnpack()` (R287). -/
def cmdUnpack (s : State) : CmdResult := do
  let b ← startUnpack s
  let (stream, tr) := runBits b
  let u ← afterUnpackBits s stream tr
  let (out, trunc) ← runTokens u
  finishUnpack s out trunc

/-- UNPACK (R287). -/
def execUnpack (s : State) : Host.Outcome State Fault Refusal := .next (complete 0x6 (cmdUnpack s) s)

end Sys2Proof.Machine
end

