-- ==== Sys2Proof/Machine/Dispatch.lean ====
section
/-! DEFINITION. One arm per instruction of the table (R131, R177, R247). -/
namespace Sys2Proof.Machine
open Sys2Proof

def exec (i : Instr) (s : State) : Host.Outcome State Fault Refusal :=
  match i with
  | .nop => Sys2Proof.Machine.execNop s
  | .lzssCompress => Sys2Proof.Machine.execLzssCompress s
  | .lzssDecompress => Sys2Proof.Machine.execLzssDecompress s
  | .huffEncode => Sys2Proof.Machine.execHuffEncode s
  | .huffDecode => Sys2Proof.Machine.execHuffDecode s
  | .pack => Sys2Proof.Machine.execPack s
  | .unpack => Sys2Proof.Machine.execUnpack s
  | .contWrite => Sys2Proof.Machine.execContWrite s
  | .contRead => Sys2Proof.Machine.execContRead s
  | .crc32 => Sys2Proof.Machine.execCrc32 s
  | .reservedCmdA => Sys2Proof.Machine.execReservedCmdA s
  | .reservedCmdB => Sys2Proof.Machine.execReservedCmdB s
  | .reservedCmdC => Sys2Proof.Machine.execReservedCmdC s
  | .reservedCmdD => Sys2Proof.Machine.execReservedCmdD s
  | .reservedCmdE => Sys2Proof.Machine.execReservedCmdE s
  | .reservedCmdF => Sys2Proof.Machine.execReservedCmdF s
  | .lit b => Sys2Proof.Machine.execLit b s
  | .matchToken offset lenField => Sys2Proof.Machine.execMatchToken offset lenField s
  | .reservedTag02 _ => Sys2Proof.Machine.execReservedTag02 s
  | .reservedTag04 _ => Sys2Proof.Machine.execReservedTag04 s
  | .reservedTag08 _ => Sys2Proof.Machine.execReservedTag08 s
  | .reservedTag10 _ => Sys2Proof.Machine.execReservedTag10 s
  | .reservedTag20 _ => Sys2Proof.Machine.execReservedTag20 s
  | .reservedTag40 _ => Sys2Proof.Machine.execReservedTag40 s
  | .reservedTag80 _ => Sys2Proof.Machine.execReservedTag80 s
  | .chunkIhdr payload crc => Sys2Proof.Machine.execChunkIhdr payload crc s
  | .chunkIdat payload crc => Sys2Proof.Machine.execChunkIdat payload crc s
  | .chunkIend payload crc => Sys2Proof.Machine.execChunkIend payload crc s
  | .chunkOther tag payload crc => Sys2Proof.Machine.execChunkOther tag payload crc s

end Sys2Proof.Machine
end

