-- ==== Sys2Proof/Machine/Fetch.lean ====
section
/-! DEFINITION. Where the engine finds its next instruction: the command register, the token stream or the container being parsed (R131, R177, R247). -/
namespace Sys2Proof.Machine
open Sys2Proof

/-- What the engine does next. -/
inductive Fetched where
  /-- an instruction to perform -/
  | instr (i : Instr)
  /-- the token loop ends, with its truncation indicator (R177, R182) -/
  | tokensEnd (trunc : Bool)
  /-- the chunk loop ends without an end marker: the container is truncated (R247) -/
  | containerEnd
  /-- a move of a stage that performs no instruction (R174, R200 to R209) -/
  | stage
  deriving DecidableEq, Repr

/-- The engine's next move: the command of CMD.OP (R131), or the next token or chunk of the
internal run (R177, R247). -/
def fetch (s : State) : Fetched :=
  match s.seq with
  | .idle => .instr (decodeCommand (cmdWord s.regs))
  | .tokens =>
    match decodeToken s.internals.tok.rest with
    | .ok i => .instr i
    | .error .endOfStream => .tokensEnd s.internals.tok.trunc
    | .error _ => .tokensEnd true
  | .chunks =>
    match decodeChunk s.internals.chunk.rest with
    | .ok i => .instr i
    | .error _ => .containerEnd
  | .signature => .stage
  | .encoder => .stage
  | .count => .stage
  | .leaves => .stage
  | .build => .stage
  | .codes => .stage
  | .emit => .stage
  | .bits => .stage

/-- The state whose next step performs the code: a command is selected in CMD and accepted; a token
or a chunk is the next of the stream that LZSS_DECOMPRESS or CONT_READ is working on. Log 8. -/
def withCode (c : Code) (s : State) : State :=
  match c with
  | .command w =>
    { s with
      regs := { s.regs with op := w.extractLsb' 0 4, busy := true }
      seq := .idle
      turns := [] }
  | .token bytes =>
    { s with
      regs := { s.regs with op := 0x2, busy := true }
      seq := .tokens
      internals := { s.internals with tok := ⟨bytes, 0, [], false⟩ }
      turns := [] }
  | .chunk bytes =>
    { s with
      regs := { s.regs with op := 0x8, busy := true }
      seq := .chunks
      internals := { s.internals with chunk := ⟨bytes, 8, none, []⟩ }
      turns := [] }

/-- The state whose next step performs a table row's word. -/
def loadTableWord (s : State) (nbits w : Nat) : State :=
  match tableCode nbits w with
  | some c => withCode c s
  | none => s

end Sys2Proof.Machine
end

