-- ==== Sys2Proof/Machine/HostBus.lean ====
section
/-! DEFINITION. Host transactions: register block, LMEM, pseudo-instructions, the platform bridge, hard reset (R20 to R26, R63, R64, R112, R340). -/
namespace Sys2Proof.Machine
open Sys2Proof

/-! ### Register block -/

/-- A host write of CTRL (R22): a soft reset, or IE and then START. That a start request while BUSY,
which changes nothing (R130, R348), still writes IE is the model's choice. Log 12. -/
def writeCtrl (v : Word) (s : State) : State :=
  if v.getLsbD 1 then softReset s
  else if v.getLsbD 0 then { s with regs := accept { s.regs with ie := v.getLsbD 2 } }
  else { s with regs := { s.regs with ie := v.getLsbD 2 } }

/-- A host write of STATUS (R25): bit 1 clears DONE, nothing else. -/
def writeStatus (v : Word) (s : State) : State :=
  if v.getLsbD 1 then { s with regs := acknowledge s.regs } else s

/-- A host write of a named register (R20, R26): operand registers are locked while BUSY, read-only
registers ignore it. -/
def writeReg (n : RegName) (v : Word) (s : State) : State :=
  match n with
  | .ctrl => writeCtrl v s
  | .status => writeStatus v s
  | n => if s.regs.busy then s else { s with regs := setOperand s.regs v n }

/-- A host register write (R26): other widths, unaligned offsets and reserved slots are ignored. -/
def hostRegWrite (offset : BitVec 8) (width : AccessWidth) (v : Word) (s : State) : State :=
  match width, regAt offset with
  | .w32, some n => writeReg n v s
  | _, _ => s

/-- A value arrives at the host. -/
def receive (r : Reply) (s : State) : State := { s with received := r :: s.received }

/-- A host read of a named register (R26); while BUSY the result registers are unspecified (R349). -/
def readNamed (n : RegName) (s : State) : State :=
  if s.regs.busy && readFreeWhileBusy n then
    { receive (.word (Config.freeWord s.freeCtr)) s with freeCtr := s.freeCtr + 1 }
  else receive (.word (readReg s.regs n)) s

/-- A host register read (R26, R42): other widths, unaligned offsets and reserved slots return 0. -/
def hostRegRead (offset : BitVec 8) (width : AccessWidth) (s : State) : State :=
  match width, regAt offset with
  | .w32, some n => readNamed n s
  | _, _ => receive (.word 0) s

/-! ### LMEM (R63) -/

/-- `HostMemWrite` (R63); inside LMEM it is refused while BUSY (R347). Log 5. -/
def hostMemWrite (a : Nat) (b : Byte) (s : State) : Host.Outcome State Fault Refusal :=
  if a < s.params.lmemSize then
    if s.regs.busy then .refused .hostLmemWhileBusy
    else .next { s with lmem := memSet s.params.lmemSize s.lmem a b }
  else .next s

/-- `HostMemRead` (R63); inside LMEM it is refused while BUSY (R347). Log 5. -/
def hostMemRead (a : Nat) (s : State) : Host.Outcome State Fault Refusal :=
  if a < s.params.lmemSize then
    if s.regs.busy then .refused .hostLmemWhileBusy
    else .next (receive (.byte (lmemByte s a)) s)
  else .next (receive (.byte 0) s)

/-! ### Pseudo-instructions (R112) -/

/-- The CTRL value of `run`: START with IE kept (R112). -/
def startWord (r : Regs) : Word := 0x1 ||| ((BitVec.ofBool r.ie).setWidth 32 <<< 2)

/-- `run MNEMONIC` (R112). -/
def expandRun (op : BitVec 4) (r : Regs) : List HostOp :=
  [.regWrite RegName.cmd.offset .w32 (op.setWidth 32),
    .regWrite RegName.ctrl.offset .w32 (startWord r)]

/-- One read of `poll` (R112): it goes on until the STATUS it reads has DONE = 1. -/
def pollOnce (s : State) : State :=
  if s.regs.done then hostRegRead RegName.status.offset .w32 s
  else { hostRegRead RegName.status.offset .w32 s with host := .poll :: s.host }

/-! ### Platform addresses (R63, R64) -/

/-- How many bytes an access moves. -/
def AccessWidth.bytes : AccessWidth → Nat
  | .w8 => 1
  | .w16 => 2
  | .w32 => 4

/-- The byte lanes of a value in ascending address order (HOST_BUS_ENDIAN, R63). -/
def laneBytes (order : ByteOrder) (width : AccessWidth) (v : Word) : List Byte :=
  let lanes := (List.range width.bytes).map (fun k => v.extractLsb' (8 * k) 8)
  match order with
  | .little => lanes
  | .big => lanes.reverse

/-- The register offset of a platform address, when it is in the register block (R64). -/
def regWindow (p : Params) (addr : Nat) : Option (BitVec 8) :=
  if p.regBase ≤ addr ∧ addr < p.regBase + 256 then some (BitVec.ofNat 8 (addr - p.regBase)) else none

/-- The LMEM address of a platform address, when it is in LMEM's window (R64). -/
def lmemWindow (p : Params) (addr : Nat) : Option Nat :=
  if p.lmemBase ≤ addr ∧ addr < p.lmemBase + p.lmemSize then some (addr - p.lmemBase) else none

/-- What the bridge makes of a write at a platform address (R63, R64). Log 6. -/
def bridgeStore (p : Params) (addr : Nat) (width : AccessWidth) (v : Word) : List HostOp :=
  match regWindow p addr, lmemWindow p addr with
  | some offset, _ => [.regWrite offset width v]
  | none, some a => (laneBytes p.busOrder width v).zipIdx.map (fun x => .memWrite (a + x.2) x.1)
  | none, none => []

/-- The value that bytes in ascending address order make up (HOST_BUS_ENDIAN, R63). -/
def laneValue (order : ByteOrder) (bytes : List Byte) : Word :=
  let lanes := match order with
    | .little => bytes
    | .big => bytes.reverse
  lanes.foldr (fun b v => (v <<< 8) ||| b.setWidth 32) 0

/-- The first `n` replies, when all are bytes, in the order they came, and the older replies. -/
def takeBytes : Nat → List Reply → Option (List Byte × List Reply)
  | 0, older => some ([], older)
  | n + 1, .byte b :: older =>
    (takeBytes n older).map (fun x => (x.1 ++ [b], x.2))
  | _ + 1, _ => none

/-- The end of a wide read of LMEM: the bytes just read become one value (R63). Log 6. -/
def gatherBytes (width : AccessWidth) (s : State) : State :=
  match takeBytes width.bytes s.received with
  | some (bytes, older) =>
    { s with received := .word (laneValue s.params.busOrder bytes) :: older }
  | none => s

/-- What the bridge makes of a read at a platform address (R63, R64): one register access, or byte
accesses whose lanes it then puts together by HOST_BUS_ENDIAN. Log 6. -/
def bridgeLoad (p : Params) (addr : Nat) (width : AccessWidth) : List HostOp :=
  match regWindow p addr, lmemWindow p addr with
  | some offset, _ => [.regRead offset width]
  | none, some a =>
    (List.range width.bytes).map (fun k => .memRead (a + k)) ++ [.busGather width]
  | none, none => []

/-! ### One transaction -/

/-- The transactions that an operation stands for are put first in the host's list. -/
def expandTo (ops : List HostOp) (s : State) : State := { s with host := ops ++ s.host }

/-- One host transaction, already taken off the list (R73). -/
def hostOp (op : HostOp) (s : State) : Host.Outcome State Fault Refusal :=
  match op with
  | .regWrite offset width v => .next (hostRegWrite offset width v s)
  | .regRead offset width => .next (hostRegRead offset width s)
  | .memWrite a b => hostMemWrite a b s
  | .memRead a => hostMemRead a s
  | .run op => .next (expandTo (expandRun op s.regs) s)
  | .poll => .next (pollOnce s)
  | .ack => .next (expandTo [.regWrite RegName.status.offset .w32 0x2] s)
  | .srst => .next (expandTo [.regWrite RegName.ctrl.offset .w32 0x2] s)
  | .busStore addr width v => .next (expandTo (bridgeStore s.params addr width v) s)
  | .busLoad addr width => .next (expandTo (bridgeLoad s.params addr width) s)
  | .busGather width => .next (gatherBytes width s)
  | .hardReset => .next (hardReset s)

/-- The host's move: its next transaction; with none, the core does nothing (R73, R318). -/
def hostStep (s : State) : Host.Outcome State Fault Refusal :=
  match s.host with
  | [] => .next s
  | op :: ops => hostOp op { s with host := ops }

end Sys2Proof.Machine
end

