-- ==== Sys2Proof/Machine/Stages.lean ====
section
/-! DEFINITION. The internal run of a command: its stages, one move of a stage at a time, and what follows each (R5, R45, R46). -/
namespace Sys2Proof.Machine
open Sys2Proof

/-- What every command starts its internal run from: position counters 0 and empty tables (R45,
R47). -/
def freshInternals : Internals where
  enc := ⟨0, []⟩
  tok := ⟨[], 0, [], false⟩
  chunk := chunkStart []
  freq := List.replicate 256 0
  arena := []
  queue := []
  nextSeq := 0
  codes := []
  bits := bitStart [] [] false
  scratch := []

/-! ### LZSS encoder (R174) -/

/-- What the LZSS encoder reads: the scanlines in scratch for CONT_WRITE, else SRC (R183, R245, R286). -/
def encoderInput (s : State) : List Byte :=
  if s.regs.op = 0x7 then s.internals.scratch else memRead s (srcRegion s.regs)

/-- What follows the LZSS encoder: PACK goes on with the Huffman coder, the others complete. -/
def encoderEnd (s : State) : State :=
  let out := s.internals.enc.out
  if s.regs.op = 0x5 then
    match capacityCheck out.length s.params.scratchSize 3 with
    | .ok _ => { s with seq := .count, internals := { s.internals with scratch := out } }
    | .error e => complete s.regs.op (.error e) s
  else if s.regs.op = 0x7 then complete s.regs.op (finishContWrite s out) s
  else complete s.regs.op (finishLzssCompress s out) s

/-- One token of the LZSS encoder, or its end (R174). -/
def encoderStep (s : State) : State :=
  match encodeOne (encoderInput s) s.internals.enc with
  | some u => { s with internals := { s.internals with enc := u } }
  | none => encoderEnd s

/-! ### Huffman coder (R200 to R206) -/

/-- What the Huffman coder reads: the LZSS stream in scratch for PACK, else SRC (R212, R286). -/
def coderInput (s : State) : List Byte :=
  if s.regs.op = 0x5 then s.internals.scratch else memRead s (srcRegion s.regs)

/-- The frequency counter (R200). -/
def countStep (s : State) : State :=
  { s with seq := .leaves, internals := { s.internals with freq := freqTable (coderInput s) } }

/-- The leaves in the arena, and their indices in the queue's order (R201, R203). -/
def leavesStep (s : State) : State :=
  let leaves := arenaLeaves s.internals.freq
  { s with
    seq := .build
    internals :=
      { s.internals with
        arena := leaves
        queue := (List.range leaves.length).foldr (enqueueIndex leaves) []
        nextSeq := leaves.length } }

/-- One merge of the tree builder, or its end (R203). -/
def mergeOnce (x : Internals) : Option Internals :=
  match x.queue with
  | i :: j :: queue =>
    let arena := x.arena ++ [mergedNode x.arena i j x.nextSeq]
    some
      { x with
        arena := arena
        queue := enqueueIndex arena x.arena.length queue
        nextSeq := x.nextSeq + 1 }
  | _ => none

/-- The tree builder's move (R203). -/
def buildStep (s : State) : State :=
  match mergeOnce s.internals with
  | some x => { s with internals := x }
  | none => { s with seq := .codes }

/-- The code generator (R202, R204). -/
def codesStep (s : State) : State :=
  { s with
    seq := .emit
    internals :=
      { s.internals with codes := arenaCodes s.internals.arena s.internals.queue } }

/-- The bitstream encoder and the end of the command (R206, R212, R286). -/
def emitStep (s : State) : State :=
  let bits := encodeBits s.internals.codes (coderInput s)
  if s.regs.op = 0x5 then complete s.regs.op (finishPack s bits s.internals.codes) s
  else complete s.regs.op (finishHuffEncode s bits s.internals.codes) s

/-! ### Huffman decoder (R209) -/

/-- What follows the bitstream decoder: UNPACK goes on with the token loop, HUFF_DECODE completes
(R213, R287). -/
def bitsEnd (s : State) (out : List Byte) (trunc : Bool) : State :=
  if s.regs.op = 0x6 then
    match afterUnpackBits s out trunc with
    | .ok u => { s with seq := .tokens, internals := { s.internals with tok := u, scratch := out } }
    | .error e => complete s.regs.op (.error e) s
  else complete s.regs.op (finishHuffDecode s out trunc) s

/-- One bit of the bitstream decoder, or its end (R209, R210). -/
def bitsStep (s : State) : State :=
  let u := s.internals.bits
  match u.rest with
  | b :: rest => { s with internals := { s.internals with bits := pastBit b rest u } }
  | [] => bitsEnd s u.out (u.trunc || !u.cand.isEmpty)

/-! ### Container parser, before its chunks (R246) -/

/-- The signature check: the parser goes on to the chunks, or the command ends (R246, R134). -/
def signatureStep (s : State) : State :=
  match passSignature s.internals.chunk with
  | .ok u => { s with seq := .chunks, internals := { s.internals with chunk := u } }
  | .error e => complete s.regs.op (.error e) s

/-! ### Stages -/

/-- One move of a stage that performs no instruction. The token and chunk stages, and an idle
engine, have none. -/
def stageStep (s : State) : State :=
  match s.seq with
  | .idle => s
  | .tokens => s
  | .chunks => s
  | .signature => signatureStep s
  | .encoder => encoderStep s
  | .count => countStep s
  | .leaves => leavesStep s
  | .build => buildStep s
  | .codes => codesStep s
  | .emit => emitStep s
  | .bits => bitsStep s

/-- The rest of the command after its token loop, by CMD.OP (R184, R255, R287). -/
def finishTokens (s : State) (trunc : Bool) : CmdResult :=
  if s.regs.op = 0x6 then finishUnpack s s.internals.tok.out trunc
  else if s.regs.op = 0x8 then
    finishContRead s s.internals.chunk.hdr s.internals.tok.out trunc
  else finishLzssDecompress s s.internals.tok.out trunc

/-! ### The first move of an internal run: the checks, then the first stage is loaded -/

/-- The LZSS encoder loaded, its position 0 (R45), or the error before it. -/
def enterEncoder (r : Except CmdError Unit) (s : State) : State :=
  match r with
  | .ok _ => { s with seq := .encoder, internals := freshInternals }
  | .error e => complete s.regs.op (.error e) s

/-- The Huffman coder entered, or the error before it. -/
def enterCoder (r : Except CmdError Unit) (s : State) : State :=
  match r with
  | .ok _ => { s with seq := .count, internals := freshInternals }
  | .error e => complete s.regs.op (.error e) s

/-- The Huffman decoder loaded, or the error before it. -/
def enterBits (r : Except CmdError BitUnit) (s : State) : State :=
  match r with
  | .ok u => { s with seq := .bits, internals := { freshInternals with bits := u } }
  | .error e => complete s.regs.op (.error e) s

/-- The scanlines in scratch and the LZSS encoder loaded, or the external compressor done in this
one move (R13, R242), or the error before it. -/
def enterRows (r : Except CmdError (List Byte)) (s : State) : State :=
  match r with
  | .ok rows =>
    if s.regs.contLzss then
      { s with
        seq := .encoder
        internals := { freshInternals with scratch := rows } }
    else complete s.regs.op (finishContWrite s (compressRows false rows)) s
  | .error e => complete s.regs.op (.error e) s

/-- The token decoder loaded, or the error before it. -/
def enterTokens (r : Except CmdError TokenUnit) (s : State) : State :=
  match r with
  | .ok u => { s with seq := .tokens, internals := { freshInternals with tok := u } }
  | .error e => complete s.regs.op (.error e) s

/-- The container parser loaded, its index 0 (R45), or the error before it. -/
def enterParser (r : Except CmdError ChunkUnit) (s : State) : State :=
  match r with
  | .ok u => { s with seq := .signature, internals := { freshInternals with chunk := u } }
  | .error e => complete s.regs.op (.error e) s

/-- The first move of the internal run of a command that has stages (R45, R46). NOP, CRC32 and the
reserved opcodes have none. Log 4. -/
def beginInternal (s : State) : Option State :=
  match s.seq, s.regs.op.toNat with
  | .idle, 1 => some (enterEncoder (checkSrcDst s) s)
  | .idle, 2 => some (enterTokens (startLzssDecompress s) s)
  | .idle, 3 => some (enterCoder (checkSrcDstAuxOut s) s)
  | .idle, 4 => some (enterBits (startHuffDecode s) s)
  | .idle, 5 => some (enterEncoder (checkSrcDst s) s)
  | .idle, 6 => some (enterBits (startUnpack s) s)
  | .idle, 7 => some (enterRows (startContWrite s) s)
  | .idle, 8 => some (enterParser (startContRead s) s)
  | _, _ => none

end Sys2Proof.Machine
end

