-- ==== Sys2Proof/Machine/Engine.lean ====
section
/-! DEFINITION. The engine's move and the turns of the agents (R13, R131, R309, R352). -/
namespace Sys2Proof.Machine
open Sys2Proof

/-- The engine's move: perform the instruction at hand, end the stage whose stream is at its end, or
go on with a stage that performs no instruction (R131, R174, R177, R209, R247). -/
def engineStep (s : State) : Host.Outcome State Fault Refusal :=
  match fetch s with
  | .instr i => exec i s
  | .tokensEnd trunc => .next (complete s.regs.op (finishTokens s trunc) s)
  | .containerEnd => .next (chunksEnd true s)
  | .stage => .next (stageStep s)

/-- The engine's move in internal order (R5, R45, R69). -/
def engineUnitStep (s : State) : Host.Outcome State Fault Refusal :=
  match beginInternal s with
  | some t => .next t
  | none => engineStep s

/-- One agent's move; an engine that is not BUSY has none (R131, R318). -/
def turnStep (t : Turn) (s : State) : Host.Outcome State Fault Refusal :=
  match t with
  | .host => hostStep s
  | .engine => if s.regs.busy then engineStep s else .next s
  | .engineUnit => if s.regs.busy then engineUnitStep s else .next s

/-- One transition (R309): of the agent whose turn it is; with no turn listed the engine moves while
BUSY = 1, so that every accepted command completes (R352), and the host otherwise. Log 4. -/
def runStep (s : State) : Host.Outcome State Fault Refusal :=
  match s.turns with
  | t :: ts => turnStep t { s with turns := ts }
  | [] => if s.regs.busy then engineStep s else hostStep s

end Sys2Proof.Machine
end

