-- ==== Sys2Proof/Safety.lean ====
section
/-! DEFINITION. The terms that claims use: the invariant of every step, frames, and when a command is about to run. -/
namespace Sys2Proof.Machine
open Sys2Proof

/-- What every step keeps. LMEM's canonical form; TRUNC and ERR never both non-zero (R25); no
information without an error (R27); a defined error code (R300); no output length after an error
(R35, R36, R302); nothing of the last outcome while BUSY (R130, R349); an internal stage only
inside a command that has it (R45, R46); a CONT_READ past its chunk loop has its metadata
(R255); the arena within 511 nodes and the candidate code within 255 bits (R46); unspecified LMEM
belongs to a past event (log 2). -/
structure Invariant (s : State) : Prop where
  lmem : Memory.wf s.params.lmemSize s.lmem = true
  truncNoErr : s.regs.trunc = true → s.regs.err = 0
  infoOfErr : s.regs.err = 0 → s.regs.errInfo = 0
  errDefined : s.regs.err.toNat ≤ 0x0E
  errNoOutput : s.regs.err ≠ 0 → s.regs.outLen = 0 ∧ s.regs.auxOutLen = 0
  busyClean : s.regs.busy = true → s.regs.done = false ∧ s.regs.trunc = false ∧ s.regs.err = 0
  stageBusy : s.seq ≠ .idle → s.regs.busy = true
  tokensOp : s.seq = .tokens → s.regs.op = 0x2 ∨ s.regs.op = 0x6 ∨ s.regs.op = 0x8
  signatureOp : s.seq = .signature → s.regs.op = 0x8
  chunksOp : s.seq = .chunks → s.regs.op = 0x8
  encoderOp : s.seq = .encoder → s.regs.op = 0x1 ∨ s.regs.op = 0x5 ∨ s.regs.op = 0x7
  coderOp : s.seq ∈ [Sequencer.count, .leaves, .build, .codes, .emit] →
    s.regs.op = 0x3 ∨ s.regs.op = 0x5
  bitsOp : s.seq = .bits → s.regs.op = 0x4 ∨ s.regs.op = 0x6
  tokensHdr : s.seq = .tokens → s.regs.op = 0x8 → s.internals.chunk.hdr.isSome = true
  arenaRoom : s.seq = .build →
    s.internals.arena.length + s.internals.queue.length ≤ 512 ∧
      (s.internals.queue = [] → s.internals.arena = [])
  arenaBound : s.seq ∈ [Sequencer.codes, .emit] → s.internals.arena.length ≤ 511
  candBound : s.seq = .bits → s.internals.bits.cand.length ≤ 255
  epochPast : s.lmemEpoch < s.freeCtr

/-- A command has been accepted, none of it has been done, and the engine moves next (R130, R131). -/
abbrev commandPending (s : State) : Prop :=
  s.regs.busy = true ∧ s.seq = .idle ∧ s.turns = []

/-- What no engine move touches: parameters, the host's lists, the agents' turns. -/
abbrev hostSideSame (s t : State) : Prop :=
  t.params = s.params ∧ t.lmemEpoch = s.lmemEpoch ∧ t.host = s.host ∧ t.received = s.received ∧
    t.turns = s.turns

/-- Every byte of LMEM reads as before. -/
def lmemSame (s t : State) : Prop := ∀ a, lmemByte t a = lmemByte s a

/-- The bytes at `addr` read as `bytes`; every other byte of LMEM reads as before. -/
def lmemHolds (s t : State) (addr : Nat) (bytes : List Byte) : Prop :=
  ∀ a, lmemByte t a =
    if addr ≤ a ∧ a < addr + bytes.length then bytes.getD (a - addr) 0 else lmemByte s a

/-- Two output sequences at `addr` and `addr2`; every other byte of LMEM reads as before. -/
def lmemHolds2 (s t : State) (addr : Nat) (bytes : List Byte) (addr2 : Nat) (bytes2 : List Byte) :
    Prop :=
  ∀ a, lmemByte t a =
    if addr2 ≤ a ∧ a < addr2 + bytes2.length then bytes2.getD (a - addr2) 0
    else if addr ≤ a ∧ a < addr + bytes.length then bytes.getD (a - addr) 0
    else lmemByte s a

/-- SRC and DST are in range and do not overlap (R136, R137). -/
abbrev srcDstFit (s : State) : Prop :=
  (srcRegion s.regs).inRange s.params.lmemSize = true ∧
    (dstRegion s.regs).inRange s.params.lmemSize = true ∧
    (srcRegion s.regs).overlaps (dstRegion s.regs) = false

/-- AUX is in range and does not overlap DST (R136, R137). -/
abbrev auxFits (s : State) : Prop :=
  (auxRegion s.regs).inRange s.params.lmemSize = true ∧
    (auxRegion s.regs).overlaps (dstRegion s.regs) = false

/-- The bytes of the SRC region. -/
def srcBytes (s : State) : List Byte := memRead s (srcRegion s.regs)

/-- The bytes of the AUX region. -/
def auxBytes (s : State) : List Byte := memRead s (auxRegion s.regs)

/-- Every byte of LMEM outside the regions reads as before. -/
def lmemSameOutside (s t : State) (regions : List Region) : Prop :=
  ∀ a, (∀ r ∈ regions, ¬(r.addr ≤ a ∧ a < r.addr + r.len)) → lmemByte t a = lmemByte s a

/-- The registers that every successful or truncated completion leaves (R131, R133, R135): only the
status and the two output lengths change. -/
def doneRegs (r : Regs) (trunc : Bool) (outLen auxOutLen : Nat) : Regs :=
  { r with
    busy := false
    done := true
    trunc := trunc
    err := 0
    errInfo := 0
    outLen := BitVec.ofNat 32 outLen
    auxOutLen := BitVec.ofNat 32 auxOutLen }

/-- The registers that every error completion leaves (R131, R134). -/
def failedRegs (r : Regs) (code : Byte) (info : Nat) : Regs :=
  { r with
    busy := false
    done := true
    trunc := false
    err := code
    errInfo := BitVec.ofNat 32 info
    outLen := 0
    auxOutLen := 0 }

/-- The instruction answers a next state in which the engine is idle, the registers are `regs`, LMEM
holds `bytes` at `addr` and is otherwise as it was, and the host's side is as it was. -/
def completesWith (i : Instr) (s : State) (regs : Regs) (addr : Nat) (bytes : List Byte) : Prop :=
  ∃ t, exec i s = .next t ∧ t.seq = .idle ∧ t.regs = regs ∧ lmemHolds s t addr bytes ∧
    hostSideSame s t

/-- The instruction answers a next state that reports the error, with LMEM as it was (R134, R143). -/
def failsEarly (i : Instr) (s : State) (code : Byte) (info : Nat) : Prop :=
  ∃ t, exec i s = .next t ∧ t.seq = .idle ∧ t.regs = failedRegs s.regs code info ∧ lmemSame s t ∧
    hostSideSame s t

/-- The instruction answers a next state that reports the error, with LMEM as it was outside the
regions (R134, R143). -/
def failsLate (i : Instr) (s : State) (code : Byte) (info : Nat) (regions : List Region) : Prop :=
  ∃ t, exec i s = .next t ∧ t.seq = .idle ∧ t.regs = failedRegs s.regs code info ∧
    lmemSameOutside s t regions ∧ hostSideSame s t

/-- The output regions of the command that CMD.OP selects (R141): the DST region for the commands
with a primary output, and the AUX region too for HUFF_ENCODE. -/
def runningOutputs (r : Regs) : List Region :=
  if r.op = 0x3 then [dstRegion r, auxRegion r]
  else if 0x1#4 ≤ r.op ∧ r.op ≤ 0x8#4 then [dstRegion r]
  else []

/-- The state with the host's transaction `op` next and the host to move. -/
def hostToDo (s : State) (op : HostOp) (ops : List HostOp) (ts : List Turn) : State :=
  { s with turns := .host :: ts, host := op :: ops }

/-- The state after a host transaction that changed nothing else. -/
def hostDone (s : State) (ops : List HostOp) (ts : List Turn) : State :=
  { s with turns := ts, host := ops }

/-- The 16 commands (R92, R93) with their opcodes. -/
def allCommands : List (BitVec 4 × Instr) :=
  [(0x0, .nop), (0x1, .lzssCompress), (0x2, .lzssDecompress), (0x3, .huffEncode),
    (0x4, .huffDecode), (0x5, .pack), (0x6, .unpack), (0x7, .contWrite), (0x8, .contRead),
    (0x9, .crc32), (0xA, .reservedCmdA), (0xB, .reservedCmdB), (0xC, .reservedCmdC),
    (0xD, .reservedCmdD), (0xE, .reservedCmdE), (0xF, .reservedCmdF)]

end Sys2Proof.Machine
end

