-- ==== Sys2Proof/Certificates/Slice0/Obligations.lean ====
section
/-! DEFINITION. The statements for the provers: properties of the core, each citing the rules of spec/ it rests on. -/

open Sys2Proof Sys2Proof.Machine

/-- Decoding the encoding of any well-formed instruction gives it back, whatever bytes follow it in its stream (R91, R94, R96, R97, R104, R105, R110). -/
def Obligations.EncodedInstrDecodesBack : Prop :=
  ∀ (i : Instr) (rest : List Byte), i.wellFormed = true →
    decode ((encode i).followedBy rest) = .ok i

/-- What the token and chunk decoders read is well-formed and its encoding is a leading part of the bytes read (R94, R96, R97, R104, R105). -/
def Obligations.DecodedStreamReencodes : Prop :=
  ∀ (bytes : List Byte) (i : Instr),
    (decode (.token bytes) = .ok i →
      i.wellFormed = true ∧ ∃ rest, (encode i).followedBy rest = .token bytes) ∧
    (decode (.chunk bytes) = .ok i →
      i.wellFormed = true ∧ ∃ rest, (encode i).followedBy rest = .chunk bytes)

/-- Words written out from the spec decode to the instructions they stand for (R91, R92, R93, R95, R96, R97, R108). -/
def Obligations.SpecWordsDecode : Prop :=
  decode (.command 0x00000005) = .ok .pack ∧
    decode (.command 0xFFFFFFFA) = .ok .reservedCmdA ∧
    decode (.token [0x00, 0x7F]) = .ok (.lit 0x7F) ∧
    decode (.token [0x01, 0xFF, 0xF0]) = .ok (.matchToken 4095 0) ∧
    decode (.token [0x2B]) = .ok (.reservedTag20 0x0B) ∧
    decode (.chunk [0x00, 0x00, 0x00, 0x00, 0x49, 0x45, 0x4E, 0x44, 0xAE, 0x42, 0x60, 0x82]) =
      .ok (.chunkIend [] 0xAE426082)

/-- PackBits puts the first bit highest and pads with zeros; UnpackBits reads it back and ignores the rest (R152, R153). -/
def Obligations.BitStringsPackAndUnpack : Prop :=
  (∀ bits : Bits, (packBits bits).length = (bits.length + 7) / 8 ∧
      ∀ j k, j < (bits.length + 7) / 8 → k < 8 →
        ((packBits bits).getD j 0).getLsbD (7 - k) = bits.getD (8 * j + k) false) ∧
    (∀ (s : List Byte) (n : Nat), n ≤ 8 * s.length → (unpackBits s n).length = n ∧
      ∀ j k, k < 8 → 8 * j + k < n →
        (unpackBits s n).getD (8 * j + k) false = (s.getD j 0).getLsbD (7 - k)) ∧
    ∀ b : Bits, unpackBits (packBits b) b.length = b

/-- The check values of Crc32 (R156). -/
def Obligations.CrcCheckValues : Prop :=
  crc32 [] = 0x00000000 ∧
    crc32 [0x41] = 0xD3D99E8B ∧
    crc32 [0x31, 0x32, 0x33, 0x34, 0x35, 0x36, 0x37, 0x38, 0x39] = 0xCBF43926 ∧
    crc32 [0x49, 0x45, 0x4E, 0x44] = 0xAE426082

/-- CandLen counts equal bytes until a difference, the end of the input or 18 bytes (R171). -/
def Obligations.CandidateLengthIsCommonRun : Prop :=
  ∀ (d : List Byte) (p i : Nat), i < p → p ≤ d.length →
    candLen d p i ≤ 18 ∧ p + candLen d p i ≤ d.length ∧
      (∀ j, j < candLen d p i → d.getD (i + j) 0 = d.getD (p + j) 0) ∧
      (candLen d p i = 18 ∨ p + candLen d p i = d.length ∨
        d.getD (i + candLen d p i) 0 ≠ d.getD (p + candLen d p i) 0)

/-- The match finder returns the longest candidate of the window and, among equals, the smallest start (R172). -/
def Obligations.FindMatchIsLongestEarliest : Prop :=
  ∀ (d : List Byte) (p : Nat),
    (∀ i, p - 4096 ≤ i → i < p → candLen d p i ≤ (findMatch d p).1) ∧
    ((findMatch d p).1 = 0 → findMatch d p = (0, 0)) ∧
    (0 < (findMatch d p).1 → ∃ i, p - 4096 ≤ i ∧ i < p ∧ (findMatch d p).2 = p - i ∧
      candLen d p i = (findMatch d p).1 ∧
      ∀ i', p - 4096 ≤ i' → i' < i → candLen d p i' < (findMatch d p).1)

/-- A token is the match found when it is long enough and its offset fits, else the literal; emitted matches point back inside the output (R173, R185). -/
def Obligations.TokenIsMatchOrLiteralFallback : Prop :=
  ∀ (d : List Byte) (p : Nat), p < d.length →
    (3 ≤ (findMatch d p).1 ∧ (findMatch d p).2 ≤ 4095 →
      ∃ offset lenField, tokenAt d p = .copy offset lenField ∧
        offset.toNat = (findMatch d p).2 ∧ lenField.toNat + 3 = (findMatch d p).1 ∧
        1 ≤ offset.toNat ∧ offset.toNat ≤ p) ∧
    (¬(3 ≤ (findMatch d p).1 ∧ (findMatch d p).2 ≤ 4095) → tokenAt d p = .lit (d.getD p 0))

/-- LZSS decompression inverts compression on every input (R185, R174, R177). -/
def Obligations.LzssRoundTrip : Prop :=
  ∀ x : List Byte, lzssDecompress (lzssCompress x) = .ok (x, false)

/-- The token stream is never longer than twice the input, and exactly twice only when every token is a literal (R185). -/
def Obligations.LzssOutputAtMostDouble : Prop :=
  ∀ x : List Byte, (lzssCompress x).length ≤ 2 * x.length ∧
    ((lzssCompress x).length = 2 * x.length ↔
      ∀ t ∈ tokensFrom x x.length 0, ∃ b, t = .lit b)

/-- The code table has one code for each value present, in ascending order; codes are non-empty, short enough, complete and prefix-free (R201, R205, R214). -/
def Obligations.HuffmanTableCodesArePrefixFree : Prop :=
  ∀ x : List Byte,
    let ct := (huffmanEncode x).2
    (∀ v, v ∈ ct.map Prod.fst ↔ v ∈ x) ∧
    (ct.map Prod.fst).Pairwise (fun a b => a.toNat < b.toNat) ∧
    (∀ e ∈ ct, 1 ≤ e.2.length ∧ e.2.length ≤ 255 ∧ (2 ≤ ct.length → e.2.length ≤ ct.length - 1)) ∧
    (∀ e ∈ ct, ∀ e' ∈ ct, e.2 <+: e'.2 → e = e') ∧
    (2 ≤ ct.length → (ct.map (fun e => (1 / 2 : ℚ) ^ e.2.length)).sum = 1)

/-- Decoding the Huffman bits with the deserialized table gives the input back (R206, R207, R208, R209, R214). -/
def Obligations.HuffmanRoundTrip : Prop :=
  ∀ x : List Byte,
    (∃ table, deserializeTable (serializeTable (huffmanEncode x).2) = .ok table ∧
      huffmanDecode (huffmanEncode x).1 table = (x, false)) ∧
    (huffmanEncode x).1.length =
      (x.map (fun v => (codeOf (huffmanEncode x).2 v).length)).sum

/-- Unpacking a packed archive gives the input back, for every magic tag (R280, R281, R282, R284, R285, R288). -/
def Obligations.PackUnpackRoundTrip : Prop :=
  ∀ (magic : Word) (x : List Byte), (huffmanEncode (lzssCompress x)).1.length < 2 ^ 32 →
    unpackArchive magic (packArchive magic x) = .ok (x, false)

/-- The archive header is checked in order: magic, twelve bytes, table length (R282). -/
def Obligations.BadArchiveHeadersRefused : Prop :=
  ∀ (magic : Word) (a : List Byte),
    (a.length < 4 ∨ a.take 4 ≠ be32 magic →
      unpackArchive magic a = .error (lateErr .badMagic 0)) ∧
    (∀ rest, a = be32 magic ++ rest →
      (a.length < 12 → unpackArchive magic a = .error (lateErr .badArchive 1)) ∧
      (12 ≤ a.length → a.length < 12 + (u32At a 8).toNat →
        unpackArchive magic a = .error (lateErr .badArchive 2)) ∧
      (12 + (u32At a 8).toNat ≤ a.length →
        archiveHeader magic a = .ok ((u32At a 4).toNat, (u32At a 8).toNat)))

/-- Reading a written container gives the dimensions and the pixels back, with either compressor (R244, R247, R253, R254, R256, R7). -/
def Obligations.ContainerRoundTrip : Prop :=
  ∀ (contLzss : Bool) (w h : Word) (x : List Byte),
    w ≠ 0 → h ≠ 0 → x.length = 3 * w.toNat * h.toNat →
    (compressRows contLzss (filterRows x w.toNat h.toNat)).length < 2 ^ 32 →
    (∃ u, containerRead (containerWrite contLzss w h x) = .ok (u, false) ∧
      u.hdr = some ⟨w, h, 0x08, 0x02, if contLzss then 0x01 else 0x00, 0x00, 0x00⟩ ∧
      u.payload = compressRows contLzss (filterRows x w.toNat h.toNat)) ∧
    (contLzss = true →
      lzssDecompress (compressRows true (filterRows x w.toNat h.toNat)) =
        .ok (filterRows x w.toNat h.toNat, false)) ∧
    (contLzss = false →
      Config.ext.decompress (compressRows false (filterRows x w.toNat h.toNat)) =
        some (filterRows x w.toNat h.toNat)) ∧
    unfilter (filterRows x w.toNat h.toNat) w.toNat h.toNat = .ok (x, false)

/-- Every step keeps the invariant of the core (R25, R27, R35, R46, R60, R61, R130, R134, R143, R300, R302). The clauses on lmemEpoch and on the stages are about the model's own fields (log 2, 4, 9). -/
def Obligations.StepKeepsInvariant : Prop :=
  ∀ s t : State, Invariant s → step s = .next t → Invariant t

/-- The reset state meets the invariant (R341, R343). -/
def Obligations.ResetMeetsInvariant : Prop :=
  Invariant State.reset

/-- No step changes an implementation parameter (R6, R60, R64). That State carries the parameters is the model's choice (log 1). -/
def Obligations.StepKeepsParameters : Prop :=
  ∀ s t : State, step s = .next t → t.params = s.params

/-- A step of the engine runs the instruction decoded from CMD, from the token stream or from the container (R131, R177, R247). That the engine takes the step when the turns list is empty (log 4), and that one token or one chunk is a step of its own (log 9), is the model's choice. -/
def Obligations.StepRunsDecodedInstruction : Prop :=
  ∀ (s : State) (i : Instr), s.regs.busy = true → s.turns = [] →
    (s.seq = .idle → decode (.command (cmdWord s.regs)) = .ok i → step s = exec i s) ∧
    (s.seq = .tokens → decode (.token s.internals.tok.rest) = .ok i → step s = exec i s) ∧
    (s.seq = .chunks → decode (.chunk s.internals.chunk.rest) = .ok i → step s = exec i s)

/-- Running a command stage by stage, token, chunk, merge and bit at a time, ends in the very state of its atomic step (R5, R45, R46, R47, R131, R174, R177, R203, R209, R247). The turns list and the size of an internal move are the model's choice (log 4, 9). -/
def Obligations.InternalRunMatchesAtomicStep : Prop :=
  ∀ s : State, commandPending s →
    ∃ n, Sys2Proof.core.run n { s with turns := [.engineUnit] } = step s

/-- At the end of its token stream LZSS_DECOMPRESS completes, truncated exactly when the last token is cut short (R177, R182, R184). That the end of the loop is a step of its own (log 9), and that the engine takes it when the turns list is empty (log 4), is the model's choice; at a token boundary TRUNC is the indicator the decoder was loaded with, false for LZSS_DECOMPRESS. -/
def Obligations.TokenStreamEndCompletesDecompression : Prop :=
  ∀ (s : State) (trunc : Bool), s.regs.busy = true → s.turns = [] → s.seq = .tokens → s.regs.op = 0x2 →
    s.regs.dstAddr.toNat + s.regs.dstCap.toNat ≤ s.params.lmemSize →
    s.internals.tok.out.length ≤ s.regs.dstCap.toNat →
    (s.internals.tok.rest = [] ∧ trunc = s.internals.tok.trunc ∨
      s.internals.tok.rest = [0x00] ∧ trunc = true ∨
      (∃ more, s.internals.tok.rest = 0x01 :: more ∧ more.length < 2) ∧ trunc = true) →
    ∃ t, step s = .next t ∧ t.seq = .idle ∧
      t.regs = doneRegs s.regs trunc s.internals.tok.out.length 0 ∧
      lmemHolds s t s.regs.dstAddr.toNat s.internals.tok.out ∧ hostSideSame s t

/-- No command reads an internal table, counter or scratch byte left by anything before it (R46, R47, R49). -/
def Obligations.CommandsIgnoreInternalState : Prop :=
  ∀ c ∈ allCommands, ∀ (s : State) (x : Internals),
    exec c.2 { s with internals := x } = exec c.2 s

/-- Every command step ends the command: BUSY 0, DONE 1, TRUNC and an error never both (R131, R133, R134, R135, R307). -/
def Obligations.EveryCommandCompletes : Prop :=
  ∀ c ∈ allCommands, ∀ s : State, ∃ t, exec c.2 s = .next t ∧
    t.regs.busy = false ∧ t.regs.done = true ∧ t.seq = .idle ∧ hostSideSame s t ∧
    (t.regs.trunc = true → t.regs.err = 0) ∧ (t.regs.err = 0 → t.regs.errInfo = 0) ∧
    t.regs.ie = s.regs.ie ∧ t.regs.op = s.regs.op ∧ t.regs.contLzss = s.regs.contLzss ∧
    t.regs.srcAddr = s.regs.srcAddr ∧ t.regs.srcLen = s.regs.srcLen ∧
    t.regs.dstAddr = s.regs.dstAddr ∧ t.regs.dstCap = s.regs.dstCap ∧
    t.regs.auxAddr = s.regs.auxAddr ∧ t.regs.auxLen = s.regs.auxLen ∧
    (c.2 ≠ .huffEncode → t.regs.bitLen = s.regs.bitLen) ∧
    (c.2 ≠ .crc32 → t.regs.result = s.regs.result) ∧
    (c.2 ≠ .contRead → t.regs.imgWidth = s.regs.imgWidth ∧ t.regs.imgHeight = s.regs.imgHeight ∧
      t.regs.metaWord = s.regs.metaWord ∧ t.regs.metaIl = s.regs.metaIl)

/-- A failed command changes only STATUS, ERR_INFO, the output lengths and, after a late error, its output regions (R134, R140, R143, R302, R310). -/
def Obligations.FailedCommandFrame : Prop :=
  ∀ c ∈ allCommands, ∀ s t : State, exec c.2 s = .next t → t.regs.err ≠ 0 →
    t.regs = failedRegs s.regs t.regs.err t.regs.errInfo.toNat ∧
    lmemSameOutside s t
      (if c.2 = .huffEncode then [dstRegion s.regs, auxRegion s.regs] else [dstRegion s.regs]) ∧
    (t.regs.err = 0x01 ∨ t.regs.err = 0x02 ∨ (c.2 = .contWrite ∧ t.regs.err = 0x0C) →
      lmemSame s t)

/-- Range and overlap checks fail in the stated order with ERR_RANGE and their number, LMEM unchanged (R136, R137). -/
def Obligations.RegionChecksInOrder : Prop :=
  ∀ (s : State) (i : Instr),
    i ∈ [Instr.lzssCompress, .lzssDecompress, .huffEncode, .huffDecode, .pack, .unpack, .contWrite,
      .contRead] →
    let size := s.params.lmemSize
    let aux := i = .huffEncode ∨ i = .huffDecode
    let inLmem := fun (a n : Word) => a.toNat + n.toNat ≤ size
    let share := fun (a n b m : Word) => 0 < n.toNat ∧ 0 < m.toNat ∧
      a.toNat < b.toNat + m.toNat ∧ b.toNat < a.toNat + n.toNat
    let srcIn := inLmem s.regs.srcAddr s.regs.srcLen
    let dstIn := inLmem s.regs.dstAddr s.regs.dstCap
    let auxIn := aux → inLmem s.regs.auxAddr s.regs.auxLen
    let srcDst := share s.regs.srcAddr s.regs.srcLen s.regs.dstAddr s.regs.dstCap
    let auxDst := share s.regs.auxAddr s.regs.auxLen s.regs.dstAddr s.regs.dstCap
    let srcAux := share s.regs.srcAddr s.regs.srcLen s.regs.auxAddr s.regs.auxLen
    (¬srcIn → failsEarly i s 0x02 1 ∧ failsEarly .crc32 s 0x02 1) ∧
    (srcIn → ¬dstIn → failsEarly i s 0x02 2) ∧
    (srcIn → dstIn → ¬auxIn → failsEarly i s 0x02 3) ∧
    (srcIn → dstIn → auxIn → srcDst → failsEarly i s 0x02 4) ∧
    (srcIn → dstIn → auxIn → ¬srcDst → aux → auxDst → failsEarly i s 0x02 5) ∧
    (srcIn → dstIn → auxIn → ¬srcDst → ¬auxDst → i = .huffEncode → srcAux →
      failsEarly i s 0x02 6)

/-- An output or intermediate that does not fit ends the command with ERR_CAPACITY and its number (R138, R139, R183, R184, R212, R213, R245, R255, R286, R287). -/
def Obligations.CapacityErrorsReported : Prop :=
  ∀ s : State, srcDstFit s →
    let d := srcBytes s
    let cap := s.regs.dstCap.toNat
    let scratch := s.params.scratchSize
    let archive := archiveOf s.params.archiveMagic (lzssCompress d)
    let packed := packBits (huffmanEncode d).1
    let table := serializeTable (huffmanEncode d).2
    let rows := filterRows d s.regs.imgWidth.toNat s.regs.imgHeight.toNat
    let stream := compressRows s.regs.contLzss rows
    let dst := [dstRegion s.regs]
    (cap < (lzssCompress d).length → failsLate .lzssCompress s 0x03 1 dst) ∧
    (∀ out trunc, lzssDecompress d = .ok (out, trunc) → cap < out.length →
      failsLate .lzssDecompress s 0x03 1 dst) ∧
    (auxFits s → (srcRegion s.regs).overlaps (auxRegion s.regs) = false →
      (cap < packed.length →
        failsLate .huffEncode s 0x03 1 [dstRegion s.regs, auxRegion s.regs]) ∧
      (packed.length ≤ cap → s.regs.auxLen.toNat < table.length →
        failsLate .huffEncode s 0x03 2 [dstRegion s.regs, auxRegion s.regs])) ∧
    (auxFits s → ∀ entries, deserializeTable (auxBytes s) = .ok entries →
      cap < (huffmanDecode
        (unpackBits d (min s.regs.bitLen.toNat (8 * s.regs.srcLen.toNat))) entries).1.length →
      failsLate .huffDecode s 0x03 1 dst) ∧
    (scratch < (lzssCompress d).length → failsLate .pack s 0x03 3 dst) ∧
    ((lzssCompress d).length ≤ scratch → cap < archive.length → failsLate .pack s 0x03 1 dst) ∧
    (∀ tokens trunc, unpackStream s.params.archiveMagic d = .ok (tokens, trunc) →
      (scratch < tokens.length → failsLate .unpack s 0x03 3 dst) ∧
      (∀ out trunc', tokens.length ≤ scratch → lzssDecompress tokens = .ok (out, trunc') →
        cap < out.length → failsLate .unpack s 0x03 1 dst)) ∧
    (s.regs.imgWidth ≠ 0 → s.regs.imgHeight ≠ 0 →
      s.regs.srcLen.toNat = 3 * s.regs.imgWidth.toNat * s.regs.imgHeight.toNat →
      (scratch < rows.length ∨ scratch < stream.length → failsLate .contWrite s 0x03 3 dst) ∧
      (rows.length ≤ scratch → stream.length ≤ scratch → cap < 57 + stream.length →
        failsLate .contWrite s 0x03 1 dst)) ∧
    (∀ u trunc h, containerRead d = .ok (u, trunc) → u.hdr = some h →
      (scratch < u.payload.length → failsLate .contRead s 0x03 3 dst) ∧
      (∀ R trunc', u.payload.length ≤ scratch → s.regs.contLzss = true →
        lzssDecompress u.payload = .ok (R, trunc') →
        (scratch < R.length → failsLate .contRead s 0x03 3 dst) ∧
        (∀ out trunc'', R.length ≤ scratch →
          unfilter R h.width.toNat h.height.toNat = .ok (out, trunc'') → cap < out.length →
          failsLate .contRead s 0x03 1 dst)))

/-- CONT_WRITE refuses a zero dimension and a wrong pixel count before its stages, LMEM unchanged (R140, R245). -/
def Obligations.ImageParametersChecked : Prop :=
  ∀ s : State, srcDstFit s →
    (s.regs.imgWidth = 0 ∨ s.regs.imgHeight = 0 → failsEarly .contWrite s 0x0C 1) ∧
    (s.regs.imgWidth ≠ 0 → s.regs.imgHeight ≠ 0 →
      s.regs.srcLen.toNat ≠ 3 * s.regs.imgWidth.toNat * s.regs.imgHeight.toNat →
      failsEarly .contWrite s 0x0C 2)

/-- The first error of a command's stages is the command's error (R140, R184, R213, R254, R255, R287, R306). -/
def Obligations.StageErrorsReported : Prop :=
  ∀ (s : State) (e : CmdError), srcDstFit s →
    let dst := [dstRegion s.regs]
    (lzssDecompress (srcBytes s) = .error e →
      failsLate .lzssDecompress s e.code.toByte e.info dst) ∧
    (auxFits s → deserializeTable (auxBytes s) = .error e →
      failsLate .huffDecode s e.code.toByte e.info dst) ∧
    (unpackStream s.params.archiveMagic (srcBytes s) = .error e →
      failsLate .unpack s e.code.toByte e.info dst) ∧
    (∀ stream trunc, unpackStream s.params.archiveMagic (srcBytes s) = .ok (stream, trunc) →
      stream.length ≤ s.params.scratchSize → lzssDecompress stream = .error e →
      failsLate .unpack s e.code.toByte e.info dst) ∧
    (containerRead (srcBytes s) = .error e →
      failsLate .contRead s e.code.toByte e.info dst) ∧
    (∀ u trunc, containerRead (srcBytes s) = .ok (u, trunc) → u.hdr.isSome = true →
      u.payload.length ≤ s.params.scratchSize → s.regs.contLzss = true →
      lzssDecompress u.payload = .error e →
      failsLate .contRead s e.code.toByte e.info dst) ∧
    (∀ u trunc h rows trunc', containerRead (srcBytes s) = .ok (u, trunc) → u.hdr = some h →
      u.payload.length ≤ s.params.scratchSize → s.regs.contLzss = true →
      lzssDecompress u.payload = .ok (rows, trunc') → rows.length ≤ s.params.scratchSize →
      unfilter rows h.width.toNat h.height.toNat = .error e →
      failsLate .contRead s e.code.toByte e.info dst)

/-- NOP completes with no error, both output lengths 0 and nothing else changed (R142). -/
def Obligations.NopCompletes : Prop :=
  ∀ s : State, completesWith .nop s (doneRegs s.regs false 0 0) 0 [] ∧
    statusWord (doneRegs Regs.reset false 0 0) = 0x00000002

/-- CRC32 writes RESULT with the CRC of SRC and checks SRC alone (R41, R157). -/
def Obligations.CrcCommandCompletes : Prop :=
  ∀ s : State, s.regs.srcAddr.toNat + s.regs.srcLen.toNat ≤ s.params.lmemSize →
    completesWith .crc32 s
      { doneRegs s.regs false 0 0 with result := crc32 (srcBytes s) } 0 []

/-- A reserved opcode completes at once with ERR_BAD_CMD and the opcode as information, and no other effect (R93). -/
def Obligations.ReservedOpcodesComplete : Prop :=
  ∀ (s : State) (op : BitVec 4), 0xA#4 ≤ op →
    failsEarly (decodeCommand (op.setWidth 32)) s 0x01 op.toNat ∧
    decodeCommand (op.setWidth 32) ∈ [Instr.reservedCmdA, .reservedCmdB, .reservedCmdC,
      .reservedCmdD, .reservedCmdE, .reservedCmdF]

/-- LZSS_COMPRESS writes the token stream of SRC to DST and its length to OUT_LEN (R133, R143, R183). -/
def Obligations.LzssCompressCompletes : Prop :=
  ∀ s : State, srcDstFit s → (lzssCompress (srcBytes s)).length ≤ s.regs.dstCap.toNat →
    completesWith .lzssCompress s
      (doneRegs s.regs false (lzssCompress (srcBytes s)).length 0)
      s.regs.dstAddr.toNat (lzssCompress (srcBytes s))

/-- LZSS_DECOMPRESS writes the decoded bytes to DST and reports truncation (R133, R135, R143, R184). -/
def Obligations.LzssDecompressCompletes : Prop :=
  ∀ (s : State) (out : List Byte) (trunc : Bool), srcDstFit s →
    lzssDecompress (srcBytes s) = .ok (out, trunc) → out.length ≤ s.regs.dstCap.toNat →
    completesWith .lzssDecompress s (doneRegs s.regs trunc out.length 0)
      s.regs.dstAddr.toNat out

/-- HUFF_ENCODE writes the packed bits to DST, the table to AUX and the bit count to BIT_LEN (R34, R36, R133, R143, R212). -/
def Obligations.HuffEncodeCompletes : Prop :=
  ∀ s : State, srcDstFit s → auxFits s →
    (srcRegion s.regs).overlaps (auxRegion s.regs) = false →
    let bits := (huffmanEncode (srcBytes s)).1
    let table := serializeTable (huffmanEncode (srcBytes s)).2
    (packBits bits).length ≤ s.regs.dstCap.toNat → table.length ≤ s.regs.auxLen.toNat →
    ∃ t, exec .huffEncode s = .next t ∧ t.seq = .idle ∧
      t.regs = { doneRegs s.regs false (packBits bits).length table.length with
        bitLen := BitVec.ofNat 32 bits.length } ∧
      lmemHolds2 s t s.regs.dstAddr.toNat (packBits bits) s.regs.auxAddr.toNat table ∧
      hostSideSame s t

/-- HUFF_DECODE decodes BIT_LEN bits of SRC, or all there are, with the table at AUX (R133, R135, R143, R213). -/
def Obligations.HuffDecodeCompletes : Prop :=
  ∀ (s : State) (table : List Entry), srcDstFit s → auxFits s →
    deserializeTable (auxBytes s) = .ok table →
    let present := 8 * s.regs.srcLen.toNat
    let bits := unpackBits (srcBytes s) (min s.regs.bitLen.toNat present)
    let r := huffmanDecode bits table
    r.1.length ≤ s.regs.dstCap.toNat →
    completesWith .huffDecode s
      (doneRegs s.regs (decide (present < s.regs.bitLen.toNat) || r.2) r.1.length 0)
      s.regs.dstAddr.toNat r.1

/-- PACK writes the archive of SRC to DST (R133, R143, R281, R286). -/
def Obligations.PackCompletes : Prop :=
  ∀ s : State, srcDstFit s →
    let stream := lzssCompress (srcBytes s)
    let bits := (huffmanEncode stream).1
    let table := serializeTable (huffmanEncode stream).2
    let archive := be32 s.params.archiveMagic ++ be32 (BitVec.ofNat 32 bits.length) ++
      be32 (BitVec.ofNat 32 table.length) ++ table ++ packBits bits
    stream.length ≤ s.params.scratchSize → archive.length ≤ s.regs.dstCap.toNat →
    completesWith .pack s (doneRegs s.regs false archive.length 0) s.regs.dstAddr.toNat archive

/-- UNPACK writes the decoded bytes to DST, its truncation the OR of its stages (R133, R135, R143, R285, R287, R306). -/
def Obligations.UnpackCompletes : Prop :=
  ∀ (s : State) (stream out : List Byte) (tr1 tr2 : Bool), srcDstFit s →
    unpackStream s.params.archiveMagic (srcBytes s) = .ok (stream, tr1) →
    stream.length ≤ s.params.scratchSize → lzssDecompress stream = .ok (out, tr2) →
    out.length ≤ s.regs.dstCap.toNat →
    completesWith .unpack s (doneRegs s.regs (tr1 || tr2) out.length 0)
      s.regs.dstAddr.toNat out

/-- CONT_WRITE writes the container of the SRC pixels to DST, 57 bytes more than the compressed stream (R133, R143, R244, R245). -/
def Obligations.ContWriteCompletes : Prop :=
  ∀ s : State, srcDstFit s → s.regs.imgWidth ≠ 0 → s.regs.imgHeight ≠ 0 →
    s.regs.srcLen.toNat = 3 * s.regs.imgWidth.toNat * s.regs.imgHeight.toNat →
    let rows := filterRows (srcBytes s) s.regs.imgWidth.toNat s.regs.imgHeight.toNat
    let stream := compressRows s.regs.contLzss rows
    rows.length ≤ s.params.scratchSize → stream.length ≤ s.params.scratchSize →
    57 + stream.length ≤ s.regs.dstCap.toNat →
    (containerWrite s.regs.contLzss s.regs.imgWidth s.regs.imgHeight (srcBytes s)).length =
      57 + stream.length ∧
    completesWith .contWrite s (doneRegs s.regs false (57 + stream.length) 0)
      s.regs.dstAddr.toNat
      (containerWrite s.regs.contLzss s.regs.imgWidth s.regs.imgHeight (srcBytes s))

/-- CONT_READ on the LZSS path writes the pixels to DST and reports the metadata (R37, R39, R40, R133, R135, R143, R254, R255). -/
def Obligations.ContReadCompletes : Prop :=
  ∀ (s : State) (u : ChunkUnit) (tr0 : Bool), srcDstFit s →
    containerRead (srcBytes s) = .ok (u, tr0) →
    (u.hdr = none → completesWith .contRead s
      { doneRegs s.regs true 0 0 with imgWidth := 0, imgHeight := 0, metaWord := 0, metaIl := 0 }
      0 []) ∧
    (∀ (h : Ihdr) (rows out : List Byte) (tr1 tr2 : Bool), u.hdr = some h →
      u.payload.length ≤ s.params.scratchSize → s.regs.contLzss = true →
      lzssDecompress u.payload = .ok (rows, tr1) → rows.length ≤ s.params.scratchSize →
      unfilter rows h.width.toNat h.height.toNat = .ok (out, tr2) →
      out.length ≤ s.regs.dstCap.toNat →
      completesWith .contRead s
        { doneRegs s.regs (tr0 || tr1 || tr2) out.length 0 with
          imgWidth := h.width, imgHeight := h.height,
          metaWord := h.filt ++ h.comp ++ h.colour ++ h.depth, metaIl := h.il }
        s.regs.dstAddr.toNat out)

/-- CONT_READ with CFG.CONT_LZSS = 0 goes through the external decompressor, whose failure is ERR_EXT (R242, R253, R255). -/
def Obligations.ContReadExternalPath : Prop :=
  ∀ (s : State) (u : ChunkUnit) (tr0 : Bool) (h : Ihdr), srcDstFit s →
    containerRead (srcBytes s) = .ok (u, tr0) → u.hdr = some h →
    u.payload.length ≤ s.params.scratchSize → s.regs.contLzss = false →
    match Config.ext.decompress u.payload with
    | none => failsLate .contRead s 0x0E 0 [dstRegion s.regs]
    | some rows =>
      if s.params.scratchSize < rows.length then failsLate .contRead s 0x03 3 [dstRegion s.regs]
      else
        match unfilter rows h.width.toNat h.height.toNat with
        | .error e => failsLate .contRead s e.code.toByte e.info [dstRegion s.regs]
        | .ok (out, tr2) =>
          if s.regs.dstCap.toNat < out.length then failsLate .contRead s 0x03 1 [dstRegion s.regs]
          else completesWith .contRead s
            { doneRegs s.regs (tr0 || tr2) out.length 0 with
              imgWidth := h.width, imgHeight := h.height,
              metaWord := h.filt ++ h.comp ++ h.colour ++ h.depth, metaIl := h.il }
            s.regs.dstAddr.toNat out

/-- LZSS_DECOMPRESS of what LZSS_COMPRESS wrote reproduces the source bytes (R183, R184, R185). -/
def Obligations.CompressedThenDecompressedReproducesSource : Prop :=
  ∀ (s t : State) (dst cap : Word), srcDstFit s →
    exec .lzssCompress s = .next t → t.regs.err = 0 →
    let t' : State := { t with regs := { t.regs with
      srcAddr := t.regs.dstAddr, srcLen := t.regs.outLen, dstAddr := dst, dstCap := cap } }
    srcDstFit t' → s.regs.srcLen.toNat ≤ cap.toNat →
    completesWith .lzssDecompress t' (doneRegs t'.regs false s.regs.srcLen.toNat 0)
      dst.toNat (srcBytes s)

/-- A LIT token appends its byte to the decoder's output and changes nothing else but the read position (R178). -/
def Obligations.LitAppendsItsByte : Prop :=
  ∀ (b : Byte) (s : State),
    exec (.lit b) s = .next { s with internals := { s.internals with tok :=
      { rest := s.internals.tok.rest.drop 2, q := s.internals.tok.q + 2,
        out := s.internals.tok.out ++ [b], trunc := s.internals.tok.trunc } } }

/-- A MATCH token appends its length in bytes, each equal to the one an offset before it, overlapping or not (R179). -/
def Obligations.MatchReplicatesBytes : Prop :=
  ∀ (offset : BitVec 12) (lenField : BitVec 4) (s : State), offset ≠ 0 →
    offset.toNat ≤ s.internals.tok.out.length →
    ∃ new : List Byte,
      exec (.matchToken offset lenField) s = .next { s with internals := { s.internals with tok :=
        { rest := s.internals.tok.rest.drop 3, q := s.internals.tok.q + 3,
          out := s.internals.tok.out ++ new, trunc := s.internals.tok.trunc } } } ∧
      new.length = lenField.toNat + 3 ∧
      ∀ j, j < new.length →
        (s.internals.tok.out ++ new).getD (s.internals.tok.out.length + j) 0 =
          (s.internals.tok.out ++ new).getD (s.internals.tok.out.length + j - offset.toNat) 0

/-- A MATCH with offset 0 or beyond the output ends the running command with ERR_BAD_OFFSET and the token's index (R134, R143, R181). -/
def Obligations.MatchBadOffsetEndsCommand : Prop :=
  ∀ (offset : BitVec 12) (lenField : BitVec 4) (s : State),
    (offset = 0 ∨ s.internals.tok.out.length < offset.toNat) →
    failsLate (.matchToken offset lenField) s 0x07 s.internals.tok.q (runningOutputs s.regs)

/-- A reserved tag ends decoding with ERR_BAD_TAG and the tag's index (R180). -/
def Obligations.ReservedTagsEndDecoding : Prop :=
  ∀ (tag : Byte) (more : List Byte) (s : State), 0x02#8 ≤ tag →
    decode (.token (tag :: more)) = .ok (reservedInstr tag) ∧
    failsLate (reservedInstr tag) s 0x06 s.internals.tok.q (runningOutputs s.regs) ∧
    (∀ i, (i = .reservedTag02 (tag.extractLsb' 0 1) ∨ i = .reservedTag04 (tag.extractLsb' 0 2) ∨
        i = .reservedTag08 (tag.extractLsb' 0 3) ∨ i = .reservedTag10 (tag.extractLsb' 0 4) ∨
        i = .reservedTag20 (tag.extractLsb' 0 5) ∨ i = .reservedTag40 (tag.extractLsb' 0 6) ∨
        i = .reservedTag80 (tag.extractLsb' 0 7)) →
      failsLate i s 0x06 s.internals.tok.q (runningOutputs s.regs))

/-- The first metadata chunk sets the header; a second is out of order; another length than 13 is a bad parameter (R249). -/
def Obligations.IhdrChunkSetsMetadata : Prop :=
  ∀ (payload : List Byte) (crc : Word) (s : State), crc = crc32 (be32 tagIhdr ++ payload) →
    let u := s.internals.chunk
    (u.hdr = none → payload.length = 13 →
      exec (.chunkIhdr payload crc) s = .next { s with internals := { s.internals with chunk :=
        { rest := u.rest.drop (12 + 13), pos := u.pos + 25,
          hdr := some ⟨u32At payload 0, u32At payload 4, payload.getD 8 0, payload.getD 9 0,
            payload.getD 10 0, payload.getD 11 0, payload.getD 12 0⟩,
          payload := u.payload } } }) ∧
    (u.hdr.isSome = true →
      failsLate (.chunkIhdr payload crc) s 0x0B u.pos (runningOutputs s.regs)) ∧
    (u.hdr = none → payload.length ≠ 13 →
      failsLate (.chunkIhdr payload crc) s 0x0C 3 (runningOutputs s.regs))

/-- A payload chunk is appended to the accumulated payload; before any metadata it is out of order (R250). -/
def Obligations.IdatChunkAppendsPayload : Prop :=
  ∀ (payload : List Byte) (crc : Word) (s : State), crc = crc32 (be32 tagIdat ++ payload) →
    let u := s.internals.chunk
    (u.hdr.isSome = true →
      exec (.chunkIdat payload crc) s = .next { s with internals := { s.internals with chunk :=
        { rest := u.rest.drop (12 + payload.length), pos := u.pos + 12 + payload.length,
          hdr := u.hdr, payload := u.payload ++ payload } } }) ∧
    (u.hdr = none →
      failsLate (.chunkIdat payload crc) s 0x0B u.pos (runningOutputs s.regs))

/-- An end marker after metadata ends the chunk loop untruncated: the payload goes to the decompressor (R138, R139, R242, R251, R253, R254, R255). -/
def Obligations.IendChunkEndsLoop : Prop :=
  ∀ (payload : List Byte) (crc : Word) (s : State), crc = crc32 (be32 tagIend ++ payload) →
    let u := s.internals.chunk
    (u.hdr.isSome = true → u.payload.length ≤ s.params.scratchSize → s.regs.contLzss = true →
      exec (.chunkIend payload crc) s = .next { s with seq := .tokens, internals :=
        { s.internals with
          scratch := u.payload
          tok := { rest := u.payload, q := 0, out := [], trunc := false } } }) ∧
    (∀ h, u.hdr = some h → u.payload.length ≤ s.params.scratchSize → s.regs.contLzss = false →
      s.regs.dstAddr.toNat + s.regs.dstCap.toNat ≤ s.params.lmemSize →
      match Config.ext.decompress u.payload with
      | none => failsLate (.chunkIend payload crc) s 0x0E 0 (runningOutputs s.regs)
      | some rows =>
        if s.params.scratchSize < rows.length then
          failsLate (.chunkIend payload crc) s 0x03 3 (runningOutputs s.regs)
        else
          match unfilter rows h.width.toNat h.height.toNat with
          | .error e =>
            failsLate (.chunkIend payload crc) s e.code.toByte e.info (runningOutputs s.regs)
          | .ok (out, trunc) =>
            if s.regs.dstCap.toNat < out.length then
              failsLate (.chunkIend payload crc) s 0x03 1 (runningOutputs s.regs)
            else completesWith (.chunkIend payload crc) s
              { doneRegs s.regs trunc out.length 0 with
                imgWidth := h.width, imgHeight := h.height,
                metaWord := h.filt ++ h.comp ++ h.colour ++ h.depth, metaIl := h.il }
              s.regs.dstAddr.toNat out) ∧
    (u.hdr.isSome = true → s.params.scratchSize < u.payload.length →
      failsLate (.chunkIend payload crc) s 0x03 3 (runningOutputs s.regs)) ∧
    (u.hdr = none →
      failsLate (.chunkIend payload crc) s 0x0B u.pos (runningOutputs s.regs))

/-- A chunk of any other type with a correct CRC is skipped, anywhere in the sequence (R252). -/
def Obligations.OtherChunkSkipped : Prop :=
  ∀ (tag : Word) (payload : List Byte) (crc : Word) (s : State),
    tag ≠ 0x49484452 → tag ≠ 0x49444154 → tag ≠ 0x49454E44 →
    crc = crc32 (be32 tag ++ payload) →
    let u := s.internals.chunk
    exec (.chunkOther tag payload crc) s = .next { s with internals := { s.internals with chunk :=
      { rest := u.rest.drop (12 + payload.length), pos := u.pos + (12 + payload.length),
        hdr := u.hdr, payload := u.payload } } }

/-- Every chunk whose CRC field differs from the CRC of tag and payload ends the command with ERR_CRC and pos (R248). -/
def Obligations.ChunkCrcMismatchReported : Prop :=
  ∀ (tag : Word) (payload : List Byte) (crc : Word) (s : State),
    crc ≠ crc32 (be32 tag ++ payload) →
    ∀ i ∈ [Instr.chunkOther tag payload crc] ++
        (if tag = 0x49484452 then [.chunkIhdr payload crc] else []) ++
        (if tag = 0x49444154 then [.chunkIdat payload crc] else []) ++
        (if tag = 0x49454E44 then [.chunkIend payload crc] else []),
      failsLate i s 0x0A s.internals.chunk.pos (runningOutputs s.regs)

/-- A start request on an idle core sets BUSY and clears the last outcome; while BUSY only IE is written (R22, R130). That IE is written while BUSY although the request is ignored is the model's choice between R22 and R130 (log 12). -/
def Obligations.StartAcceptedOnlyWhenIdle : Prop :=
  ∀ (s : State) (ops : List HostOp) (ts : List Turn) (v : Word),
    v.getLsbD 1 = false → v.getLsbD 0 = true →
    (s.regs.busy = false → step (hostToDo s (.regWrite 0x04 .w32 v) ops ts) =
      .next { hostDone s ops ts with regs := { s.regs with
        ie := v.getLsbD 2, busy := true, done := false, trunc := false, err := 0, errInfo := 0 } }) ∧
    (s.regs.busy = true → step (hostToDo s (.regWrite 0x04 .w32 v) ops ts) =
      .next { hostDone s ops ts with regs := { s.regs with ie := v.getLsbD 2 } })

/-- The eleven operand registers read back what the host wrote on an idle core and ignore it while BUSY (R20, R23, R24, R26, R346). -/
def Obligations.OperandRegistersReadBackOrLocked : Prop :=
  ∀ (s : State) (ops : List HostOp) (ts : List Turn) (v : Word) (n : RegName) (keep : Word),
    (n, keep) ∈ [(RegName.cmd, 0x0000000F#32), (.cfg, 0x00000001), (.srcAddr, 0xFFFFFFFF),
      (.srcLen, 0xFFFFFFFF), (.dstAddr, 0xFFFFFFFF), (.dstCap, 0xFFFFFFFF), (.auxAddr, 0xFFFFFFFF),
      (.auxLen, 0xFFFFFFFF), (.bitLen, 0xFFFFFFFF), (.imgWidth, 0xFFFFFFFF),
      (.imgHeight, 0xFFFFFFFF)] →
    (s.regs.busy = true →
      step (hostToDo s (.regWrite n.offset .w32 v) ops ts) = .next (hostDone s ops ts)) ∧
    (s.regs.busy = false → ∃ r : Regs,
      step (hostToDo s (.regWrite n.offset .w32 v) ops ts) =
        .next { hostDone s ops ts with regs := r } ∧
      readReg r n = v &&& keep ∧ ∀ m, m ≠ n → readReg r m = readReg s.regs m)

/-- Writes to read-only registers, reserved slots, unaligned offsets and of other widths change nothing; such reads give 0 (R20, R21, R26, R42). That the widths other than 32 bits are 8 and 16 is the model's choice (log 11). -/
def Obligations.IgnoredRegisterWrites : Prop :=
  ∀ (s : State) (ops : List HostOp) (ts : List Turn) (v : Word) (offset : BitVec 8)
      (width : AccessWidth),
    (offset ∈ [0x00#8, 0x14, 0x34, 0x38, 0x44, 0x48, 0x4C] ∨ width ≠ .w32 ∨ offset.toNat % 4 ≠ 0 ∨
        0x50 ≤ offset.toNat →
      step (hostToDo s (.regWrite offset width v) ops ts) = .next (hostDone s ops ts)) ∧
    (width ≠ .w32 ∨ offset.toNat % 4 ≠ 0 ∨ 0x50 ≤ offset.toNat →
      step (hostToDo s (.regRead offset width) ops ts) =
        .next { hostDone s ops ts with received := .word 0 :: s.received })

/-- An aligned register read returns the register and changes nothing of the core (R21, R25, R26, R70, R349). The counter of free values is the model's own (log 3). -/
def Obligations.RegisterReadsHaveNoSideEffect : Prop :=
  ∀ (s : State) (ops : List HostOp) (ts : List Turn) (n : RegName),
    (s.regs.busy = false ∨ n ∈ [RegName.id, .ctrl, .cmd, .cfg, .status, .errInfo, .srcAddr, .srcLen,
        .dstAddr, .dstCap, .auxAddr, .auxLen] →
      step (hostToDo s (.regRead n.offset .w32) ops ts) =
        .next { hostDone s ops ts with received := .word (readReg s.regs n) :: s.received }) ∧
    readReg s.regs .id = 0x4C5A4831 ∧
    (s.regs.busy = true → Invariant s → readReg s.regs .status = 1 ∧ readReg s.regs .errInfo = 0) ∧
    (s.regs.busy = true → n ∈ [RegName.bitLen, .outLen, .auxOutLen, .imgWidth, .imgHeight, .metaWord,
        .metaIl, .result] →
      ∃ w, step (hostToDo s (.regRead n.offset .w32) ops ts) =
        .next { hostDone s ops ts with
          received := .word w :: s.received, freeCtr := s.freeCtr + 1 })

/-- IRQ is DONE AND IE; a write of STATUS clears DONE exactly when bit 1 is 1, dropping IRQ; IE = 0 masks it (R22, R25, R50, R308, R311). -/
def Obligations.StatusWriteAcknowledges : Prop :=
  ∀ (s : State) (ops : List HostOp) (ts : List Turn) (v : Word),
    irq s = (s.regs.done && s.regs.ie) ∧
    (v.getLsbD 1 = true → ∃ t, step (hostToDo s (.regWrite 0x10 .w32 v) ops ts) = .next t ∧
      t = { hostDone s ops ts with regs := { s.regs with done := false } } ∧ irq t = false) ∧
    (v.getLsbD 1 = false →
      step (hostToDo s (.regWrite 0x10 .w32 v) ops ts) = .next (hostDone s ops ts)) ∧
    (v.getLsbD 1 = false → v.getLsbD 0 = false →
      ∃ t, step (hostToDo s (.regWrite 0x04 .w32 v) ops ts) = .next t ∧
        t = { hostDone s ops ts with regs := { s.regs with ie := v.getLsbD 2 } } ∧
        (v.getLsbD 2 = false → irq t = false) ∧ (v.getLsbD 2 = true → irq t = s.regs.done))

/-- A soft reset puts every register at its reset value, abandons a running command and keeps LMEM but for its outputs (R22, R342, R351). That input bytes inside an output region are unchanged too is the model's choice between R342 and R351 (log 7). -/
def Obligations.SoftResetRestoresRegisters : Prop :=
  ∀ (s : State) (ops : List HostOp) (ts : List Turn) (v : Word), v.getLsbD 1 = true →
    ∃ t, step (hostToDo s (.regWrite 0x04 .w32 v) ops ts) = .next t ∧
      t.regs = Regs.reset ∧ t.seq = .idle ∧ irq t = false ∧ t.params = s.params ∧ t.host = ops ∧
      t.received = s.received ∧ t.turns = ts ∧
      (s.regs.busy = false → lmemSame s t) ∧
      lmemSameOutside s t (runningOutputs s.regs) ∧
      (0x1#4 ≤ s.regs.op ∧ s.regs.op ≤ 0x9#4 → ∀ a, s.regs.srcAddr.toNat ≤ a →
        a < s.regs.srcAddr.toNat + s.regs.srcLen.toNat → lmemByte t a = lmemByte s a) ∧
      (s.regs.op = 0x4 → ∀ a, s.regs.auxAddr.toNat ≤ a →
        a < s.regs.auxAddr.toNat + s.regs.auxLen.toNat → lmemByte t a = lmemByte s a)

/-- After a hard reset every register holds its reset value, at power-on and when asserted later (R20, R341, R343). -/
def Obligations.ResetRegisterValues : Prop :=
  ∀ (s : State) (ops : List HostOp) (ts : List Turn), ∃ t,
    step (hostToDo s .hardReset ops ts) = .next t ∧
    ∀ r ∈ [State.reset, t], r.seq = .idle ∧ irq r = false ∧ r.regs.busy = false ∧
      ∀ n : RegName, readReg r.regs n =
        if n = .id then 0x4C5A4831 else if n = .cfg then 1 else 0

/-- Host LMEM bytes read back what was written; past the end writes are ignored and reads give 0; while BUSY LMEM is refused (R63, R347, R73). That accesses from LMEM_SIZE on are ignored or read 0 while BUSY too is the model's choice between R63 and R347 (log 5). -/
def Obligations.HostLmemAccess : Prop :=
  ∀ (s : State) (ops : List HostOp) (ts : List Turn) (a : Nat) (b : Byte),
    (a < s.params.lmemSize → s.regs.busy = false →
      (∃ m, step (hostToDo s (.memWrite a b) ops ts) = .next { hostDone s ops ts with lmem := m } ∧
        ∀ x, lmemByte { s with lmem := m } x = if x = a then b else lmemByte s x) ∧
      step (hostToDo s (.memRead a) ops ts) =
        .next { hostDone s ops ts with received := .byte (lmemByte s a) :: s.received }) ∧
    (s.params.lmemSize ≤ a →
      step (hostToDo s (.memWrite a b) ops ts) = .next (hostDone s ops ts) ∧
      step (hostToDo s (.memRead a) ops ts) =
        .next { hostDone s ops ts with received := .byte 0 :: s.received }) ∧
    (a < s.params.lmemSize → s.regs.busy = true →
      step (hostToDo s (.memWrite a b) ops ts) = .refused .hostLmemWhileBusy ∧
      step (hostToDo s (.memRead a) ops ts) = .refused .hostLmemWhileBusy)

/-- The pseudo-instruction run on an idle core leads to the command's own step in four moves (R112, R130, R131). Who moves first with an empty turns list is the model's choice (log 4). -/
def Obligations.RunStartsTheNamedCommand : Prop :=
  ∀ (s : State) (op : BitVec 4) (ops : List HostOp), s.regs.busy = false → s.seq = .idle →
    Sys2Proof.core.run 4 { s with turns := [], host := .run op :: ops } =
      exec (decodeCommand (op.setWidth 32)) { s with turns := [], host := ops, regs := { s.regs with
        op := op, busy := true, done := false, trunc := false, err := 0, errInfo := 0 } }

/-- Scanlines decode to their pixels; a missing or short row truncates; a non-zero marker is ERR_BAD_FILTER with its index (R254). -/
def Obligations.UnfilterStopsAtBadOrMissingRow : Prop :=
  ∀ (w h k : Nat) (pixels tail : List Byte), pixels.length = 3 * w * k → k ≤ h →
    let rows := filterRows pixels w k ++ tail
    (k = h → unfilter rows w h = .ok (pixels, false)) ∧
    (k < h → tail = [] → unfilter rows w h = .ok (pixels, true)) ∧
    (∀ (marker : Byte) (rest : List Byte), k < h → tail = marker :: rest →
      (marker ≠ 0 → unfilter rows w h = .error (lateErr .badFilter (k * (1 + 3 * w)))) ∧
      (marker = 0 → rest.length < 3 * w → unfilter rows w h = .ok (pixels ++ rest, true)))
end

