-- ==== Sys2Proof/Laws/Arena.lean ====
section
/-! SUPPORT. The node arena: what the engine builds by index (R46, R203) is the tree that the rule builds. -/
namespace Sys2Proof.Laws
open Sys2Proof Sys2Proof.Machine

/-- The tree under an index of the arena, at most `n` nodes deep. -/
def treeAt (arena : List ArenaNode) : Nat → Nat → HuffTree
  | 0, _ => default
  | n + 1, i =>
    match arenaAt arena i with
    | .leaf v _ _ => .leaf v
    | .internal _ l r _ => .node (treeAt arena n l) (treeAt arena n r)

/-- The queue node that an index of the arena stands for. -/
def nodeAt (arena : List ArenaNode) (i : Nat) : HuffNode :=
  ⟨(arenaAt arena i).weight.toNat, (arenaAt arena i).seq, treeAt arena (i + 1) i⟩

/-- Children stand before their parent in the arena. -/
def ArenaWf (arena : List ArenaNode) : Prop :=
  ∀ i w l r q, i < arena.length → arenaAt arena i = .internal w l r q → l < i ∧ r < i

theorem arenaAt_append {arena : List ArenaNode} (x : ArenaNode) {i : Nat} (hi : i < arena.length) :
    arenaAt (arena ++ [x]) i = arenaAt arena i := by
  simp [arenaAt, List.getD_eq_getElem?_getD, List.getElem?_append_left hi]

theorem arenaAt_last (arena : List ArenaNode) (x : ArenaNode) :
    arenaAt (arena ++ [x]) arena.length = x := by
  simp [arenaAt, List.getD_eq_getElem?_getD]

/-- More depth than an index needs changes nothing. -/
theorem treeAt_depth {arena : List ArenaNode} (hw : ArenaWf arena) (n m i : Nat)
    (hn : i < n) (hm : i < m) (hi : i < arena.length) : treeAt arena n i = treeAt arena m i := by
  induction n generalizing i m with
  | zero => omega
  | succ n ih =>
    cases m with
    | zero => omega
    | succ m =>
      unfold treeAt
      cases h : arenaAt arena i with
      | leaf v w q => rfl
      | internal w l r q =>
        obtain ⟨hl, hr⟩ := hw i w l r q hi h
        simp only [ih m l (by omega) (by omega) (by omega), ih m r (by omega) (by omega) (by omega)]

/-- A node appended leaves the trees before it alone. -/
theorem treeAt_append {arena : List ArenaNode} (hw : ArenaWf arena) (x : ArenaNode) (n i : Nat)
    (hi : i < arena.length) : treeAt (arena ++ [x]) n i = treeAt arena n i := by
  induction n generalizing i with
  | zero => rfl
  | succ n ih =>
    unfold treeAt
    rw [arenaAt_append x hi]
    cases h : arenaAt arena i with
    | leaf v w q => rfl
    | internal w l r q =>
      obtain ⟨hl, hr⟩ := hw i w l r q hi h
      simp only [ih l (by omega), ih r (by omega)]

theorem nodeAt_append {arena : List ArenaNode} (hw : ArenaWf arena) (x : ArenaNode) {i : Nat}
    (hi : i < arena.length) : nodeAt (arena ++ [x]) i = nodeAt arena i := by
  simp [nodeAt, arenaAt_append x hi, treeAt_append hw x _ i hi]

/-- The codes read off the arena are the codes of the tree there. -/
theorem codesFrom_eq {arena : List ArenaNode} (hw : ArenaWf arena) (n i : Nat) (path : Bits)
    (hn : i < n) (hi : i < arena.length) :
    codesFrom arena n i path = treeCodes (treeAt arena n i) path := by
  induction n generalizing i path with
  | zero => omega
  | succ n ih =>
    unfold codesFrom treeAt
    cases h : arenaAt arena i with
    | leaf v w q => rfl
    | internal w l r q =>
      obtain ⟨hl, hr⟩ := hw i w l r q hi h
      simp only [ih l _ (by omega) (by omega), ih r _ (by omega) (by omega), treeCodes]

/-! ### The queue -/

theorem indexBefore_eq (arena : List ArenaNode) (i j : Nat) :
    indexBefore arena i j = nodeBefore (nodeAt arena i) (nodeAt arena j) := by
  have h : ((arenaAt arena i).weight == (arenaAt arena j).weight) =
      ((arenaAt arena i).weight.toNat == (arenaAt arena j).weight.toNat) := by
    rw [Bool.eq_iff_iff, beq_iff_eq, beq_iff_eq, BitVec.toNat_inj]
  simp only [indexBefore, nodeBefore, nodeAt, h]
  rfl

theorem enqueueIndex_map (arena : List ArenaNode) (i : Nat) (q : List Nat) :
    (enqueueIndex arena i q).map (nodeAt arena) =
      enqueue (nodeAt arena i) (q.map (nodeAt arena)) := by
  induction q with
  | nil => rfl
  | cons j q ih =>
    simp only [enqueueIndex, List.map_cons, enqueue, indexBefore_eq]
    split <;> simp [ih]

theorem mem_enqueueIndex (arena : List ArenaNode) (i k : Nat) (q : List Nat) :
    k ∈ enqueueIndex arena i q ↔ k = i ∨ k ∈ q := by
  induction q with
  | nil => simp [enqueueIndex]
  | cons j q ih =>
    unfold enqueueIndex
    split
    · simp
    · simp [ih]; tauto

@[simp] theorem enqueueIndex_length (arena : List ArenaNode) (i : Nat) (q : List Nat) :
    (enqueueIndex arena i q).length = q.length + 1 := by
  induction q with
  | nil => rfl
  | cons j q ih =>
    unfold enqueueIndex
    split <;> simp [ih]

/-- The weights of a queue, summed. -/
def totalWeight (q : List HuffNode) : Nat := (q.map HuffNode.weight).sum

@[simp] theorem totalWeight_cons (x : HuffNode) (q : List HuffNode) :
    totalWeight (x :: q) = x.weight + totalWeight q := rfl

@[simp] theorem totalWeight_enqueue (x : HuffNode) (q : List HuffNode) :
    totalWeight (enqueue x q) = x.weight + totalWeight q := by
  induction q with
  | nil => rfl
  | cons y q ih =>
    unfold enqueue
    split
    · rfl
    · simp only [totalWeight_cons, ih]; omega

@[simp] theorem enqueue_length (x : HuffNode) (q : List HuffNode) :
    (enqueue x q).length = q.length + 1 := by
  induction q with
  | nil => rfl
  | cons y q ih =>
    unfold enqueue
    split <;> simp [ih]

/-- The arena and its queue hold the rule's queue `q`, and no weight can leave its 32 bits. -/
structure Holds (x : Internals) (q : List HuffNode) : Prop where
  wf : ArenaWf x.arena
  inside : ∀ i ∈ x.queue, i < x.arena.length
  nodes : x.queue.map (nodeAt x.arena) = q
  small : totalWeight q < 2 ^ 32

/-- One merge on the arena is one merge of the rule. -/
theorem mergeOnce_holds {x : Internals} {a b : HuffNode} {q : List HuffNode}
    (h : Holds x (a :: b :: q)) : ∃ arena queue,
    mergeOnce x = some { x with arena := arena, queue := queue, nextSeq := x.nextSeq + 1 } ∧
    Holds { x with arena := arena, queue := queue, nextSeq := x.nextSeq + 1 }
      (enqueue ⟨a.weight + b.weight, x.nextSeq, .node a.tree b.tree⟩ q) := by
  obtain ⟨hw, hin, hnodes, hsmall⟩ := h
  cases hq : x.queue with
  | nil => simp [hq] at hnodes
  | cons i rest =>
  cases hrest : rest with
  | nil => simp [hq, hrest] at hnodes
  | cons j tail =>
  subst hrest
  simp only [hq, List.map_cons, List.cons.injEq] at hnodes
  obtain ⟨rfl, rfl, hnodes⟩ := hnodes
  have hi : i < x.arena.length := hin i (by simp [hq])
  have hj : j < x.arena.length := hin j (by simp [hq])
  have ht : ∀ k ∈ tail, k < x.arena.length := fun k hk => hin k (by simp [hq, hk])
  have htail : tail.map (nodeAt (x.arena ++ [mergedNode x.arena i j x.nextSeq])) = q := by
    rw [← hnodes]
    exact List.map_congr_left fun k hk => nodeAt_append hw _ (ht k hk)
  have hnew : nodeAt (x.arena ++ [mergedNode x.arena i j x.nextSeq]) x.arena.length =
      ⟨(nodeAt x.arena i).weight + (nodeAt x.arena j).weight, x.nextSeq,
        .node (nodeAt x.arena i).tree (nodeAt x.arena j).tree⟩ := by
    have hsum : (nodeAt x.arena i).weight + (nodeAt x.arena j).weight < 2 ^ 32 := by
      simp only [totalWeight_cons] at hsmall; omega
    have hroot : ∀ n, treeAt (x.arena ++ [mergedNode x.arena i j x.nextSeq]) (n + 1)
        x.arena.length = .node
          (treeAt (x.arena ++ [mergedNode x.arena i j x.nextSeq]) n i)
          (treeAt (x.arena ++ [mergedNode x.arena i j x.nextSeq]) n j) := by
      intro n
      rw [treeAt, arenaAt_last]
      rfl
    simp only [nodeAt, hroot]
    simp only [arenaAt_last, mergedNode, ArenaNode.weight, ArenaNode.seq, HuffNode.mk.injEq,
      HuffTree.node.injEq, true_and]
    refine ⟨?_, ?_, ?_⟩
    · rw [BitVec.toNat_add]
      exact Nat.mod_eq_of_lt hsum
    · rw [treeAt_append hw _ _ i hi]
      exact treeAt_depth hw _ _ i hi (by omega) hi
    · rw [treeAt_append hw _ _ j hj]
      exact treeAt_depth hw _ _ j hj (by omega) hj
  refine ⟨x.arena ++ [mergedNode x.arena i j x.nextSeq],
    enqueueIndex (x.arena ++ [mergedNode x.arena i j x.nextSeq]) x.arena.length tail, ?_, ?_⟩
  · simp [mergeOnce, hq]
  · refine ⟨?_, ?_, ?_, ?_⟩
    · intro k w l r s hk he
      simp only [List.length_append, List.length_singleton] at hk
      by_cases hlt : k < x.arena.length
      · rw [arenaAt_append _ hlt] at he
        exact hw k w l r s hlt he
      · have : k = x.arena.length := by omega
        subst this
        simp only [arenaAt_last, mergedNode, ArenaNode.internal.injEq] at he
        obtain ⟨-, rfl, rfl, -⟩ := he
        exact ⟨hi, hj⟩
    · intro k hk
      simp only [mem_enqueueIndex] at hk
      simp only [List.length_append, List.length_singleton]
      rcases hk with rfl | hk
      · omega
      · have := ht k hk; omega
    · rw [enqueueIndex_map, hnew, htail]
    · simp only [totalWeight_enqueue]
      simp only [totalWeight_cons] at hsmall
      omega

/-- A queue of fewer than two nodes ends the merging. -/
theorem mergeOnce_none {x : Internals} {q : List HuffNode} (h : Holds x q) (hq : q.length < 2) :
    mergeOnce x = none := by
  have hl : x.queue.length < 2 := by
    have := congrArg List.length h.nodes
    rw [List.length_map] at this
    omega
  unfold mergeOnce
  split
  · rename_i hx
    rw [hx] at hl
    simp at hl
  · rfl

/-- The codes read off the arena are those of the rule's queue. -/
theorem arenaCodes_holds {x : Internals} {q : List HuffNode} (h : Holds x q) :
    arenaCodes x.arena x.queue = codesOf q := by
  obtain ⟨hw, hin, rfl, -⟩ := h
  cases hq : x.queue with
  | nil => rfl
  | cons i rest =>
    have hi : i < x.arena.length := hin i (by simp [hq])
    have ht := treeAt_depth hw x.arena.length (i + 1) i hi (by omega) hi
    have hc := codesFrom_eq hw x.arena.length i [] hi hi
    simp only [arenaCodes, hc, ht]
    cases h : arenaAt x.arena i with
    | leaf v w s => simp [nodeAt, treeAt, h, codesOf]
    | internal w l r s => simp [nodeAt, treeAt, h, codesOf]

/-! ### The leaves -/

/-- The 32-bit counters hold the counts of an input shorter than 2^32 bytes (R46, R200). -/
theorem tableCount_freqTable (d : List Byte) (hd : d.length < 2 ^ 32) (v : Byte) :
    tableCount (freqTable d) v = freqOf d v := by
  have hv := v.isLt
  have hc : freqOf d v < 2 ^ 32 := Nat.lt_of_le_of_lt List.count_le_length hd
  simpa [tableCount, freqTable, byteValues, List.getD_eq_getElem?_getD, hv] using hc

theorem sum_counts_le (d l : List Byte) (hl : l.Nodup) : (l.map (freqOf d)).sum ≤ d.length := by
  induction d with
  | nil =>
    have : freqOf [] = fun _ => 0 := rfl
    simp [this]
  | cons a d ih =>
    have h1 : (l.map (freqOf (a :: d))).sum = (l.map (freqOf d)).sum + l.count a := by
      clear ih hl
      induction l with
      | nil => rfl
      | cons b l ih =>
        simp only [List.map_cons, List.sum_cons, ih, freqOf, List.count_cons]
        have : (a == b) = (b == a) := Bool.beq_comm
        rw [this]
        omega
    have h2 := List.nodup_iff_count_le_one.mp hl a
    rw [h1, List.length_cons]
    omega

theorem byteValues_nodup : byteValues.Nodup := by
  unfold byteValues
  refine List.Nodup.map_on ?_ List.nodup_range
  intro a ha b hb h
  simp only [List.mem_range] at ha hb
  have := congrArg BitVec.toNat h
  simp only [BitVec.toNat_ofNat] at this
  omega

theorem totalWeight_leaves (d : List Byte) : totalWeight (leavesOf (freqOf d)) ≤ d.length := by
  have h : (leavesOf (freqOf d)).map HuffNode.weight =
      (byteValues.filter (fun v => 0 < freqOf d v)).map (freqOf d) := by
    unfold leavesOf
    rw [List.map_map]
    have : (HuffNode.weight ∘ fun p : Byte × Nat => (⟨freqOf d p.1, p.2, .leaf p.1⟩ : HuffNode)) =
        freqOf d ∘ Prod.fst := rfl
    rw [this, ← List.map_map, List.zipIdx_map_fst]
  unfold totalWeight
  rw [h]
  exact sum_counts_le d _ (byteValues_nodup.filter _)

theorem totalWeight_foldr (l : List HuffNode) :
    totalWeight (l.foldr enqueue []) = totalWeight l := by
  induction l with
  | nil => rfl
  | cons a l ih => simp [ih]

theorem foldr_enqueue_length (l : List HuffNode) : (l.foldr enqueue []).length = l.length := by
  induction l with
  | nil => rfl
  | cons a l ih => simp [ih]

@[simp] theorem arenaLeaves_length (freq : List Word) :
    (arenaLeaves freq).length = (leavesOf (tableCount freq)).length := by
  simp [arenaLeaves, leavesOf]

theorem arenaAt_leaves (freq : List Word) (i : Nat) (v : Byte)
    (h : (byteValues.filter (fun v => 0 < tableCount freq v))[i]? = some v) :
    arenaAt (arenaLeaves freq) i = .leaf v (freq.getD v.toNat 0) i := by
  simp [arenaAt, arenaLeaves, h]

theorem nodeAt_leaves (freq : List Word) (i : Nat) (hi : i < (arenaLeaves freq).length) :
    some (nodeAt (arenaLeaves freq) i) = (leavesOf (tableCount freq))[i]? := by
  have hi : i < (byteValues.filter (fun v => 0 < tableCount freq v)).length := by
    simpa [arenaLeaves] using hi
  have h := List.getElem?_eq_getElem hi
  simp only [nodeAt, treeAt, arenaAt_leaves freq i _ h]
  simp [leavesOf, ArenaNode.weight, ArenaNode.seq, tableCount]

theorem leaves_map (freq : List Word) :
    (List.range (arenaLeaves freq).length).map (nodeAt (arenaLeaves freq)) =
      leavesOf (tableCount freq) := by
  apply List.ext_getElem?
  intro i
  by_cases hi : i < (arenaLeaves freq).length
  · rw [List.getElem?_map, List.getElem?_range hi, Option.map_some, nodeAt_leaves freq i hi]
  · rw [List.getElem?_eq_none (by simpa using hi), List.getElem?_eq_none (by simpa using hi)]

theorem foldr_enqueueIndex_map (arena : List ArenaNode) (l : List Nat) :
    (l.foldr (enqueueIndex arena) []).map (nodeAt arena) =
      (l.map (nodeAt arena)).foldr enqueue [] := by
  induction l with
  | nil => rfl
  | cons i l ih => simp [enqueueIndex_map, ih]

theorem mem_foldr_enqueueIndex (arena : List ArenaNode) (k : Nat) (l : List Nat) :
    k ∈ l.foldr (enqueueIndex arena) [] ↔ k ∈ l := by
  induction l with
  | nil => rfl
  | cons i l ih => simp [mem_enqueueIndex, ih]

@[simp] theorem foldr_enqueueIndex_length (arena : List ArenaNode) (l : List Nat) :
    (l.foldr (enqueueIndex arena) []).length = l.length := by
  induction l with
  | nil => rfl
  | cons i l ih => simp [ih]

theorem arenaLeaves_wf (freq : List Word) : ArenaWf (arenaLeaves freq) := by
  intro i w l r q hi h
  have hi : i < (byteValues.filter (fun v => 0 < tableCount freq v)).length := by
    simpa [arenaLeaves] using hi
  rw [arenaAt_leaves freq i _ (List.getElem?_eq_getElem hi)] at h
  cases h

/-- The leaves stage loads the rule's queue of leaves. -/
theorem leaves_holds (x : Internals) (d : List Byte) (hd : d.length < 2 ^ 32)
    (hx : x.arena = arenaLeaves (freqTable d))
    (hq : x.queue = (List.range x.arena.length).foldr (enqueueIndex x.arena) []) :
    Holds x ((leavesOf (freqOf d)).foldr enqueue []) := by
  have hf : tableCount (freqTable d) = freqOf d := funext (tableCount_freqTable d hd)
  refine ⟨hx ▸ arenaLeaves_wf _, ?_, ?_, ?_⟩
  · intro i hi
    rw [hq, mem_foldr_enqueueIndex] at hi
    simpa using hi
  · rw [hq, foldr_enqueueIndex_map, hx, leaves_map, hf]
  · rw [totalWeight_foldr]
    exact Nat.lt_of_le_of_lt (totalWeight_leaves d) hd

end Sys2Proof.Laws
end

