-- ==== Sys2Proof/Laws/Memory.lean ====
section
/-! SUPPORT. LMEM: a write is read back and leaves every other byte alone, and every operation keeps the canonical form (R61, R62, R143). -/
namespace Sys2Proof.Laws
open Sys2Proof Sys2Proof.Machine

/-! ### Reading after writing -/

@[simp] theorem memLookup_memInsert (m : Memory) (x y : Nat) (v : Byte) :
    memLookup (memInsert m x v) y = if y = x then some v else memLookup m y := by
  induction m with
  | nil => rfl
  | cons c m ih =>
    obtain ⟨a, b⟩ := c
    by_cases hlt : x < a
    · simp [memInsert, memLookup, hlt]
    · by_cases heq : x = a
      · subst heq
        by_cases hy : y = x <;> simp [memInsert, memLookup, hy]
      · by_cases hya : y = a
        · subst hya
          simp [memInsert, memLookup, hlt, heq, Ne.symm heq]
        · simp [memInsert, memLookup, hlt, heq, hya, ih]

theorem memLookup_memSet (size : Nat) (m : Memory) (a x : Nat) (b : Byte) :
    memLookup (memSet size m a b) x = if x = a ∧ a < size then some b else memLookup m x := by
  unfold memSet
  split <;> rename_i h <;> simp [h]

/-- A write of bytes is read back inside LMEM and leaves every other address alone (R61, R62). -/
theorem memLookup_memWrite (size : Nat) (m : Memory) (a x : Nat) (bs : List Byte) :
    memLookup (memWrite size m a bs) x =
      if a ≤ x ∧ x < a + bs.length ∧ x < size then bs[x - a]? else memLookup m x := by
  induction bs generalizing m a with
  | nil =>
    have : ¬(a ≤ x ∧ x < a + ([] : List Byte).length ∧ x < size) := by simp; omega
    simp only [memWrite, if_neg this]
  | cons b bs ih =>
    rw [memWrite, ih, memLookup_memSet]
    simp only [List.length_cons]
    by_cases hx : x = a
    · subst hx
      by_cases hs : x < size <;> simp [hs]
    · by_cases hin : a + 1 ≤ x ∧ x < a + 1 + bs.length ∧ x < size
      · rw [if_pos hin, if_pos (by omega), show x - a = (x - (a + 1)) + 1 by omega,
          List.getElem?_cons_succ]
      · rw [if_neg hin, if_neg (by omega), if_neg (by omega)]

/-- Bytes left unspecified take the event's free values, the rest stays (R143, R351). -/
theorem memLookup_memScramble (size n : Nat) (m : Memory) (as : List Nat) (x : Nat) :
    memLookup (memScramble size n m as) x =
      if x ∈ as ∧ x < size then some (Config.freeByte n x) else memLookup m x := by
  induction as generalizing m with
  | nil => simp [memScramble]
  | cons a as ih =>
    rw [memScramble, ih, memLookup_memSet]
    by_cases hs : x < size
    · by_cases hx : x = a
      · subst hx; simp [hs]
      · simp [hs, hx]
    · by_cases hx : x = a
      · subst hx; simp [hs]
      · simp [hs, hx]

/-! ### The canonical form -/

@[simp] theorem wf_nil (size : Nat) : Memory.wf size [] = true := rfl

/-- The canonical form, entry by entry. -/
theorem wf_cons (size a : Nat) (b : Byte) (m : Memory) :
    Memory.wf size ((a, b) :: m) = true ↔
      a < size ∧ (∀ c ∈ m, a < c.1) ∧ Memory.wf size m = true := by
  induction m generalizing a b with
  | nil => simp [Memory.wf]
  | cons c m ih =>
    obtain ⟨a', b'⟩ := c
    rw [Memory.wf, Bool.and_eq_true, decide_eq_true_eq, ih]
    simp only [List.mem_cons, forall_eq_or_imp]
    constructor
    · rintro ⟨h, hs, hm, hw⟩
      exact ⟨by omega, ⟨h, fun c hc => Nat.lt_trans h (hm c hc)⟩, hs, hm, hw⟩
    · rintro ⟨-, ⟨h, -⟩, hw⟩
      exact ⟨h, hw⟩

theorem mem_memInsert (m : Memory) (x : Nat) (v : Byte) (c : Host.Cell)
    (h : c ∈ memInsert m x v) : c = (x, v) ∨ c ∈ m := by
  induction m with
  | nil => simpa [memInsert] using h
  | cons d m ih =>
    obtain ⟨a, b⟩ := d
    unfold memInsert at h
    split at h
    · simpa using h
    · split at h
      · rename_i heq
        subst heq
        rcases List.mem_cons.mp h with h | h
        · exact .inl h
        · exact .inr (List.mem_cons_of_mem _ h)
      · rcases List.mem_cons.mp h with h | h
        · exact .inr (h ▸ List.mem_cons_self)
        · exact (ih h).imp_right (List.mem_cons_of_mem _)

theorem wf_memInsert (size : Nat) (m : Memory) (x : Nat) (v : Byte) (hx : x < size)
    (hm : Memory.wf size m = true) : Memory.wf size (memInsert m x v) = true := by
  induction m with
  | nil => simpa [memInsert, Memory.wf] using hx
  | cons c m ih =>
    obtain ⟨a, b⟩ := c
    have hc := (wf_cons size a b m).mp hm
    unfold memInsert
    split
    · rename_i hlt
      refine (wf_cons ..).mpr ⟨hx, ?_, hm⟩
      intro c hin
      rcases List.mem_cons.mp hin with rfl | hin
      · exact hlt
      · exact Nat.lt_trans hlt (hc.2.1 c hin)
    · split
      · exact (wf_cons ..).mpr hc
      · refine (wf_cons ..).mpr ⟨hc.1, ?_, ih hc.2.2⟩
        intro c hin
        rcases mem_memInsert m x v c hin with rfl | hin
        · show a < x
          omega
        · exact hc.2.1 c hin

theorem wf_memSet (size : Nat) (m : Memory) (a : Nat) (b : Byte)
    (hm : Memory.wf size m = true) : Memory.wf size (memSet size m a b) = true := by
  unfold memSet
  split
  · exact wf_memInsert size m a b ‹_› hm
  · exact hm

theorem wf_memWrite (size : Nat) (m : Memory) (a : Nat) (bs : List Byte)
    (hm : Memory.wf size m = true) : Memory.wf size (memWrite size m a bs) = true := by
  induction bs generalizing m a with
  | nil => exact hm
  | cons b bs ih => exact ih _ _ (wf_memSet size m a b hm)

theorem wf_memScramble (size n : Nat) (m : Memory) (as : List Nat)
    (hm : Memory.wf size m = true) : Memory.wf size (memScramble size n m as) = true := by
  induction as generalizing m with
  | nil => exact hm
  | cons a as ih => exact ih _ (wf_memSet size m a _ hm)

theorem wf_okMem (s : State) (o : CmdOutput) (h : Memory.wf s.params.lmemSize s.lmem = true) :
    Memory.wf s.params.lmemSize (okMem s o) = true :=
  wf_memWrite _ _ _ _ (wf_memWrite _ _ _ _ h)

theorem wf_errMem (op : BitVec 4) (s : State) (e : CmdError)
    (h : Memory.wf s.params.lmemSize s.lmem = true) :
    Memory.wf s.params.lmemSize (errMem op s e) = true := by
  unfold errMem
  split
  · exact wf_memScramble _ _ _ _ h
  · exact h

/-- Completing a command keeps LMEM's canonical form. -/
theorem wf_complete (op : BitVec 4) (r : CmdResult) (s : State)
    (h : Memory.wf s.params.lmemSize s.lmem = true) :
    Memory.wf s.params.lmemSize (complete op r s).lmem = true := by
  cases r with
  | ok o => exact wf_okMem s o h
  | error e => exact wf_errMem op s e h

theorem wf_softReset (s : State) (h : Memory.wf s.params.lmemSize s.lmem = true) :
    Memory.wf s.params.lmemSize (softReset s).lmem = true := by
  show Memory.wf _ (if _ then _ else _) = true
  split
  · exact wf_memScramble _ _ _ _ h
  · exact h

theorem wf_hardReset (s : State) : Memory.wf s.params.lmemSize (hardReset s).lmem = true := rfl

/-- LMEM at reset lists nothing (R341). -/
theorem wf_reset : Memory.wf State.reset.params.lmemSize State.reset.lmem = true := rfl

/-! ### One byte of LMEM (R63, R344) -/

@[simp] theorem memRead_length (s : State) (r : Region) : (memRead s r).length = r.len := by
  simp [memRead]

/-- What a byte reads as depends on LMEM and on the last event that left it all unspecified. -/
theorem lmemByte_congr (s t : State) (a : Nat) (hm : memLookup t.lmem a = memLookup s.lmem a)
    (he : t.lmemEpoch = s.lmemEpoch) : lmemByte t a = lmemByte s a := by
  simp [lmemByte, hm, he]

/-- A byte after a write of bytes that lies in LMEM (R62). -/
theorem lmemByte_memWrite (s t : State) (m : Memory) (addr : Nat) (bs : List Byte) (a : Nat)
    (ht : t.lmem = memWrite s.params.lmemSize m addr bs) (he : t.lmemEpoch = s.lmemEpoch)
    (hin : addr + bs.length ≤ s.params.lmemSize) :
    lmemByte t a =
      if addr ≤ a ∧ a < addr + bs.length then bs.getD (a - addr) 0
      else lmemByte { s with lmem := m } a := by
  by_cases h : addr ≤ a ∧ a < addr + bs.length
  · have hlt : a - addr < bs.length := by omega
    simp [lmemByte, ht, memLookup_memWrite, h, show a < s.params.lmemSize by omega, hlt]
  · have h' : ¬(addr ≤ a ∧ a < addr + bs.length ∧ a < s.params.lmemSize) := by omega
    simp [lmemByte, ht, he, memLookup_memWrite, h, h']

end Sys2Proof.Laws
end

