-- ==== Sys2Proof/Laws/State.lean ====
section
/-! SUPPORT. What each record update leaves in each field of the state and of the registers. -/
namespace Sys2Proof.Laws
open Sys2Proof Sys2Proof.Machine

variable (op : BitVec 4) (o : CmdOutput) (e : CmdError) (result : CmdResult) (s : State) (r : Regs)

/-! ### Completion (R131, R133 to R135) -/

@[simp] theorem complete_ok_regs : (complete op (.ok o) s).regs = okRegs s.regs o := rfl
@[simp] theorem complete_ok_lmem : (complete op (.ok o) s).lmem = okMem s o := rfl

/-! ### Error entry (R134) -/

@[simp] theorem complete_error_regs : (complete op (.error e) s).regs = errRegs s.regs e := rfl
@[simp] theorem complete_error_lmem : (complete op (.error e) s).lmem = errMem op s e := rfl

/-! ### Completion, whatever the result -/

@[simp] theorem complete_params : (complete op result s).params = s.params := by cases result <;> rfl
@[simp] theorem complete_lmemEpoch : (complete op result s).lmemEpoch = s.lmemEpoch := by cases result <;> rfl
@[simp] theorem complete_seq : (complete op result s).seq = .idle := by cases result <;> rfl
@[simp] theorem complete_internals : (complete op result s).internals = Config.freeInternals s.freeCtr := by cases result <;> rfl
@[simp] theorem complete_host : (complete op result s).host = s.host := by cases result <;> rfl
@[simp] theorem complete_received : (complete op result s).received = s.received := by cases result <;> rfl
@[simp] theorem complete_turns : (complete op result s).turns = s.turns := by cases result <;> rfl
@[simp] theorem complete_freeCtr : (complete op result s).freeCtr = s.freeCtr + 1 := by cases result <;> rfl

/-! ### Soft reset (R342) -/

@[simp] theorem softReset_params : (softReset s).params = s.params := rfl
@[simp] theorem softReset_regs : (softReset s).regs = Regs.reset := rfl
@[simp] theorem softReset_lmem : (softReset s).lmem = if s.regs.busy then memScramble s.params.lmemSize s.freeCtr s.lmem (abandonedAddrs s)
      else s.lmem := rfl
@[simp] theorem softReset_lmemEpoch : (softReset s).lmemEpoch = s.lmemEpoch := rfl
@[simp] theorem softReset_seq : (softReset s).seq = .idle := rfl
@[simp] theorem softReset_internals : (softReset s).internals = Config.freeInternals s.freeCtr := rfl
@[simp] theorem softReset_host : (softReset s).host = s.host := rfl
@[simp] theorem softReset_received : (softReset s).received = s.received := rfl
@[simp] theorem softReset_turns : (softReset s).turns = s.turns := rfl
@[simp] theorem softReset_freeCtr : (softReset s).freeCtr = s.freeCtr + 1 := rfl

/-! ### Hard reset (R341) -/

@[simp] theorem hardReset_params : (hardReset s).params = s.params := rfl
@[simp] theorem hardReset_regs : (hardReset s).regs = Regs.reset := rfl
@[simp] theorem hardReset_lmem : (hardReset s).lmem = [] := rfl
@[simp] theorem hardReset_lmemEpoch : (hardReset s).lmemEpoch = s.freeCtr := rfl
@[simp] theorem hardReset_seq : (hardReset s).seq = .idle := rfl
@[simp] theorem hardReset_internals : (hardReset s).internals = Config.freeInternals s.freeCtr := rfl
@[simp] theorem hardReset_host : (hardReset s).host = s.host := rfl
@[simp] theorem hardReset_received : (hardReset s).received = s.received := rfl
@[simp] theorem hardReset_turns : (hardReset s).turns = s.turns := rfl
@[simp] theorem hardReset_freeCtr : (hardReset s).freeCtr = s.freeCtr + 1 := rfl

/-! ### Host transactions: a value received, pending transactions -/

variable (reply : Reply) (ops : List HostOp) (hop : HostOp) (ts : List Turn)

/-! ### A value received -/

@[simp] theorem receive_params : (receive reply s).params = s.params := rfl
@[simp] theorem receive_regs : (receive reply s).regs = s.regs := rfl
@[simp] theorem receive_lmem : (receive reply s).lmem = s.lmem := rfl
@[simp] theorem receive_lmemEpoch : (receive reply s).lmemEpoch = s.lmemEpoch := rfl
@[simp] theorem receive_seq : (receive reply s).seq = s.seq := rfl
@[simp] theorem receive_internals : (receive reply s).internals = s.internals := rfl
@[simp] theorem receive_host : (receive reply s).host = s.host := rfl
@[simp] theorem receive_received : (receive reply s).received = reply :: s.received := rfl
@[simp] theorem receive_turns : (receive reply s).turns = s.turns := rfl
@[simp] theorem receive_freeCtr : (receive reply s).freeCtr = s.freeCtr := rfl

/-! ### Transactions put first -/

@[simp] theorem expandTo_params : (expandTo ops s).params = s.params := rfl
@[simp] theorem expandTo_regs : (expandTo ops s).regs = s.regs := rfl
@[simp] theorem expandTo_lmem : (expandTo ops s).lmem = s.lmem := rfl
@[simp] theorem expandTo_lmemEpoch : (expandTo ops s).lmemEpoch = s.lmemEpoch := rfl
@[simp] theorem expandTo_seq : (expandTo ops s).seq = s.seq := rfl
@[simp] theorem expandTo_internals : (expandTo ops s).internals = s.internals := rfl
@[simp] theorem expandTo_host : (expandTo ops s).host = ops ++ s.host := rfl
@[simp] theorem expandTo_received : (expandTo ops s).received = s.received := rfl
@[simp] theorem expandTo_turns : (expandTo ops s).turns = s.turns := rfl
@[simp] theorem expandTo_freeCtr : (expandTo ops s).freeCtr = s.freeCtr := rfl

/-! ### A host transaction to do -/

@[simp] theorem hostToDo_params : (hostToDo s hop ops ts).params = s.params := rfl
@[simp] theorem hostToDo_regs : (hostToDo s hop ops ts).regs = s.regs := rfl
@[simp] theorem hostToDo_lmem : (hostToDo s hop ops ts).lmem = s.lmem := rfl
@[simp] theorem hostToDo_lmemEpoch : (hostToDo s hop ops ts).lmemEpoch = s.lmemEpoch := rfl
@[simp] theorem hostToDo_seq : (hostToDo s hop ops ts).seq = s.seq := rfl
@[simp] theorem hostToDo_internals : (hostToDo s hop ops ts).internals = s.internals := rfl
@[simp] theorem hostToDo_host : (hostToDo s hop ops ts).host = hop :: ops := rfl
@[simp] theorem hostToDo_received : (hostToDo s hop ops ts).received = s.received := rfl
@[simp] theorem hostToDo_turns : (hostToDo s hop ops ts).turns = .host :: ts := rfl
@[simp] theorem hostToDo_freeCtr : (hostToDo s hop ops ts).freeCtr = s.freeCtr := rfl

/-! ### A host transaction done -/

@[simp] theorem hostDone_params : (hostDone s ops ts).params = s.params := rfl
@[simp] theorem hostDone_regs : (hostDone s ops ts).regs = s.regs := rfl
@[simp] theorem hostDone_lmem : (hostDone s ops ts).lmem = s.lmem := rfl
@[simp] theorem hostDone_lmemEpoch : (hostDone s ops ts).lmemEpoch = s.lmemEpoch := rfl
@[simp] theorem hostDone_seq : (hostDone s ops ts).seq = s.seq := rfl
@[simp] theorem hostDone_internals : (hostDone s ops ts).internals = s.internals := rfl
@[simp] theorem hostDone_host : (hostDone s ops ts).host = ops := rfl
@[simp] theorem hostDone_received : (hostDone s ops ts).received = s.received := rfl
@[simp] theorem hostDone_turns : (hostDone s ops ts).turns = ts := rfl
@[simp] theorem hostDone_freeCtr : (hostDone s ops ts).freeCtr = s.freeCtr := rfl

/-! ### Registers after a completion (R131, R133, R135) -/

@[simp] theorem okRegs_ie : (okRegs r o).ie = r.ie := rfl
@[simp] theorem okRegs_op : (okRegs r o).op = r.op := rfl
@[simp] theorem okRegs_contLzss : (okRegs r o).contLzss = r.contLzss := rfl
@[simp] theorem okRegs_busy : (okRegs r o).busy = false := rfl
@[simp] theorem okRegs_done : (okRegs r o).done = true := rfl
@[simp] theorem okRegs_trunc : (okRegs r o).trunc = o.trunc := rfl
@[simp] theorem okRegs_err : (okRegs r o).err = 0 := rfl
@[simp] theorem okRegs_errInfo : (okRegs r o).errInfo = 0 := rfl
@[simp] theorem okRegs_srcAddr : (okRegs r o).srcAddr = r.srcAddr := rfl
@[simp] theorem okRegs_srcLen : (okRegs r o).srcLen = r.srcLen := rfl
@[simp] theorem okRegs_dstAddr : (okRegs r o).dstAddr = r.dstAddr := rfl
@[simp] theorem okRegs_dstCap : (okRegs r o).dstCap = r.dstCap := rfl
@[simp] theorem okRegs_auxAddr : (okRegs r o).auxAddr = r.auxAddr := rfl
@[simp] theorem okRegs_auxLen : (okRegs r o).auxLen = r.auxLen := rfl
@[simp] theorem okRegs_bitLen : (okRegs r o).bitLen = o.bitLen.getD r.bitLen := rfl
@[simp] theorem okRegs_outLen : (okRegs r o).outLen = BitVec.ofNat 32 o.primary.length := rfl
@[simp] theorem okRegs_auxOutLen : (okRegs r o).auxOutLen = BitVec.ofNat 32 o.aux.length := rfl
@[simp] theorem okRegs_imgWidth : (okRegs r o).imgWidth = (o.image.map ImageInfo.width).getD r.imgWidth := rfl
@[simp] theorem okRegs_imgHeight : (okRegs r o).imgHeight = (o.image.map ImageInfo.height).getD r.imgHeight := rfl
@[simp] theorem okRegs_metaWord : (okRegs r o).metaWord = (o.image.map ImageInfo.metaWord).getD r.metaWord := rfl
@[simp] theorem okRegs_metaIl : (okRegs r o).metaIl = (o.image.map ImageInfo.metaIl).getD r.metaIl := rfl
@[simp] theorem okRegs_result : (okRegs r o).result = o.result.getD r.result := rfl

/-! ### Registers after an error (R131, R134) -/

@[simp] theorem errRegs_ie : (errRegs r e).ie = r.ie := rfl
@[simp] theorem errRegs_op : (errRegs r e).op = r.op := rfl
@[simp] theorem errRegs_contLzss : (errRegs r e).contLzss = r.contLzss := rfl
@[simp] theorem errRegs_busy : (errRegs r e).busy = false := rfl
@[simp] theorem errRegs_done : (errRegs r e).done = true := rfl
@[simp] theorem errRegs_trunc : (errRegs r e).trunc = false := rfl
@[simp] theorem errRegs_err : (errRegs r e).err = e.code.toByte := rfl
@[simp] theorem errRegs_errInfo : (errRegs r e).errInfo = BitVec.ofNat 32 e.info := rfl
@[simp] theorem errRegs_srcAddr : (errRegs r e).srcAddr = r.srcAddr := rfl
@[simp] theorem errRegs_srcLen : (errRegs r e).srcLen = r.srcLen := rfl
@[simp] theorem errRegs_dstAddr : (errRegs r e).dstAddr = r.dstAddr := rfl
@[simp] theorem errRegs_dstCap : (errRegs r e).dstCap = r.dstCap := rfl
@[simp] theorem errRegs_auxAddr : (errRegs r e).auxAddr = r.auxAddr := rfl
@[simp] theorem errRegs_auxLen : (errRegs r e).auxLen = r.auxLen := rfl
@[simp] theorem errRegs_bitLen : (errRegs r e).bitLen = r.bitLen := rfl
@[simp] theorem errRegs_outLen : (errRegs r e).outLen = 0 := rfl
@[simp] theorem errRegs_auxOutLen : (errRegs r e).auxOutLen = 0 := rfl
@[simp] theorem errRegs_imgWidth : (errRegs r e).imgWidth = r.imgWidth := rfl
@[simp] theorem errRegs_imgHeight : (errRegs r e).imgHeight = r.imgHeight := rfl
@[simp] theorem errRegs_metaWord : (errRegs r e).metaWord = r.metaWord := rfl
@[simp] theorem errRegs_metaIl : (errRegs r e).metaIl = r.metaIl := rfl
@[simp] theorem errRegs_result : (errRegs r e).result = r.result := rfl

/-! ### Registers after an acknowledgement (R311) -/

@[simp] theorem acknowledge_ie : (acknowledge r).ie = r.ie := rfl
@[simp] theorem acknowledge_op : (acknowledge r).op = r.op := rfl
@[simp] theorem acknowledge_contLzss : (acknowledge r).contLzss = r.contLzss := rfl
@[simp] theorem acknowledge_busy : (acknowledge r).busy = r.busy := rfl
@[simp] theorem acknowledge_done : (acknowledge r).done = false := rfl
@[simp] theorem acknowledge_trunc : (acknowledge r).trunc = r.trunc := rfl
@[simp] theorem acknowledge_err : (acknowledge r).err = r.err := rfl
@[simp] theorem acknowledge_errInfo : (acknowledge r).errInfo = r.errInfo := rfl
@[simp] theorem acknowledge_srcAddr : (acknowledge r).srcAddr = r.srcAddr := rfl
@[simp] theorem acknowledge_srcLen : (acknowledge r).srcLen = r.srcLen := rfl
@[simp] theorem acknowledge_dstAddr : (acknowledge r).dstAddr = r.dstAddr := rfl
@[simp] theorem acknowledge_dstCap : (acknowledge r).dstCap = r.dstCap := rfl
@[simp] theorem acknowledge_auxAddr : (acknowledge r).auxAddr = r.auxAddr := rfl
@[simp] theorem acknowledge_auxLen : (acknowledge r).auxLen = r.auxLen := rfl
@[simp] theorem acknowledge_bitLen : (acknowledge r).bitLen = r.bitLen := rfl
@[simp] theorem acknowledge_outLen : (acknowledge r).outLen = r.outLen := rfl
@[simp] theorem acknowledge_auxOutLen : (acknowledge r).auxOutLen = r.auxOutLen := rfl
@[simp] theorem acknowledge_imgWidth : (acknowledge r).imgWidth = r.imgWidth := rfl
@[simp] theorem acknowledge_imgHeight : (acknowledge r).imgHeight = r.imgHeight := rfl
@[simp] theorem acknowledge_metaWord : (acknowledge r).metaWord = r.metaWord := rfl
@[simp] theorem acknowledge_metaIl : (acknowledge r).metaIl = r.metaIl := rfl
@[simp] theorem acknowledge_result : (acknowledge r).result = r.result := rfl

/-! ### Acceptance (R130) -/

theorem accept_of_busy (h : r.busy = true) : accept r = r := by simp [accept, h]

theorem accept_of_idle (h : r.busy = false) :
    accept r = { r with busy := true, done := false, trunc := false, err := 0, errInfo := 0 } := by
  simp [accept, h]

/-! ### The registers that claims name -/

/-- Error entry's registers, by code and information (R134). -/
theorem errRegs_eq_failedRegs : errRegs r e = failedRegs r e.code.toByte e.info := rfl

/-- A completion that names no result register leaves the registers of every completion (R133). -/
theorem okRegs_eq_doneRegs (primary aux : List Byte) (trunc : Bool) :
    okRegs r { primary := primary, aux := aux, trunc := trunc } =
      doneRegs r trunc primary.length aux.length := rfl

end Sys2Proof.Laws
end

