-- ==== Sys2Proof/Laws/Ops.lean ====
section
/-! SUPPORT. Each shared operation once: the operand checks, completion, error entry, the token and chunk sequencers. -/
namespace Sys2Proof.Laws
open Sys2Proof Sys2Proof.Machine

/-! ### Operand checks (R136 to R139) -/

@[simp] theorem inRange_iff (size : Nat) (r : Region) :
    r.inRange size = true ↔ r.addr + r.len ≤ size := by simp [Region.inRange]

theorem overlaps_iff (a b : Region) : a.overlaps b = true ↔
    0 < a.len ∧ 0 < b.len ∧ a.addr < b.addr + b.len ∧ b.addr < a.addr + a.len := by
  simp [Region.overlaps, and_assoc]

/-- A range check passes, or it is ERR_RANGE with its number before any stage (R136). -/
theorem rangeCheck_cases (size : Nat) (r : Region) (k : Nat) :
    r.inRange size = true ∧ rangeCheck size r k = .ok () ∨
      r.inRange size = false ∧ rangeCheck size r k = .error (earlyErr .range k) := by
  unfold rangeCheck
  cases r.inRange size <;> simp

/-- An overlap check passes, or it is ERR_RANGE with its number before any stage (R137). -/
theorem overlapCheck_cases (a b : Region) (k : Nat) :
    a.overlaps b = false ∧ overlapCheck a b k = .ok () ∨
      a.overlaps b = true ∧ overlapCheck a b k = .error (earlyErr .range k) := by
  unfold overlapCheck
  cases a.overlaps b <;> simp

/-- A capacity check passes, or it is ERR_CAPACITY with its number among the stages (R138, R139). -/
theorem capacityCheck_cases (n cap k : Nat) :
    n ≤ cap ∧ capacityCheck n cap k = .ok () ∨
      cap < n ∧ capacityCheck n cap k = .error (lateErr .capacity k) := by
  unfold capacityCheck
  split
  · exact .inl ⟨‹_›, rfl⟩
  · exact .inr ⟨by omega, rfl⟩

/-- The checks of SRC and DST pass on operands that fit, or are ERR_RANGE with LMEM kept. -/
theorem checkSrcDst_cases (s : State) :
    srcDstFit s ∧ checkSrcDst s = .ok () ∨
      ¬srcDstFit s ∧ ∃ k, checkSrcDst s = .error (earlyErr .range k) := by
  unfold checkSrcDst
  rcases rangeCheck_cases s.params.lmemSize (srcRegion s.regs) 1 with ⟨h1, e1⟩ | ⟨h1, e1⟩
  · rcases rangeCheck_cases s.params.lmemSize (dstRegion s.regs) 2 with ⟨h2, e2⟩ | ⟨h2, e2⟩
    · rcases overlapCheck_cases (srcRegion s.regs) (dstRegion s.regs) 4 with ⟨h3, e3⟩ | ⟨h3, e3⟩
      · exact .inl ⟨⟨h1, h2, h3⟩, by rw [e1, e2, e3]; rfl⟩
      · exact .inr ⟨fun h => Bool.false_ne_true (h.2.2.symm.trans h3), 4, by rw [e1, e2, e3]; rfl⟩
    · exact .inr ⟨fun h => Bool.false_ne_true (h2.symm.trans h.2.1), 2, by rw [e1, e2]; rfl⟩
  · exact .inr ⟨fun h => Bool.false_ne_true (h1.symm.trans h.1), 1, by rw [e1]; rfl⟩

/-- The checks with an input AUX pass on operands that fit, or are ERR_RANGE with LMEM kept. -/
theorem checkSrcDstAuxIn_cases (s : State) :
    (srcDstFit s ∧ auxFits s) ∧ checkSrcDstAuxIn s = .ok () ∨
      ¬(srcDstFit s ∧ auxFits s) ∧ ∃ k, checkSrcDstAuxIn s = .error (earlyErr .range k) := by
  unfold checkSrcDstAuxIn
  rcases rangeCheck_cases s.params.lmemSize (srcRegion s.regs) 1 with ⟨h1, e1⟩ | ⟨h1, e1⟩
  · rcases rangeCheck_cases s.params.lmemSize (dstRegion s.regs) 2 with ⟨h2, e2⟩ | ⟨h2, e2⟩
    · rcases rangeCheck_cases s.params.lmemSize (auxRegion s.regs) 3 with ⟨h3, e3⟩ | ⟨h3, e3⟩
      · rcases overlapCheck_cases (srcRegion s.regs) (dstRegion s.regs) 4 with ⟨h4, e4⟩ | ⟨h4, e4⟩
        · rcases overlapCheck_cases (auxRegion s.regs) (dstRegion s.regs) 5 with ⟨h5, e5⟩ | ⟨h5, e5⟩
          · exact .inl ⟨⟨⟨h1, h2, h4⟩, h3, h5⟩, by rw [e1, e2, e3, e4, e5]; rfl⟩
          · exact .inr ⟨fun h => Bool.false_ne_true (h.2.2.symm.trans h5), 5, by rw [e1, e2, e3, e4, e5]; rfl⟩
        · exact .inr ⟨fun h => Bool.false_ne_true (h.1.2.2.symm.trans h4), 4, by rw [e1, e2, e3, e4]; rfl⟩
      · exact .inr ⟨fun h => Bool.false_ne_true (h3.symm.trans h.2.1), 3, by rw [e1, e2, e3]; rfl⟩
    · exact .inr ⟨fun h => Bool.false_ne_true (h2.symm.trans h.1.2.1), 2, by rw [e1, e2]; rfl⟩
  · exact .inr ⟨fun h => Bool.false_ne_true (h1.symm.trans h.1.1), 1, by rw [e1]; rfl⟩

/-- The checks with an output AUX: those with an input AUX, then SRC against AUX (R137). -/
theorem checkSrcDstAuxOut_cases (s : State) :
    (srcDstFit s ∧ auxFits s ∧ (srcRegion s.regs).overlaps (auxRegion s.regs) = false) ∧
        checkSrcDstAuxOut s = .ok () ∨
      ¬(srcDstFit s ∧ auxFits s ∧ (srcRegion s.regs).overlaps (auxRegion s.regs) = false) ∧
        ∃ k, checkSrcDstAuxOut s = .error (earlyErr .range k) := by
  unfold checkSrcDstAuxOut
  rcases checkSrcDstAuxIn_cases s with ⟨⟨h1, h2⟩, e1⟩ | ⟨h1, k, e1⟩
  · rcases overlapCheck_cases (srcRegion s.regs) (auxRegion s.regs) 6 with ⟨h3, e3⟩ | ⟨h3, e3⟩
    · exact .inl ⟨⟨h1, h2, h3⟩, by rw [e1, e3]; rfl⟩
    · exact .inr ⟨fun h => Bool.false_ne_true (h.2.2.symm.trans h3), 6, by rw [e1, e3]; rfl⟩
  · exact .inr ⟨fun h => h1 ⟨h.1, h.2.1⟩, k, by rw [e1]; rfl⟩

/-! ### Completion (R131, R133, R143) -/

/-- A completion leaves the host's side as it was. -/
theorem complete_hostSideSame (op : BitVec 4) (r : CmdResult) (s : State) :
    hostSideSame s (complete op r s) := by
  cases r <;> exact ⟨rfl, rfl, rfl, rfl, rfl⟩

/-- A completion with a primary output that lies in LMEM writes exactly its bytes (R143). -/
theorem complete_ok_lmemHolds (op : BitVec 4) (s : State) (o : CmdOutput) (ha : o.aux = [])
    (hin : s.regs.dstAddr.toNat + o.primary.length ≤ s.params.lmemSize) :
    lmemHolds s (complete op (.ok o) s) s.regs.dstAddr.toNat o.primary := by
  intro a
  exact lmemByte_memWrite s _ s.lmem _ _ a (by simp [okMem, ha, memWrite]) (by simp) hin

/-- A completion with no output leaves LMEM as it was. -/
theorem complete_ok_lmemSame (op : BitVec 4) (s : State) (o : CmdOutput) (hp : o.primary = [])
    (ha : o.aux = []) : lmemSame s (complete op (.ok o) s) := by
  intro a
  exact lmemByte_congr _ _ _ (by simp [okMem, hp, ha, memWrite]) (by simp)

/-- An error of the checks leaves LMEM as it was (R143). -/
theorem complete_early_lmemSame (op : BitVec 4) (s : State) (code : ErrCode) (info : Nat) :
    lmemSame s (complete op (.error (earlyErr code info)) s) := fun _ => rfl

/-- The addresses of a command's outputs lie in its output regions and in LMEM. -/
theorem mem_outputAddrs (size : Nat) (op : BitVec 4) (r : Regs) (a : Nat) :
    a ∈ outputAddrs size op r ↔
      a < size ∧ ∃ g ∈ outputRegions op r, g.addr ≤ a ∧ a < g.addr + g.len := by
  simp only [outputAddrs, regionAddrs, List.mem_flatMap, List.mem_range'_1]
  constructor
  · rintro ⟨g, hg, h⟩
    exact ⟨by omega, g, hg, by omega⟩
  · rintro ⟨hs, g, hg, h⟩
    exact ⟨g, hg, by omega⟩

/-- Any error leaves LMEM as it was outside the command's output regions (R143). -/
theorem complete_error_lmemSameOutside (op : BitVec 4) (s : State) (e : CmdError) :
    lmemSameOutside s (complete op (.error e) s) (outputRegions op s.regs) := by
  intro a ha
  refine lmemByte_congr _ _ _ ?_ (by simp)
  rw [complete_error_lmem, errMem]
  split
  · rw [memLookup_memScramble, if_neg]
    rintro ⟨hm, -⟩
    obtain ⟨-, g, hg, h⟩ := (mem_outputAddrs ..).mp hm
    exact ha g hg h
  · rfl

/-! ### Sequencers (R134, R177, R247) -/

/-- After a token the decoder goes on, or the running command ends in error entry. -/
theorem afterToken_cases (r : Except CmdError TokenUnit) (s : State) :
    (∃ u, r = .ok u ∧ afterToken r s = { s with internals := { s.internals with tok := u } }) ∨
      ∃ e, r = .error e ∧ afterToken r s = complete s.regs.op (.error e) s := by
  cases r with
  | ok u => exact .inl ⟨u, rfl, rfl⟩
  | error e => exact .inr ⟨e, rfl, rfl⟩

/-- After a chunk the parser goes on, its loop ends, or the running command ends in error entry. -/
theorem afterChunk_cases (r : Except CmdError ChunkStep) (s : State) :
    (∃ u, r = .ok (.goOn u) ∧
        afterChunk r s = { s with internals := { s.internals with chunk := u } }) ∨
      (∃ u, r = .ok (.stop u) ∧
        afterChunk r s =
          chunksEnd false { s with internals := { s.internals with chunk := u } }) ∨
      ∃ e, r = .error e ∧ afterChunk r s = complete s.regs.op (.error e) s := by
  rcases r with e | u | u
  · exact .inr (.inr ⟨e, rfl, rfl⟩)
  · exact .inl ⟨u, rfl, rfl⟩
  · exact .inr (.inl ⟨u, rfl, rfl⟩)

/-- At the end of the chunk loop the command completes, or the token decoder takes the payload. -/
theorem chunksEnd_cases (trunc : Bool) (s : State) :
    (∃ r, chunksEnd trunc s = complete s.regs.op r s) ∨
      ∃ t, afterChunks s s.internals.chunk trunc = .ok (.tokens t) ∧
        chunksEnd trunc s =
          { s with
            seq := .tokens
            internals := { s.internals with tok := t, scratch := s.internals.chunk.payload } } := by
  unfold chunksEnd
  split
  · exact .inl ⟨_, rfl⟩
  · exact .inr ⟨_, ‹_›, rfl⟩
  · exact .inl ⟨_, rfl⟩

/-- A truncation from before the token loop is one after it, and changes nothing else (R306). -/
theorem tokenLoop_trunc (n : Nat) (u : TokenUnit) (b : Bool) :
    tokenLoop n { u with trunc := b || u.trunc } =
      (tokenLoop n u).map (fun x => (x.1, b || x.2)) := by
  induction n generalizing u with
  | zero => rfl
  | succ n ih =>
    unfold tokenLoop
    cases parseToken u.rest with
    | error e => cases e <;> simp [Except.map]
    | ok t =>
      have ha : applyToken t { u with trunc := b || u.trunc } =
          (applyToken t u).map (fun v => { v with trunc := b || v.trunc }) := by
        cases t with
        | lit c => rfl
        | copy o l =>
          simp only [applyToken, applyCopy]
          split <;> rfl
        | reserved tag => rfl
      simp only [ha]
      have hv : ∀ v, applyToken t u = .ok v → v.trunc = u.trunc := by
        intro v h
        cases t with
        | lit c => cases h; rfl
        | copy o l =>
          simp only [applyToken, applyCopy] at h
          split at h <;> cases h
          rfl
        | reserved tag => cases h
      cases h : applyToken t u with
      | error e => rfl
      | ok v => exact ih v

/-- The token loop over an intermediate: LzssDecompress of it, its truncation joined to what came
before (R285, R306). -/
theorem runTokens_tokenStart (stream : List Byte) (b : Bool) :
    runTokens (tokenStart stream b) =
      (lzssDecompress stream).map (fun x => (x.1, b || x.2)) := by
  have h := tokenLoop_trunc stream.length (tokenStart stream false) b
  simpa [tokenStart, runTokens, lzssDecompress] using h

/-- A token of a stream takes at least one byte of it (R94). -/
theorem parseToken_nonempty (bytes : List Byte) (t : Token) (h : parseToken bytes = .ok t) :
    ∃ tag rest, bytes = tag :: rest := by
  cases bytes with
  | nil => simp [parseToken] at h
  | cons tag rest => exact ⟨tag, rest, rfl⟩

/-- A chunk of a container takes its twelve bytes and its payload (R104, R247). -/
theorem parseChunk_length (bytes : List Byte) (c : Chunk) (h : parseChunk bytes = .ok c) :
    12 + c.payload.length ≤ bytes.length ∧ c.payload.length = (u32At bytes 0).toNat := by
  unfold parseChunk at h
  split at h
  · cases h
  · dsimp only at h
    split at h
    · cases h
    · cases h
      simp only [List.length_take, List.length_drop]
      omega

/-! ### Loads of a stage, and the host's gathered read -/

/-- What HUFF_DECODE loads starts with no candidate code (R45). -/
theorem startHuffDecode_cand (s : State) (u : BitUnit) (h : startHuffDecode s = .ok u) :
    u.cand = [] ∧ u.bitIndex = 0 ∧ u.out = [] := by
  unfold startHuffDecode at h
  cases hc : checkSrcDstAuxIn s with
  | error e => rw [hc] at h; cases h
  | ok _ =>
    rw [hc] at h
    cases hd : deserializeTable (memRead s (auxRegion s.regs)) with
    | error e => rw [hd] at h; cases h
    | ok table => rw [hd] at h; cases h; exact ⟨rfl, rfl, rfl⟩

/-- What UNPACK loads starts with no candidate code (R45). -/
theorem startUnpack_cand (s : State) (u : BitUnit) (h : startUnpack s = .ok u) :
    u.cand = [] ∧ u.bitIndex = 0 ∧ u.out = [] := by
  unfold startUnpack at h
  cases hc : checkSrcDst s with
  | error e => rw [hc] at h; cases h
  | ok _ =>
    rw [hc] at h
    simp only [openArchive, bind, Except.bind, pure, Except.pure] at h
    repeat' split at h
    all_goals first | (cases h; exact ⟨rfl, rfl, rfl⟩) | cases h

/-- A gathered read changes nothing but what the host has received (R63). -/
theorem gatherBytes_frame (width : AccessWidth) (s : State) :
    ∃ replies, gatherBytes width s = { s with received := replies } := by
  unfold gatherBytes
  split
  · exact ⟨_, rfl⟩
  · exact ⟨s.received, rfl⟩

end Sys2Proof.Laws
end

