-- ==== Sys2Proof/Laws/PerInstr.lean ====
section
/-! SUPPORT. Per instruction: its encoding has the size the instruction is said to occupy (R91, R94, R104, R110). -/
namespace Sys2Proof.Laws.EncodedSize
open Sys2Proof

/-- The encoding of the instruction occupies `Instr.size` bytes. -/
def Statement (i : Instr) : Prop := (encode i).size = i.size

/-- A chunk is twelve bytes and its payload (R104). -/
theorem encodeChunk_length (c : Chunk) : (encodeChunk c).length = 12 + c.payload.length := by
  simp [encodeChunk, be32]
  omega

theorem nop : Statement .nop := rfl

theorem lzssCompress : Statement .lzssCompress := rfl

theorem lzssDecompress : Statement .lzssDecompress := rfl

theorem huffEncode : Statement .huffEncode := rfl

theorem huffDecode : Statement .huffDecode := rfl

theorem pack : Statement .pack := rfl

theorem unpack : Statement .unpack := rfl

theorem contWrite : Statement .contWrite := rfl

theorem contRead : Statement .contRead := rfl

theorem crc32 : Statement .crc32 := rfl

theorem reservedCmdA : Statement .reservedCmdA := rfl

theorem reservedCmdB : Statement .reservedCmdB := rfl

theorem reservedCmdC : Statement .reservedCmdC := rfl

theorem reservedCmdD : Statement .reservedCmdD := rfl

theorem reservedCmdE : Statement .reservedCmdE := rfl

theorem reservedCmdF : Statement .reservedCmdF := rfl

theorem lit (b : Byte) : Statement (.lit b) := rfl

theorem matchToken (offset : BitVec 12) (lenField : BitVec 4) : Statement (.matchToken offset lenField) := rfl

theorem reservedTag02 (low : BitVec 1) : Statement (.reservedTag02 low) := rfl

theorem reservedTag04 (low : BitVec 2) : Statement (.reservedTag04 low) := rfl

theorem reservedTag08 (low : BitVec 3) : Statement (.reservedTag08 low) := rfl

theorem reservedTag10 (low : BitVec 4) : Statement (.reservedTag10 low) := rfl

theorem reservedTag20 (low : BitVec 5) : Statement (.reservedTag20 low) := rfl

theorem reservedTag40 (low : BitVec 6) : Statement (.reservedTag40 low) := rfl

theorem reservedTag80 (low : BitVec 7) : Statement (.reservedTag80 low) := rfl

theorem chunkIhdr (payload : List Byte) (crc : Word) : Statement (.chunkIhdr payload crc) := encodeChunk_length _

theorem chunkIdat (payload : List Byte) (crc : Word) : Statement (.chunkIdat payload crc) := encodeChunk_length _

theorem chunkIend (payload : List Byte) (crc : Word) : Statement (.chunkIend payload crc) := encodeChunk_length _

theorem chunkOther (tag : Word) (payload : List Byte) (crc : Word) : Statement (.chunkOther tag payload crc) := encodeChunk_length _

end Sys2Proof.Laws.EncodedSize
end

