-- ==== Sys2Proof/Laws/Stages.lean ====
section
/-! SUPPORT. The stages of an internal run, each run to its end: what the command's atomic step computes in one function is what the stage computes move by move (R45, R46). -/
namespace Sys2Proof.Laws
open Sys2Proof Sys2Proof.Machine

/-- Some number of steps from `s` answers `o`. -/
def Reaches (s : State) (o : Host.Outcome State Fault Refusal) : Prop :=
  ∃ n, Sys2Proof.core.run n s = o

theorem run_succ (M : Host.Core) (n : Nat) (s : M.State) :
    M.run (n + 1) s =
      match M.step s with
      | .next t => M.run n t
      | .fault r => .fault r
      | .refused r => .refused r := rfl

theorem Reaches.here (s : State) : Reaches s (.next s) := ⟨0, rfl⟩

theorem Reaches.after {s t : State} {o : Host.Outcome State Fault Refusal}
    (h : step s = .next t) (hr : Reaches t o) : Reaches s o := by
  obtain ⟨n, hn⟩ := hr
  have hs := run_succ Sys2Proof.core n s
  rw [show Sys2Proof.core.step s = .next t from h] at hs
  exact ⟨n + 1, hs.trans hn⟩

theorem Reaches.last {s t : State} (h : step s = .next t) : Reaches s (.next t) :=
  .after h (.here t)

/-- The state in the middle of an internal run: only the stage and the internals differ. -/
def inStage (s : State) (q : Sequencer) (x : Internals) : State :=
  { s with seq := q, internals := x }

/-- Completion forgets the stage and the internals. -/
@[simp] theorem complete_inStage (op : BitVec 4) (r : CmdResult) (s : State) (q : Sequencer)
    (x : Internals) : complete op r (inStage s q x) = complete op r s := by
  cases r <;> rfl

theorem Reaches.completed (op : BitVec 4) (r : CmdResult) (s : State) (q : Sequencer)
    (x : Internals) : Reaches (complete op r (inStage s q x)) (.next (complete op r s)) :=
  complete_inStage op r s q x ▸ .here _

variable {s : State} (hb : s.regs.busy = true) (ht : s.turns = [])
include hb ht

theorem step_inStage (q : Sequencer) (x : Internals) :
    step (inStage s q x) = engineStep (inStage s q x) := by
  simp [step, runStep, inStage, hb, ht]


/-! ### Token stage (R177) -/

/-- What follows the token loop, by command (R184, R255, R287). -/
def afterTokenLoop (s : State) (hdr : Option Ihdr) (out : List Byte) (trunc : Bool) : CmdResult :=
  if s.regs.op = 0x6 then finishUnpack s out trunc
  else if s.regs.op = 0x8 then finishContRead s hdr out trunc
  else finishLzssDecompress s out trunc

omit hb ht in
theorem finishTokens_inStage (q : Sequencer) (x : Internals) (trunc : Bool) :
    finishTokens (inStage s q x) trunc = afterTokenLoop s x.chunk.hdr x.tok.out trunc := rfl

omit hb ht in
theorem exec_token (t : Token) (s : State) :
    exec t.toInstr s = .next (afterToken (applyToken t s.internals.tok) s) := by
  cases t with
  | lit b => rfl
  | copy o l => rfl
  | reserved tag =>
    show exec (reservedInstr tag) s = _
    unfold reservedInstr
    split_ifs <;> rfl

omit hb ht in
theorem applyToken_shorter (t : Token) (u v : TokenUnit) (hp : parseToken u.rest = .ok t)
    (h : applyToken t u = .ok v) : v.rest.length < u.rest.length := by
  obtain ⟨tag, more, hr⟩ := parseToken_nonempty _ _ hp
  cases t with
  | lit b => cases h; simp [hr]
  | copy o l =>
    simp only [applyToken, applyCopy] at h
    split at h
    · cases h
    · cases h; simp [hr]
  | reserved tag => cases h

/-- The token stage performs, token by token, the token loop, and then the rest of the command. -/
theorem tokens_reach (n : Nat) (x : Internals) (hn : x.tok.rest.length ≤ n) :
    Reaches (inStage s .tokens x) (.next (complete s.regs.op (do
      let (out, trunc) ← tokenLoop n x.tok
      afterTokenLoop s x.chunk.hdr out trunc) s)) := by
  induction n generalizing x with
  | zero =>
    have hx : x.tok.rest = [] := List.length_eq_zero_iff.mp (by omega)
    apply Reaches.last
    rw [step_inStage hb ht, engineStep, fetch]
    simp [inStage, hx, decodeToken, parseToken, tokenLoop]
    rfl
  | succ n ih =>
    have hstep := step_inStage hb ht .tokens x
    unfold engineStep fetch at hstep
    simp only [inStage, decodeToken] at hstep
    cases hp : parseToken x.tok.rest with
    | error e =>
      apply Reaches.last
      rw [hp] at hstep
      simp only [tokenLoop, hp]
      cases e <;> exact hstep.trans (by simp; rfl)
    | ok t =>
      rw [hp] at hstep
      simp only [tokenLoop, hp]
      have hst : step (inStage s .tokens x) =
          .next (afterToken (applyToken t x.tok) (inStage s .tokens x)) :=
        hstep.trans (exec_token t _)
      cases ha : applyToken t x.tok with
      | error e =>
        rw [ha] at hst
        exact .last (hst.trans (congrArg Host.Outcome.next
          (complete_inStage s.regs.op (.error e) s .tokens x)))
      | ok u =>
        rw [ha] at hst
        have := applyToken_shorter t _ _ hp ha
        exact .after hst (ih { x with tok := u } (by show u.rest.length ≤ n; omega))

/-! ### Chunk stage (R247) -/

/-- What follows the chunk loop (R255): the command's result, or the token loop over the payload. -/
def afterChunkLoop (s : State) (u : ChunkUnit) (trunc : Bool) : CmdResult := do
  match ← afterChunks s u trunc with
  | .done o => return o
  | .tokens t =>
    let (rows, tr1) ← runTokens t
    afterTokenLoop s u.hdr rows tr1

theorem chunksEnd_reach (x : Internals) (trunc : Bool) (q : Sequencer) :
    Reaches (chunksEnd trunc (inStage s q x))
      (.next (complete s.regs.op (afterChunkLoop s x.chunk trunc) s)) := by
  have he : chunksEnd trunc (inStage s q x) = match afterChunks s x.chunk trunc with
    | .ok (.done o) => complete s.regs.op (.ok o) (inStage s q x)
    | .ok (.tokens t) => inStage s .tokens { x with tok := t, scratch := x.chunk.payload }
    | .error e => complete s.regs.op (.error e) (inStage s q x) := rfl
  rw [he]
  unfold afterChunkLoop
  cases afterChunks s x.chunk trunc with
  | error e => exact .completed ..
  | ok a =>
    cases a with
    | done o => exact .completed ..
    | tokens t => exact tokens_reach hb ht _ { x with tok := t, scratch := x.chunk.payload } le_rfl

omit hb ht in
theorem exec_chunk (c : Chunk) (s : State) :
    exec c.toInstr s = .next (afterChunk (applyChunk c s.internals.chunk) s) := by
  obtain ⟨tag, payload, crc⟩ := c
  simp only [Chunk.toInstr, applyChunk]
  split_ifs <;> rfl

omit hb ht in
theorem applyChunk_shorter (c : Chunk) (u v : ChunkUnit) (hp : parseChunk u.rest = .ok c)
    (h : applyChunk c u = .ok (.goOn v)) : v.rest.length < u.rest.length := by
  have hl := (parseChunk_length _ _ hp).1
  have hv : v.rest = u.rest.drop (12 + c.payload.length) := by
    simp only [applyChunk, applyIhdr, applyIdat, applyIend, applyOther, crcCheck, bind,
      Except.bind] at h
    split_ifs at h <;> cases h <;> rfl
  rw [hv, List.length_drop]
  omega

theorem step_chunksEnd (x : Internals) (e : DecodeError) (hp : parseChunk x.chunk.rest = .error e) :
    step (inStage s .chunks x) = .next (chunksEnd true (inStage s .chunks x)) := by
  rw [step_inStage hb ht]
  unfold engineStep fetch
  simp only [inStage, decodeChunk, hp]

theorem step_chunk (x : Internals) (c : Chunk) (hp : parseChunk x.chunk.rest = .ok c) :
    step (inStage s .chunks x) =
      .next (afterChunk (applyChunk c x.chunk) (inStage s .chunks x)) := by
  rw [step_inStage hb ht]
  unfold engineStep fetch
  simp only [inStage, decodeChunk, hp]
  exact exec_chunk c _

/-- The chunk stage performs, chunk by chunk, the chunk loop, and then the rest of the command. -/
theorem chunks_reach (n : Nat) (x : Internals) (hn : x.chunk.rest.length ≤ n) :
    Reaches (inStage s .chunks x) (.next (complete s.regs.op (do
      let (u, trunc) ← chunkLoop n x.chunk
      afterChunkLoop s u trunc) s)) := by
  induction n generalizing x with
  | zero =>
    have hx : x.chunk.rest = [] := List.length_eq_zero_iff.mp (by omega)
    exact .after (step_chunksEnd hb ht x .chunkHeaderCutShort (by rw [hx]; rfl))
      (chunksEnd_reach hb ht x true .chunks)
  | succ n ih =>
    cases hp : parseChunk x.chunk.rest with
    | error e =>
      simp only [chunkLoop, hp]
      exact .after (step_chunksEnd hb ht x e hp) (chunksEnd_reach hb ht x true .chunks)
    | ok c =>
      have hst := step_chunk hb ht x c hp
      simp only [chunkLoop, hp]
      cases ha : applyChunk c x.chunk with
      | error e =>
        rw [ha] at hst
        exact .after hst (.completed s.regs.op (.error e) s .chunks x)
      | ok r =>
        rw [ha] at hst
        cases r with
        | goOn u =>
          have := applyChunk_shorter c _ _ hp ha
          exact .after hst (ih { x with chunk := u } (by show u.rest.length ≤ n; omega))
        | stop u =>
          exact .after hst (chunksEnd_reach hb ht { x with chunk := u } false .chunks)

/-! ### Huffman decoder stage (R209) -/

/-- What follows the bitstream decoder, by command (R213, R287). -/
def afterBitLoop (s : State) (hdr : Option Ihdr) (out : List Byte) (trunc : Bool) : CmdResult :=
  if s.regs.op = 0x6 then do
    let u ← afterUnpackBits s out trunc
    let (o, t) ← runTokens u
    afterTokenLoop s hdr o t
  else finishHuffDecode s out trunc

theorem bitsEnd_reach (x : Internals) (out : List Byte) (trunc : Bool) :
    Reaches (bitsEnd (inStage s .bits x) out trunc)
      (.next (complete s.regs.op (afterBitLoop s x.chunk.hdr out trunc) s)) := by
  have hx : (inStage s .bits x).regs = s.regs := rfl
  have ha : afterUnpackBits (inStage s .bits x) out trunc = afterUnpackBits s out trunc := rfl
  unfold bitsEnd afterBitLoop
  rw [hx]
  by_cases h : s.regs.op = 0x6
  · rw [if_pos h, if_pos h, ha]
    cases afterUnpackBits s out trunc with
    | error e => exact .completed s.regs.op (.error e) s .bits x
    | ok u => exact tokens_reach hb ht _ { x with tok := u, scratch := out } le_rfl
  · rw [if_neg h, if_neg h]
    exact .completed s.regs.op (finishHuffDecode s out trunc) s .bits x

omit hb ht in
/-- A candidate that fills its register never matches again: the rest of the bits emit nothing
(R101, R209, R210). -/
theorem decodeBits_full (table : List Entry) (bits cand : Bits) (out : List Byte)
    (hc : 255 ≤ cand.length) : decodeBits table bits cand out = (out, true) := by
  induction bits generalizing cand with
  | nil =>
    cases cand with
    | nil => simp at hc
    | cons c cand => rfl
  | cons b bits ih =>
    have hl : (pushBit cand b).length = cand.length + 1 := by simp [pushBit]
    have hm : matchEntry table (pushBit cand b) = none := by
      refine List.find?_eq_none.mpr fun e _ he => ?_
      have := e.len.isLt
      simp only [Bool.and_eq_true, beq_iff_eq] at he
      omega
    simp only [decodeBits, hm]
    exact ih _ (by omega)

omit hb ht in
/-- One bit leaves the result of the run alone, and fewer bits are left. -/
theorem runBits_pastBit (u : BitUnit) (b : Bool) (bits : Bits) (hu : u.rest = b :: bits) :
    runBits (pastBit b bits u) = runBits u ∧ (pastBit b bits u).rest.length < u.rest.length := by
  unfold pastBit
  split
  · rename_i h
    simp [runBits, decodeBits_full _ _ _ _ h, hu]
  · split <;> simp [runBits, decodeBits, *]

/-- The Huffman decoder stage performs, bit by bit, the decoder, and then the rest of the command. -/
theorem bits_reach (n : Nat) (x : Internals) (hn : x.bits.rest.length ≤ n) :
    Reaches (inStage s .bits x) (.next (complete s.regs.op
      (afterBitLoop s x.chunk.hdr (runBits x.bits).1 (runBits x.bits).2) s)) := by
  have hst : step (inStage s .bits x) = .next (bitsStep (inStage s .bits x)) :=
    step_inStage hb ht .bits x
  cases hbits : x.bits.rest with
  | nil =>
    have he : bitsStep (inStage s .bits x) =
        bitsEnd (inStage s .bits x) (runBits x.bits).1 (runBits x.bits).2 := by
      simp [bitsStep, inStage, hbits, runBits, decodeBits]
    exact .after (hst.trans (congrArg _ he)) (bitsEnd_reach hb ht x _ _)
  | cons b bits =>
    have he : bitsStep (inStage s .bits x) =
        inStage s .bits { x with bits := pastBit b bits x.bits } := by
      simp [bitsStep, inStage, hbits]
    obtain ⟨hr, hl⟩ := runBits_pastBit x.bits b bits hbits
    cases n with
    | zero => omega
    | succ n =>
      have := bits_reach n { x with bits := pastBit b bits x.bits }
        (by show (pastBit b bits x.bits).rest.length ≤ n; omega)
      rw [← hr]
      exact .after (hst.trans (congrArg _ he)) this

/-! ### LZSS encoder stage (R174) -/

omit hb ht in
theorem span_pos (d : List Byte) (p : Nat) : 1 ≤ Token.span (tokenAt d p) := by
  unfold tokenAt
  dsimp only
  split <;> simp [Token.span]

/-- The encoder stage writes, token by token, the tokens from its position on, and then ends. -/
theorem encoder_reach (n : Nat) (x : Internals) (o : Host.Outcome State Fault Refusal)
    (hn : (encoderInput (inStage s .encoder x)).length - x.enc.pos ≤ n)
    (hend : ∀ p, Reaches (encoderEnd (inStage s .encoder { x with enc := ⟨p, x.enc.out ++
      (tokensFrom (encoderInput (inStage s .encoder x)) n x.enc.pos).flatMap encodeToken⟩ })) o) :
    Reaches (inStage s .encoder x) o := by
  have hst : step (inStage s .encoder x) = .next (encoderStep (inStage s .encoder x)) :=
    step_inStage hb ht .encoder x
  by_cases hp : x.enc.pos < (encoderInput (inStage s .encoder x)).length
  · cases n with
    | zero => omega
    | succ n =>
      have := span_pos (encoderInput (inStage s .encoder x)) x.enc.pos
      have he : encoderStep (inStage s .encoder x) = inStage s .encoder { x with enc :=
          ⟨x.enc.pos + Token.span (tokenAt (encoderInput (inStage s .encoder x)) x.enc.pos),
            x.enc.out ++ encodeToken (tokenAt (encoderInput (inStage s .encoder x)) x.enc.pos)⟩ } := by
        unfold encoderStep
        rw [show (inStage s .encoder x).internals.enc = x.enc from rfl, encodeOne, if_pos hp]
        rfl
      refine .after (hst.trans (congrArg _ he)) (encoder_reach n _ o ?_ ?_)
      · show (encoderInput (inStage s .encoder x)).length - (x.enc.pos + _) ≤ n
        omega
      · intro p
        have hd : ∀ u, encoderInput (inStage s .encoder { x with enc := u }) =
            encoderInput (inStage s .encoder x) := fun _ => rfl
        simpa [tokensFrom, hp, hd] using hend p
  · have he : encoderStep (inStage s .encoder x) = encoderEnd (inStage s .encoder x) := by
      unfold encoderStep
      rw [show (inStage s .encoder x).internals.enc = x.enc from rfl, encodeOne, if_neg hp]
    refine .after (hst.trans (congrArg _ he)) ?_
    have := hend x.enc.pos
    cases n <;> simpa [tokensFrom, hp] using this

/-! ### Huffman coder stages (R200 to R206) -/

/-- What follows the Huffman coder, by command (R212, R286). -/
def afterCoder (s : State) (bits : Bits) (ct : CodeTable) : CmdResult :=
  if s.regs.op = 0x5 then finishPack s bits ct else finishHuffEncode s bits ct

/-- The tree builder stage performs, merge by merge, the merge loop, and then ends. -/
theorem build_reach (n : Nat) (x : Internals) (q : List HuffNode)
    (o : Host.Outcome State Fault Refusal) (hx : Holds x q) (hn : q.length ≤ n + 1)
    (hend : ∀ arena queue k, Holds { x with arena := arena, queue := queue, nextSeq := k }
        (mergeLoop n x.nextSeq q) →
      Reaches (inStage s .codes { x with arena := arena, queue := queue, nextSeq := k }) o) :
    Reaches (inStage s .build x) o := by
  have hst : step (inStage s .build x) = .next (buildStep (inStage s .build x)) :=
    step_inStage hb ht .build x
  have hb : buildStep (inStage s .build x) = match mergeOnce x with
    | some y => inStage s .build y
    | none => inStage s .codes x := rfl
  match q, n with
  | a :: b :: q, 0 => simp at hn
  | a :: b :: q, n + 1 =>
    obtain ⟨arena, queue, hm, hy⟩ := mergeOnce_holds hx
    rw [hm] at hb
    refine .after (hst.trans (congrArg _ hb)) (build_reach n _ _ o hy ?_ ?_)
    · simpa using hn
    · intro arena' queue' k h
      exact hend arena' queue' k h
  | [], n =>
    rw [mergeOnce_none hx (by simp)] at hb
    exact .after (hst.trans (congrArg _ hb))
      (hend x.arena x.queue x.nextSeq (by cases n <;> exact hx))
  | [a], n =>
    rw [mergeOnce_none hx (by simp)] at hb
    exact .after (hst.trans (congrArg _ hb))
      (hend x.arena x.queue x.nextSeq (by cases n <;> exact hx))

theorem emit_reach (x : Internals) (d : List Byte) (hd : coderInput (inStage s .emit x) = d) :
    Reaches (inStage s .emit x)
      (.next (complete s.regs.op (afterCoder s (encodeBits x.codes d) x.codes) s)) := by
  subst hd
  have hst : step (inStage s .emit x) = .next (emitStep (inStage s .emit x)) :=
    step_inStage hb ht .emit x
  refine .after hst ?_
  have hr : (inStage s .emit x).regs = s.regs := rfl
  unfold emitStep afterCoder
  rw [hr]
  by_cases h : s.regs.op = 0x5
  · rw [if_pos h, if_pos h]
    exact .completed s.regs.op (finishPack s _ x.codes) s .emit x
  · rw [if_neg h, if_neg h]
    exact .completed s.regs.op (finishHuffEncode s _ x.codes) s .emit x

/-- The coder's stages run to the end of the command: count, leaves, merges, codes, bits. -/
theorem coder_reach (x : Internals) (d : List Byte) (hd : coderInput (inStage s .count x) = d)
    (hlen : d.length < 2 ^ 32) :
    Reaches (inStage s .count x) (.next (complete s.regs.op
      (afterCoder s (huffmanEncode d).1 (huffmanEncode d).2) s)) := by
  have h1 : step (inStage s .count x) = .next (inStage s .leaves { x with freq := freqTable d }) :=
    hd ▸ step_inStage hb ht .count x
  have hl := arenaLeaves_length (freqTable d)
  rw [funext (tableCount_freqTable d hlen)] at hl
  have h2 : step (inStage s .leaves { x with freq := freqTable d }) =
      .next (inStage s .build { x with
        freq := freqTable d
        arena := arenaLeaves (freqTable d)
        queue := (List.range (arenaLeaves (freqTable d)).length).foldr
          (enqueueIndex (arenaLeaves (freqTable d))) []
        nextSeq := (leavesOf (freqOf d)).length }) := by
    rw [← hl]
    exact step_inStage hb ht .leaves _
  have h3 : ∀ y, step (inStage s .codes y) =
      .next (inStage s .emit { y with codes := arenaCodes y.arena y.queue }) :=
    fun y => step_inStage hb ht .codes y
  refine .after h1 (.after h2 (build_reach hb ht (leavesOf (freqOf d)).length _ _ _
    (leaves_holds _ d hlen rfl rfl) ?_ ?_))
  · simp [foldr_enqueue_length]
  · intro arena queue k h
    have hc := arenaCodes_holds h
    refine .after (h3 _) ?_
    rw [hc]
    refine emit_reach hb ht _ d ?_
    rw [← hd]
    rfl

/-! ### Signature stage (R246) -/

/-- The signature stage checks the signature, then the chunk stage runs, then the rest of the command. -/
theorem signature_reach (x : Internals) :
    Reaches (inStage s .signature x) (.next (complete s.regs.op (do
      let u ← passSignature x.chunk
      let (v, trunc) ← runChunks u
      afterChunkLoop s v trunc) s)) := by
  have hst : step (inStage s .signature x) = .next (signatureStep (inStage s .signature x)) :=
    step_inStage hb ht .signature x
  have hs : signatureStep (inStage s .signature x) = match passSignature x.chunk with
    | .ok u => inStage s .chunks { x with chunk := u }
    | .error e => complete s.regs.op (.error e) (inStage s .signature x) := rfl
  refine .after hst ?_
  rw [hs]
  cases passSignature x.chunk with
  | error e => exact .completed ..
  | ok u => exact chunks_reach hb ht _ { x with chunk := u } le_rfl

end Sys2Proof.Laws
end

