-- ==== Sys2Proof/Tests/Slice0.lean ====
section
/-! SUPPORT. Tests on fixed values: decoding of words written out from the spec, well-formedness, and steps on the vectors of 95_test_vectors.md. -/
namespace Sys2Proof.Tests
open Sys2Proof Sys2Proof.Machine

set_option Elab.async false

/-- The parameters of 95_test_vectors.md: LMEM_SIZE 4096, SCRATCH_SIZE 2^20, ARCHIVE_MAGIC "MMMM". -/
def testParams : Params := ⟨4095, 0x100000, 0x4D4D4D4D, 0x10000, 0x20000, .little⟩

/-- The state after reset with those parameters, no unspecified internal state, and LMEM given at address 0. -/
def start (mem : List Byte) : State :=
  { State.reset with params := testParams, internals := default, lmem := memWrite 4096 [] 0 mem }

/-- Operand registers for a command. -/
def regsFor (srcAddr srcLen dstAddr dstCap : Word) : Regs :=
  { Regs.reset with srcAddr := srcAddr, srcLen := srcLen, dstAddr := dstAddr, dstCap := dstCap, busy := true }

/-- The state a command starts from. -/
def ready (mem : List Byte) (r : Regs) : State := { start mem with regs := r }

/-- The next state, or the state itself where there is none. -/
def after (o : Host.Outcome State Fault Refusal) (s : State) : State :=
  match o with
  | .next t => t
  | _ => s

/-- STATUS, ERR_INFO, OUT_LEN and the primary output after an instruction. -/
def outcome (i : Instr) (s : State) : Word × Word × Word × List Byte :=
  let t := after (exec i s) s
  (statusWord t.regs, t.regs.errInfo, t.regs.outLen, memRead t ⟨t.regs.dstAddr.toNat, t.regs.outLen.toNat⟩)

/-- The error of a result. -/
def errOf {α : Type} : Except CmdError α → Option CmdError
  | .ok _ => none
  | .error e => some e

/-! ### Decoding, from the spec's encodings -/

/-- R92 -/
theorem test_decode_nop : decode (.command 0x00000000) = .ok .nop := rfl

/-- R92 -/
theorem test_decode_lzssCompress : decode (.command 0x00000001) = .ok .lzssCompress := rfl

/-- R92 -/
theorem test_decode_lzssDecompress : decode (.command 0x00000002) = .ok .lzssDecompress := rfl

/-- R92 -/
theorem test_decode_huffEncode : decode (.command 0x00000003) = .ok .huffEncode := rfl

/-- R92 -/
theorem test_decode_huffDecode : decode (.command 0x00000004) = .ok .huffDecode := rfl

/-- R92 -/
theorem test_decode_pack : decode (.command 0x00000005) = .ok .pack := rfl

/-- R92 -/
theorem test_decode_unpack : decode (.command 0x00000006) = .ok .unpack := rfl

/-- R92 -/
theorem test_decode_contWrite : decode (.command 0x00000007) = .ok .contWrite := rfl

/-- R92 -/
theorem test_decode_contRead : decode (.command 0x00000008) = .ok .contRead := rfl

/-- R92 -/
theorem test_decode_crc32 : decode (.command 0x00000009) = .ok .crc32 := rfl

/-- R93 -/
theorem test_decode_reservedCmdA : decode (.command 0x0000000A) = .ok .reservedCmdA := rfl

/-- R93 -/
theorem test_decode_reservedCmdB : decode (.command 0x0000000B) = .ok .reservedCmdB := rfl

/-- R93 -/
theorem test_decode_reservedCmdC : decode (.command 0x0000000C) = .ok .reservedCmdC := rfl

/-- R93 -/
theorem test_decode_reservedCmdD : decode (.command 0x0000000D) = .ok .reservedCmdD := rfl

/-- R93 -/
theorem test_decode_reservedCmdE : decode (.command 0x0000000E) = .ok .reservedCmdE := rfl

/-- R93 -/
theorem test_decode_reservedCmdF : decode (.command 0x0000000F) = .ok .reservedCmdF := rfl

/-- R91: bits 31:4 are never decoded. -/
theorem test_decode_reservedBitsIgnored : decode (.command 0xFFFFFFF6) = .ok .unpack := rfl

/-- R95 -/
theorem test_decode_lit : decode (.token [0x00, 0x7F, 0x55]) = .ok (.lit 0x7F) := rfl

/-- R96, R175: MATCH(4095, 3). -/
theorem test_decode_match : decode (.token [0x01, 0xFF, 0xF0]) = .ok (.matchToken 4095 0) := rfl

/-- R96, R175: MATCH(4, 18). -/
theorem test_decode_match_length : decode (.token [0x01, 0x00, 0x4F]) = .ok (.matchToken 4 15) := rfl

/-- R97 -/
theorem test_decode_tag02 : decode (.token [0x03]) = .ok (.reservedTag02 1) := rfl

/-- R97 -/
theorem test_decode_tag04 : decode (.token [0x06]) = .ok (.reservedTag04 2) := rfl

/-- R97 -/
theorem test_decode_tag08 : decode (.token [0x0D]) = .ok (.reservedTag08 5) := rfl

/-- R97 -/
theorem test_decode_tag10 : decode (.token [0x1A]) = .ok (.reservedTag10 10) := rfl

/-- R97 -/
theorem test_decode_tag20 : decode (.token [0x2B]) = .ok (.reservedTag20 11) := rfl

/-- R97 -/
theorem test_decode_tag40 : decode (.token [0x7F]) = .ok (.reservedTag40 63) := rfl

/-- R97 -/
theorem test_decode_tag80 : decode (.token [0x80]) = .ok (.reservedTag80 0) := rfl

/-- R182 -/
theorem test_decode_token_cutShort : decode (.token [0x01, 0x00]) = .error .tokenCutShort := rfl

/-- R104, R105, R244 -/
theorem test_decode_ihdr : (decode (.chunk [0x00, 0x00, 0x00, 0x0D, 0x49, 0x48, 0x44, 0x52, 0x00, 0x00, 0x00, 0x01, 0x00, 0x00, 0x00, 0x01, 0x08, 0x02, 0x01, 0x00, 0x00, 0x91, 0xB5, 0x39, 0xE9])).toOption =
    some (.chunkIhdr [0x00, 0x00, 0x00, 0x01, 0x00, 0x00, 0x00, 0x01, 0x08, 0x02, 0x01, 0x00, 0x00] 0x91B539E9) := by decide +kernel

/-- R104, R105, R244 -/
theorem test_decode_idat : (decode (.chunk [0x00, 0x00, 0x00, 0x08, 0x49, 0x44, 0x41, 0x54, 0x00, 0x00, 0x00, 0xFF, 0x00, 0x00, 0x00, 0x80, 0xC9, 0x94, 0x19, 0x2B])).toOption =
    some (.chunkIdat [0x00, 0x00, 0x00, 0xFF, 0x00, 0x00, 0x00, 0x80] 0xC994192B) := by decide +kernel

/-- R108 -/
theorem test_decode_iend : (decode (.chunk [0x00, 0x00, 0x00, 0x00, 0x49, 0x45, 0x4E, 0x44, 0xAE, 0x42, 0x60, 0x82])).toOption = some (.chunkIend [] 0xAE426082) := by decide +kernel

/-- R104, R105, vector CR-3 -/
theorem test_decode_other : (decode (.chunk [0x00, 0x00, 0x00, 0x02, 0x74, 0x45, 0x58, 0x74, 0x68, 0x69, 0x75, 0x69, 0xE6, 0xDF])).toOption = some (.chunkOther 0x74455874 [0x68, 0x69] 0x7569E6DF) := by decide +kernel

/-- R247 -/
theorem test_decode_chunk_cutShort : decode (.chunk [0x00, 0x00, 0x00, 0x01, 0x49, 0x45, 0x4E, 0x44, 0xAE, 0x42, 0x60, 0x82]) = .error .chunkCutShort := rfl

theorem test_table_unpack : decodeTableWord 32 0x6 = some .unpack := rfl

theorem test_table_match : decodeTableWord 24 0xF0FF01 = some (.matchToken 4095 0) := rfl

theorem test_table_pack : decodeTableWord 8 0x5 = some .pack := rfl

theorem test_table_tag : decodeTableWord 8 0x10 = some (.reservedTag10 0) := rfl

theorem test_table_ihdr : decodeTableWord 32 0x49484452 = some (.chunkIhdr [] 0) := by decide +kernel

theorem test_table_other : decodeTableWord 0 0 = some (.chunkOther 0 [] 0) := by decide +kernel

/-! ### Well-formedness -/

/-- An unknown chunk carries no known tag (R105). -/
theorem test_wf_otherTag : Instr.wellFormed (.chunkOther tagIhdr [] 0) = false := by decide +kernel

/-- A payload longer than the 4-byte length field is no encoding (R104). -/
theorem test_wf_payload : ∃ payload crc, Instr.wellFormed (.chunkIdat payload crc) = false := 
  ⟨List.replicate (2 ^ 32) 0, 0, by simp only [Instr.wellFormed, payloadFits, List.length_replicate]; decide⟩

theorem test_wf_payload_ihdr : ∃ payload crc, Instr.wellFormed (.chunkIhdr payload crc) = false := 
  ⟨List.replicate (2 ^ 32) 0, 0, by simp only [Instr.wellFormed, payloadFits, List.length_replicate]; decide⟩

theorem test_wf_payload_iend : ∃ payload crc, Instr.wellFormed (.chunkIend payload crc) = false := 
  ⟨List.replicate (2 ^ 32) 0, 0, by simp only [Instr.wellFormed, payloadFits, List.length_replicate]; decide⟩

theorem test_wf_payload_other : ∃ tag payload crc, isOtherTag tag = true ∧ Instr.wellFormed (.chunkOther tag payload crc) = false := 
  ⟨0, List.replicate (2 ^ 32) 0, 0, by decide, by simp only [Instr.wellFormed, payloadFits, List.length_replicate]; decide⟩

/-! ### Primitives (2.1) -/

/-- PRIM-8 -/
theorem test_packBits : packBits [true, true, false, true, true, true, true, true, true, true, false, true, false, true, false, false, false, false, false] = [0xDF, 0xD4, 0x00] := by decide +kernel

/-- PRIM-11 -/
theorem test_unpackBits : unpackBits [0xA5, 0x5A] 12 = [true, false, true, false, false, true, false, true, false, true, false, true] := by decide +kernel

/-- PRIM-14 -/
theorem test_crc32_check : crc32 [0x31, 0x32, 0x33, 0x34, 0x35, 0x36, 0x37, 0x38, 0x39] = 0xCBF43926 := by decide +kernel

/-! ### Commands (2.2 to 2.7) -/

/-- CMD-1 -/
theorem test_nop : outcome .nop (ready [] (regsFor 0 0 0 0)) = (0x00000002, 0, 0, []) := by decide +kernel

/-- CMD-2 -/
theorem test_reservedCmdA : (outcome .reservedCmdA (ready [] { regsFor 0 0 0 0 with op := 0xA })).1 = 0x00000102 := by decide +kernel

/-- CMD-18 -/
theorem test_reservedCmdF : (outcome .reservedCmdF (ready [] { regsFor 0 0 0 0 with op := 0xF })).2.1 = 0xF := by decide +kernel

/-- R157; DST is not checked (CMD-28) -/
theorem test_crc32 : (after (exec .crc32 (ready [0x49, 0x45, 0x4E, 0x44] (regsFor 0 4 0xFFFFFFFF 0xFFFFFFFF))) (start [])).regs.result = 0xAE426082 := by decide +kernel

/-- CMD-29 -/
theorem test_crc32_range : outcome .crc32 (ready [] (regsFor 4000 97 0 0)) = (0x00000202, 1, 0, []) := by decide +kernel

/-- LZ-13: the tie goes to the larger offset -/
theorem test_lzssCompress : outcome .lzssCompress
    (ready [0x41, 0x42, 0x43, 0x44, 0x41, 0x42, 0x43, 0x45, 0x41, 0x42, 0x43] (regsFor 0 11 0x200 0x40)) =
    (0x00000002, 0, 16, [0x00, 0x41, 0x00, 0x42, 0x00, 0x43, 0x00, 0x44, 0x01, 0x00, 0x40, 0x00, 0x45, 0x01, 0x00, 0x80]) := by decide +kernel

/-- LZ-9 -/
theorem test_lzssCompress_overlap : outcome .lzssCompress
    (ready [0x41, 0x41, 0x41, 0x41, 0x41, 0x41, 0x41, 0x41, 0x41, 0x41, 0x41, 0x41, 0x41, 0x41, 0x41, 0x41, 0x41, 0x41, 0x41, 0x41, 0x41, 0x41] (regsFor 0 22 0x200 0x40)) =
    (0x00000002, 0, 8, [0x00, 0x41, 0x01, 0x00, 0x1F, 0x01, 0x01, 0x30]) := by decide +kernel

/-- Program P5: overlapping match, cut-short last token -/
theorem test_lzssDecompress : outcome .lzssDecompress
    (ready [0x00, 0x41, 0x00, 0x42, 0x01, 0x00, 0x22, 0x01, 0x00] (regsFor 0 9 0x200 0x40)) =
    (0x00000006, 0, 7, [0x41, 0x42, 0x41, 0x42, 0x41, 0x42, 0x41]) := by decide +kernel

/-- LZD-18 -/
theorem test_lzssDecompress_badOffset : outcome .lzssDecompress
    (ready [0x00, 0x41, 0x00, 0x42, 0x01, 0x00, 0x20, 0x01, 0xFF, 0xF0] (regsFor 0 10 0x200 0x40)) =
    (0x00000702, 7, 0, []) := by decide +kernel

/-- HUF-5, R212 -/
theorem test_huffEncode : (let t := after (exec .huffEncode (ready [0x41, 0x42, 0x42, 0x43, 0x43, 0x43, 0x44, 0x44, 0x44, 0x44] { regsFor 0 10 0x200 16 with auxAddr := 0x300, auxLen := 64 })) (start [])
    (t.regs.bitLen, memRead t ⟨0x200, 3⟩, memRead t ⟨0x300, 14⟩)) =
    (19, [0xDF, 0xD4, 0x00], [0x00, 0x04, 0x41, 0x03, 0xC0, 0x42, 0x03, 0xE0, 0x43, 0x02, 0x80, 0x44, 0x01, 0x00]) := by decide +kernel

/-- HUF-8 -/
theorem test_huffEncode_tie : (let t := after (exec .huffEncode (ready [0x41, 0x42, 0x43] { regsFor 0 3 0x200 16 with auxAddr := 0x300, auxLen := 64 })) (start [])
    (t.regs.bitLen, memRead t ⟨0x200, 1⟩, memRead t ⟨0x300, 11⟩)) =
    (5, [0xB0], [0x00, 0x03, 0x41, 0x02, 0x80, 0x42, 0x02, 0xC0, 0x43, 0x01, 0x00]) := by decide +kernel

/-- HD-11 -/
theorem test_huffDecode : outcome .huffDecode (ready [0x40, 0x00, 0x02, 0x41, 0x01, 0x00, 0x42, 0x01, 0x80] { regsFor 0 1 0x200 16 with bitLen := 100, auxAddr := 1, auxLen := 8 }) =
    (0x00000006, 0, 8, [0x41, 0x42, 0x41, 0x41, 0x41, 0x41, 0x41, 0x41]) := by decide +kernel

/-- HD-12 -/
theorem test_huffDecode_badTable : outcome .huffDecode (ready [0x00, 0x01, 0x41, 0x09, 0x00] { regsFor 0 1 0x200 16 with bitLen := 3, auxLen := 5 }) =
    (0x00000802, 2, 0, []) := by decide +kernel

/-- PK-3 -/
theorem test_pack : outcome .pack
    (ready [0x41, 0x41, 0x41, 0x41, 0x41, 0x41, 0x41, 0x41, 0x41, 0x41] (regsFor 0 10 0x200 0x40)) =
    (0x00000002, 0, 28, [0x4D, 0x4D, 0x4D, 0x4D, 0x00, 0x00, 0x00, 0x0A, 0x00, 0x00, 0x00, 0x0E, 0x00, 0x04, 0x00, 0x02, 0xC0, 0x01, 0x02, 0x00, 0x16, 0x02, 0x40, 0x41, 0x02, 0x80, 0xE3, 0x40]) := by decide +kernel

/-- UP-1 -/
theorem test_unpack : outcome .unpack
    (ready [0x4D, 0x4D, 0x4D, 0x4D, 0x00, 0x00, 0x00, 0x0A, 0x00, 0x00, 0x00, 0x0E, 0x00, 0x04, 0x00, 0x02, 0xC0, 0x01, 0x02, 0x00, 0x16, 0x02, 0x40, 0x41, 0x02, 0x80, 0xE3] (regsFor 0 27 0x200 0x40)) =
    (0x00000006, 0, 1, [0x41]) := by decide +kernel

/-- UP-7 -/
theorem test_unpack_laterError : outcome .unpack
    (ready [0x4D, 0x4D, 0x4D, 0x4D, 0x00, 0x00, 0x01, 0x00, 0x00, 0x00, 0x00, 0x0E, 0x00, 0x04, 0x00, 0x02, 0xC0, 0x01, 0x02, 0x00, 0x16, 0x02, 0x40, 0x41, 0x02, 0x80, 0xE3, 0x40] (regsFor 0 28 0x200 0x40)) =
    (0x00000702, 5, 0, []) := by decide +kernel

/-- CW-1 -/
theorem test_contWrite : outcome .contWrite
    (ready [0xFF, 0x00, 0x80] ({ regsFor 0 3 0x200 0x100 with imgWidth := 1, imgHeight := 1 })) =
    (0x00000002, 0, 65, [0x89, 0x50, 0x4E, 0x47, 0x0D, 0x0A, 0x1A, 0x0A, 0x00, 0x00, 0x00, 0x0D, 0x49, 0x48, 0x44, 0x52, 0x00, 0x00, 0x00, 0x01, 0x00, 0x00, 0x00, 0x01, 0x08, 0x02, 0x01, 0x00, 0x00, 0x91, 0xB5, 0x39, 0xE9, 0x00, 0x00, 0x00, 0x08, 0x49, 0x44, 0x41, 0x54, 0x00, 0x00, 0x00, 0xFF, 0x00, 0x00, 0x00, 0x80, 0xC9, 0x94, 0x19, 0x2B, 0x00, 0x00, 0x00, 0x00, 0x49, 0x45, 0x4E, 0x44, 0xAE, 0x42, 0x60, 0x82]) := by decide +kernel

/-- CMD-24 -/
theorem test_contWrite_count : outcome .contWrite
    (ready [0xFF, 0x00, 0x80, 0x00] ({ regsFor 0 4 0x200 0x40 with imgWidth := 1, imgHeight := 1 })) =
    (0x00000C02, 2, 0, []) := by decide +kernel

/-- CR-6 -/
theorem test_contRead : outcome .contRead
    (ready [0x89, 0x50, 0x4E, 0x47, 0x0D, 0x0A, 0x1A, 0x0A, 0x00, 0x00, 0x00, 0x0D, 0x49, 0x48, 0x44, 0x52, 0x00, 0x00, 0x00, 0x01, 0x00, 0x00, 0x00, 0x01, 0x08, 0x02, 0x01, 0x00, 0x00, 0x91, 0xB5, 0x39, 0xE9, 0x00, 0x00, 0x00, 0x08, 0x49, 0x44, 0x41, 0x54, 0x00, 0x00, 0x00, 0xFF, 0x00, 0x00, 0x00, 0x80, 0xC9, 0x94, 0x19, 0x2B, 0x00, 0x00, 0x00, 0x00, 0x49, 0x45, 0x4E, 0x44, 0xAE, 0x42, 0x60] (regsFor 0 64 0x200 0x40)) =
    (0x00000006, 0, 3, [0xFF, 0x00, 0x80]) := by decide +kernel

/-- CR-3 -/
theorem test_contRead_meta : (let t := after (exec .contRead (ready [0x89, 0x50, 0x4E, 0x47, 0x0D, 0x0A, 0x1A, 0x0A, 0x00, 0x00, 0x00, 0x0D, 0x49, 0x48, 0x44, 0x52, 0x00, 0x00, 0x00, 0x01, 0x00, 0x00, 0x00, 0x01, 0x08, 0x02, 0x01, 0x00, 0x00, 0x91, 0xB5, 0x39, 0xE9, 0x00, 0x00, 0x00, 0x02, 0x74, 0x45, 0x58, 0x74, 0x68, 0x69, 0x75, 0x69, 0xE6, 0xDF, 0x00, 0x00, 0x00, 0x08, 0x49, 0x44, 0x41, 0x54, 0x00, 0x00, 0x00, 0xFF, 0x00, 0x00, 0x00, 0x80, 0xC9, 0x94, 0x19, 0x2B, 0x00, 0x00, 0x00, 0x00, 0x49, 0x45, 0x4E, 0x44, 0xAE, 0x42, 0x60, 0x82, 0xDE, 0xAD] (regsFor 0 81 0x200 64))) (start [])
    (statusWord t.regs, t.regs.imgWidth, t.regs.imgHeight, t.regs.metaWord, memRead t ⟨0x200, 3⟩)) =
    (0x00000002, 1, 1, 0x00010208, [0xFF, 0x00, 0x80]) := by decide +kernel

/-! ### Tokens and chunks, on the engine's own decoder and parser -/

/-- A state inside the token loop of LZSS_DECOMPRESS. -/
def inTokens (u : TokenUnit) : State :=
  { ready [] { regsFor 0 0 0x200 16 with op := 0x2 } with seq := .tokens, internals := { (default : Internals) with tok := u } }

/-- A state inside the chunk loop of CONT_READ. -/
def inChunks (u : ChunkUnit) : State :=
  { ready [] { regsFor 0 0 0x200 16 with op := 0x8 } with seq := .chunks, internals := { (default : Internals) with chunk := u } }

/-- R178 -/
theorem test_lit : (after (step (inTokens ⟨[0x00, 0x7F, 0x01], 4, [0x41], false⟩)) (start [])).internals.tok = ⟨[0x01], 6, [0x41, 0x7F], false⟩ := by decide +kernel

/-- R179: offset 2, length 5 -/
theorem test_match : (after (step (inTokens ⟨[0x01, 0x00, 0x22], 4, [0x41, 0x42], false⟩)) (start [])).internals.tok =
    ⟨[], 7, [0x41, 0x42, 0x41, 0x42, 0x41, 0x42, 0x41], false⟩ := by decide +kernel

/-- LZD-15 -/
theorem test_match_badOffset : (outcome (.matchToken 2 0) (inTokens ⟨[0x01, 0x00, 0x20], 2, [0x41], false⟩)).1 = 0x00000702 := by decide +kernel

/-- R180 -/
theorem test_reservedTag02 : (outcome (.reservedTag02 0) (inTokens ⟨[0x02], 5, [], false⟩)).2.1 = 5 := by decide +kernel

/-- R180 -/
theorem test_reservedTag04 : (outcome (.reservedTag04 0) (inTokens ⟨[0x04], 5, [], false⟩)).2.1 = 5 := by decide +kernel

/-- R180 -/
theorem test_reservedTag08 : (outcome (.reservedTag08 0) (inTokens ⟨[0x08], 5, [], false⟩)).2.1 = 5 := by decide +kernel

/-- R180 -/
theorem test_reservedTag10 : (outcome (.reservedTag10 0) (inTokens ⟨[0x10], 5, [], false⟩)).2.1 = 5 := by decide +kernel

/-- R180 -/
theorem test_reservedTag20 : (outcome (.reservedTag20 0) (inTokens ⟨[0x20], 5, [], false⟩)).2.1 = 5 := by decide +kernel

/-- R180 -/
theorem test_reservedTag40 : (outcome (.reservedTag40 0) (inTokens ⟨[0x40], 5, [], false⟩)).2.1 = 5 := by decide +kernel

/-- R180 -/
theorem test_reservedTag80 : (outcome (.reservedTag80 0) (inTokens ⟨[0x80], 5, [], false⟩)).2.1 = 5 := by decide +kernel

/-- R249 -/
theorem test_chunkIhdr : ((after (exec (.chunkIhdr [0x00, 0x00, 0x00, 0x01, 0x00, 0x00, 0x00, 0x01, 0x08, 0x02, 0x01, 0x00, 0x00] 0x91B539E9) (inChunks ⟨[0x00, 0x00, 0x00, 0x0D, 0x49, 0x48, 0x44, 0x52, 0x00, 0x00, 0x00, 0x01, 0x00, 0x00, 0x00, 0x01, 0x08, 0x02, 0x01, 0x00, 0x00, 0x91, 0xB5, 0x39, 0xE9], 8, none, []⟩)) (start [])).internals.chunk) =
    ⟨[], 33, some ⟨1, 1, 8, 2, 1, 0, 0⟩, []⟩ := by decide +kernel

/-- CR-13 -/
theorem test_chunkIhdr_twice : (outcome (.chunkIhdr [0x00, 0x00, 0x00, 0x01, 0x00, 0x00, 0x00, 0x01, 0x08, 0x02, 0x01, 0x00, 0x00] 0x91B539E9) (inChunks ⟨[], 33, some default, []⟩)) = (0x00000B02, 33, 0, []) := by decide +kernel

/-- R250 -/
theorem test_chunkIdat : ((after (exec (.chunkIdat [0x00, 0x00, 0x00, 0xFF, 0x00, 0x00, 0x00, 0x80] 0xC994192B) (inChunks ⟨[0x00, 0x00, 0x00, 0x08, 0x49, 0x44, 0x41, 0x54, 0x00, 0x00, 0x00, 0xFF, 0x00, 0x00, 0x00, 0x80, 0xC9, 0x94, 0x19, 0x2B], 33, some default, [0x07]⟩)) (start [])).internals.chunk.payload) =
    [0x07, 0x00, 0x00, 0x00, 0xFF, 0x00, 0x00, 0x00, 0x80] := by decide +kernel

/-- CR-11 -/
theorem test_chunkIdat_order : (outcome (.chunkIdat [0x00, 0x00, 0x00, 0xFF, 0x00, 0x00, 0x00, 0x80] 0xC994192B) (inChunks ⟨[], 8, none, []⟩)) = (0x00000B02, 8, 0, []) := by decide +kernel

/-- R251: the payload goes on to the token decoder -/
theorem test_chunkIend : (let t := after (exec (.chunkIend [] 0xAE426082) (inChunks ⟨[], 53, some ⟨1, 1, 8, 2, 1, 0, 0⟩, [0x00, 0x00]⟩)) (start [])
    (t.seq, t.internals.tok)) = (.tokens, ⟨[0x00, 0x00], 0, [], false⟩) := by decide +kernel

/-- R252 -/
theorem test_chunkOther : ((after (exec (.chunkOther 0x74455874 [0x68, 0x69] 0x7569E6DF) (inChunks ⟨[], 8, none, []⟩)) (start [])).internals.chunk.pos) = 22 := by decide +kernel

/-- R248 -/
theorem test_chunkOther_crc : (outcome (.chunkOther 0x74455874 [0x68, 0x6A] 0x7569E6DF) (inChunks ⟨[], 8, none, []⟩)) = (0x00000A02, 8, 0, []) := by decide +kernel

/-! ### Host, reset, interrupt (2.8) -/

/-- The state after one host transaction on an idle core. -/
def hostDoes (op : HostOp) (s : State) : State := after (step { s with host := [op] }) s

/-- RST-2, RST-4 -/
theorem test_softReset_ctrl3 : (hostDoes (.regWrite 0x04 .w32 0x3) { start [] with regs := { Regs.reset with srcLen := 5, ie := true } }).regs = Regs.reset := by decide +kernel

/-- R130, R22 -/
theorem test_acceptance : (hostDoes (.regWrite 0x04 .w32 0x5) { start [] with regs := { Regs.reset with done := true, err := 6, errInfo := 9 } }).regs = { Regs.reset with busy := true, ie := true } := by decide +kernel

/-- RST-5 -/
theorem test_operandLocked : (after (hostStep { ready [] (regsFor 0 5 0 0) with host := [.regWrite 0x1C .w32 99] }) (start [])).regs.srcLen = 5 := by decide +kernel

/-- RST-10 -/
theorem test_statusW1C : (hostDoes (.regWrite 0x10 .w32 0xFFFFFFFD) { start [] with regs := { Regs.reset with done := true, trunc := true } }).regs = { Regs.reset with done := true, trunc := true } := by decide +kernel

/-- RST-11 -/
theorem test_readId : (hostDoes (.regRead 0x00 .w32) (hostDoes (.regWrite 0x00 .w32 0) (start []))).received = [.word 0x4C5A4831] := by decide +kernel

/-- CMD-3 -/
theorem test_cmdReservedBits : (hostDoes (.regRead 0x08 .w32) (hostDoes (.regWrite 0x08 .w32 0x1F) (start []))).received = [.word 0xF] := by decide +kernel

/-- R347 -/
theorem test_lmemWhileBusy : (match hostStep { ready [] (regsFor 0 0 0 0) with host := [.memRead 0] } with | .refused r => some r | _ => none) = some .hostLmemWhileBusy := by decide +kernel

/-- R63, R64 -/
theorem test_busLoad : (hostDoes (.busLoad 0x20002 .w16) (start [])).host = [.memRead 2, .memRead 3, .busGather .w16] := by decide +kernel

/-- R63: bytes 11 22 33 44 in ascending address order, little and big HOST_BUS_ENDIAN -/
theorem test_busGather : (hostDoes (.busGather .w32) { start [] with received := [.byte 0x44, .byte 0x33, .byte 0x22, .byte 0x11, .byte 0x99] }).received = [.word 0x44332211, .byte 0x99] ∧
    (hostDoes (.busGather .w32) { start [] with received := [.byte 0x44, .byte 0x33, .byte 0x22, .byte 0x11, .byte 0x99], params := { testParams with busOrder := .big } }).received = [.word 0x11223344, .byte 0x99] := by decide +kernel

/-- R63 -/
theorem test_busStore : (hostDoes (.busStore 0x20002 .w16 0xBBAA) (start [])).host = [.memWrite 2 0xAA, .memWrite 3 0xBB] := by decide +kernel

/-! ### Stages of an internal run (R45, R46) -/

/-- The state after `n` moves of a command's internal run. -/
def internal (n : Nat) (s : State) : State :=
  after (Sys2Proof.core.run n { s with turns := [.engineUnit] }) s

/-- R45, R174: the encoder's position starts at 0 and moves past a token. -/
theorem test_stage_encoder : (internal 2 (ready [0x41, 0x42] { regsFor 0 2 0x200 16 with op := 0x1 })).internals.enc = ⟨1, [0x00, 0x41]⟩ := by decide +kernel

/-- R200: the counter of "A" after the count stage of "AAB". -/
theorem test_stage_count : (internal 2 (ready [0x41, 0x41, 0x42] { regsFor 0 3 0x200 16 with op := 0x3, auxAddr := 0x300, auxLen := 64 })).internals.freq.getD 0x41 0 = 2 := by decide +kernel

/-- R201, R203: the leaves of HUF-5, A (1), B (2), C (3), D (4), at indices 0 to 3 of the arena, queued in that order. -/
theorem test_stage_leaves :
    let x := (internal 3 (ready [0x41, 0x42, 0x42, 0x43, 0x43, 0x43, 0x44, 0x44, 0x44, 0x44] { regsFor 0 10 0x200 16 with op := 0x3, auxAddr := 0x300, auxLen := 64 })).internals
    x.arena = [.leaf 0x41 1 0, .leaf 0x42 2 1, .leaf 0x43 3 2, .leaf 0x44 4 3] ∧ x.queue = [0, 1, 2, 3] ∧ x.nextSeq = 4 := by decide +kernel

/-- R203: the first merge of HUF-5 joins A (1) and B (2) into an internal node of weight 3 and sequence number 4, left child 0, right child 1, behind C (3) in the queue. -/
theorem test_stage_merge :
    let x := (internal 4 (ready [0x41, 0x42, 0x42, 0x43, 0x43, 0x43, 0x44, 0x44, 0x44, 0x44] { regsFor 0 10 0x200 16 with op := 0x3, auxAddr := 0x300, auxLen := 64 })).internals
    x.arena = [.leaf 0x41 1 0, .leaf 0x42 2 1, .leaf 0x43 3 2, .leaf 0x44 4 3, .internal 3 0 1 4] ∧ x.queue = [2, 4, 3] := by decide +kernel

/-- R45, R246: the parser's index is 0 when CONT_READ starts and 8 past the signature. -/
theorem test_stage_signature :
    let s := ready (containerSignature ++ [0x00]) { regsFor 0 9 0x200 16 with op := 0x8 }
    (internal 1 s).internals.chunk = ⟨containerSignature ++ [0x00], 0, none, []⟩ ∧
      (internal 2 s).internals.chunk = ⟨[0x00], 8, none, []⟩ := by decide +kernel

/-- R45, R47: a command starts with its counters 0 and its tables empty, whatever the last one left. -/
theorem test_stage_fresh : (internal 1 { ready [0x41] { regsFor 0 1 0x200 16 with op := 0x1 } with
    internals := { freshInternals with enc := ⟨7, [0x55]⟩, nextSeq := 9, queue := [3] } }).internals = freshInternals := by decide +kernel

/-- R101, R210: a candidate of 255 bits fills its register, and the decoder consumes nothing more. -/
theorem test_stage_candidate_full : (pastBit true [false] { bitStart [] [true, false] false with cand := List.replicate 255 false }).cand.length = 255 ∧
    (pastBit true [false] { bitStart [] [true, false] false with cand := List.replicate 255 false }).rest = [] := by decide +kernel

/-- R209: after three bits of "100" with the code table A = "10", B = "0": a candidate restarted, two bytes out. -/
theorem test_stage_bits : (internal 4 (ready [0x80, 0x00, 0x02, 0x41, 0x02, 0x80, 0x42, 0x01, 0x00] { regsFor 0 1 0x200 16 with op := 0x4, bitLen := 4, auxAddr := 1, auxLen := 8 })).internals.bits =
    ⟨[⟨0x41, 2, [true, false]⟩, ⟨0x42, 1, [false]⟩], [false], 3, [], [0x41, 0x42], false⟩ := by decide +kernel

/-! ### Witnesses: a state and operands that meet all hypotheses of a statement, clause by clause -/

theorem test_witness_EncodedInstrDecodesBack : (Instr.chunkOther 0x74455874 [0x01] 0).wellFormed = true := by decide +kernel

theorem test_witness_DecodedStreamReencodes : decode (.token [0x01, 0xFF, 0xF0, 0x55]) = .ok (.matchToken 4095 0) ∧
    decode (.chunk [0x00, 0x00, 0x00, 0x00, 0x49, 0x45, 0x4E, 0x44, 0xAE, 0x42, 0x60, 0x82, 0x55]) = .ok (.chunkIend [] 0xAE426082) := by decide +kernel

/-- 11 bits: the last bit of the first byte, the first padding bit of the second; 12 of 16 bits read. -/
theorem test_witness_BitStringsPackAndUnpack : (0 < (11 + 7) / 8 ∧ 7 < 8) ∧ (1 < (11 + 7) / 8 ∧ 3 < 8) ∧
    12 ≤ 8 * [0xA5#8, 0x5A].length ∧ 3 < 8 ∧ 8 * 1 + 3 < 12 := by decide

/-- The run ends at 18 bytes, at the end of the input, at a difference. -/
theorem test_witness_CandidateLengthIsCommonRun :
    (0 < 1 ∧ 1 ≤ (List.replicate 20 0x41#8).length ∧ candLen (List.replicate 20 0x41#8) 1 0 = 18) ∧
    (0 < 1 ∧ 1 ≤ [0x41#8, 0x41].length ∧ candLen [0x41, 0x41] 1 0 = 1) ∧
    (0 < 1 ∧ 1 ≤ [0x41#8, 0x42].length ∧ candLen [0x41, 0x42] 1 0 = 0) := by decide +kernel

/-- No match, and a match of two equal candidates of which the first is kept. -/
theorem test_witness_FindMatchIsLongestEarliest : (findMatch [0x41, 0x42] 1).1 = 0 ∧
    findMatch [0x41, 0x42, 0x41, 0x43, 0x41] 4 = (1, 4) := by decide +kernel

/-- Lengths 2 and 3, and offsets 4095 and 4096. -/
theorem test_witness_TokenIsMatchOrLiteralFallback :
    (2 < [0x41#8, 0x42, 0x41, 0x42].length ∧ ¬(3 ≤ (findMatch [0x41, 0x42, 0x41, 0x42] 2).1)) ∧
    (3 < [0x41#8, 0x42, 0x43, 0x41, 0x42, 0x43].length ∧ findMatch [0x41, 0x42, 0x43, 0x41, 0x42, 0x43] 3 = (3, 3)) ∧
    findMatch ([0x41, 0x42, 0x43] ++ List.replicate 4092 0x00 ++ [0x41, 0x42, 0x43]) 4095 = (3, 4095) ∧
    findMatch ([0x41, 0x42, 0x43] ++ List.replicate 4093 0x00 ++ [0x41, 0x42, 0x43]) 4096 = (3, 4096) := by decide +kernel

/-- A table of two codes. -/
theorem test_witness_HuffmanTableCodesArePrefixFree : (huffmanEncode [0x41, 0x42]).2 = [(0x41, [false]), (0x42, [true])] := by decide +kernel

theorem test_witness_PackUnpackRoundTrip : (huffmanEncode (lzssCompress [0x41])).1.length < 2 ^ 32 := by decide +kernel

/-- Three bytes; the magic alone; eleven bytes; a table one byte past the end; a table that just fits. -/
theorem test_witness_BadArchiveHeadersRefused :
    [0x4D#8, 0x4D, 0x4D].length < 4 ∧ [0x4D, 0x4D, 0x4D, 0x4E].take 4 ≠ be32 0x4D4D4D4D ∧
    (∃ rest, [0x4D, 0x4D, 0x4D, 0x4D, 0, 0, 0, 0, 0, 0, 0] = be32 0x4D4D4D4D ++ rest) ∧
    (∃ rest, [0x4D, 0x4D, 0x4D, 0x4D, 0, 0, 0, 0, 0, 0, 0, 1] = be32 0x4D4D4D4D ++ rest) ∧
    12 < 12 + (u32At [0x4D, 0x4D, 0x4D, 0x4D, 0, 0, 0, 0, 0, 0, 0, 1] 8).toNat ∧
    12 + (u32At [0x4D, 0x4D, 0x4D, 0x4D, 0, 0, 0, 0, 0, 0, 0, 1, 7] 8).toNat ≤ 13 :=
  ⟨by decide, by decide, ⟨[0, 0, 0, 0, 0, 0, 0], by decide⟩, ⟨[0, 0, 0, 0, 0, 0, 0, 1], by decide⟩, by decide, by decide⟩

/-- One pixel, with the LZSS engine. -/
theorem test_witness_ContainerRoundTrip : (1 : Word) ≠ 0 ∧ [0xFF#8, 0x00, 0x80].length = 3 * (1 : Word).toNat * (1 : Word).toNat ∧
    (compressRows true (filterRows [0xFF, 0x00, 0x80] 1 1)).length < 2 ^ 32 := by decide +kernel

/-- A BUSY state in the token loop that meets the invariant, and its step. -/
theorem test_witness_StepKeepsInvariant : Invariant (inTokens ⟨[0x00, 0x7F], 0, [], false⟩) ∧
    ∃ t, step (inTokens ⟨[0x00, 0x7F], 0, [], false⟩) = .next t := by
  refine ⟨⟨?_, ?_, ?_, ?_, ?_, ?_, ?_, ?_, ?_, ?_, ?_, ?_, ?_, ?_, ?_, ?_, ?_, ?_⟩, _, rfl⟩ <;> decide +kernel

theorem test_witness_StepKeepsParameters : ∃ t, step (ready [] (regsFor 0 0 0 0)) = .next t := ⟨_, rfl⟩

/-- A command, a token, a chunk. -/
theorem test_witness_StepRunsDecodedInstruction :
    (let s := ready [] (regsFor 0 0 0 0);
      s.regs.busy = true ∧ s.turns = [] ∧ s.seq = .idle ∧ decode (.command (cmdWord s.regs)) = .ok .nop) ∧
    (let s := inTokens ⟨[0x00, 0x7F], 0, [], false⟩;
      s.regs.busy = true ∧ s.turns = [] ∧ s.seq = .tokens ∧ decode (.token s.internals.tok.rest) = .ok (.lit 0x7F)) ∧
    (let s := inChunks ⟨[0x00, 0x00, 0x00, 0x00, 0x49, 0x45, 0x4E, 0x44, 0xAE, 0x42, 0x60, 0x82], 8, none, []⟩;
      s.regs.busy = true ∧ s.turns = [] ∧ s.seq = .chunks ∧ decode (.chunk s.internals.chunk.rest) = .ok (.chunkIend [] 0xAE426082)) := by decide +kernel

theorem test_witness_InternalRunMatchesAtomicStep : commandPending (ready [0x41] { regsFor 0 1 0x200 16 with op := 0x5 }) := by decide +kernel

/-- The end at a boundary, inside a LIT, inside a MATCH. -/
theorem test_witness_TokenStreamEndCompletesDecompression :
    (let s := inTokens ⟨[], 0, [0x41], false⟩;
      s.regs.busy = true ∧ s.turns = [] ∧ s.seq = .tokens ∧ s.regs.op = 0x2 ∧
        s.regs.dstAddr.toNat + s.regs.dstCap.toNat ≤ s.params.lmemSize ∧ s.internals.tok.out.length ≤ s.regs.dstCap.toNat ∧
        s.internals.tok.rest = [] ∧ false = s.internals.tok.trunc) ∧
    (inTokens ⟨[0x00], 0, [0x41], false⟩).internals.tok.rest = [0x00] ∧
    ∃ more, (inTokens ⟨[0x01, 0x00], 0, [0x41], false⟩).internals.tok.rest = 0x01 :: more ∧ more.length < 2 :=
  ⟨by decide +kernel, rfl, [0x00], rfl, by decide⟩

theorem test_witness_CommandsIgnoreInternalState : (0x0, Instr.nop) ∈ allCommands ∧ (0xF, Instr.reservedCmdF) ∈ allCommands := by decide

theorem test_witness_EveryCommandCompletes : (0x3, Instr.huffEncode) ∈ allCommands ∧ (0x9, Instr.crc32) ∈ allCommands := by decide

/-- An error before the stages, one of the stages, and an image parameter. -/
theorem test_witness_FailedCommandFrame :
    (∃ t, exec .crc32 (ready [] (regsFor 4000 97 0 0)) = .next t ∧ t.regs.err = 0x02) ∧
    (∃ t, exec .lzssCompress (ready [0x41] (regsFor 0 1 0x200 1)) = .next t ∧ t.regs.err = 0x03) ∧
    ∃ t, exec .contWrite (ready [] (regsFor 0 0 0x200 1)) = .next t ∧ t.regs.err = 0x0C :=
  ⟨⟨_, rfl, by decide +kernel⟩, ⟨_, rfl, by decide +kernel⟩, ⟨_, rfl, by decide +kernel⟩⟩

/-- SRC, DST and AUX one byte past the end; each pair of regions sharing one byte. -/
theorem test_witness_RegionChecksInOrder :
    (let s := ready [] (regsFor 4000 97 0 0);
      ¬(s.regs.srcAddr.toNat + s.regs.srcLen.toNat ≤ s.params.lmemSize)) ∧
    (let s := ready [] (regsFor 4000 96 4095 2);
      s.regs.srcAddr.toNat + s.regs.srcLen.toNat ≤ s.params.lmemSize ∧
        ¬(s.regs.dstAddr.toNat + s.regs.dstCap.toNat ≤ s.params.lmemSize)) ∧
    (let s := ready [] { regsFor 0 1 1 1 with auxAddr := 4096, auxLen := 1 };
      s.regs.dstAddr.toNat + s.regs.dstCap.toNat ≤ s.params.lmemSize ∧
        ¬(s.regs.auxAddr.toNat + s.regs.auxLen.toNat ≤ s.params.lmemSize)) ∧
    (let r := regsFor 0 2 1 1;
      0 < r.srcLen.toNat ∧ 0 < r.dstCap.toNat ∧ r.srcAddr.toNat < r.dstAddr.toNat + r.dstCap.toNat ∧
        r.dstAddr.toNat < r.srcAddr.toNat + r.srcLen.toNat) ∧
    (let r := { regsFor 0 1 1 1 with auxAddr := 1, auxLen := 1 };
      ¬(r.dstAddr.toNat < r.srcAddr.toNat + r.srcLen.toNat) ∧ r.auxAddr.toNat < r.dstAddr.toNat + r.dstCap.toNat ∧
        r.dstAddr.toNat < r.auxAddr.toNat + r.auxLen.toNat) ∧
    (let r := { regsFor 0 2 2 1 with auxAddr := 1, auxLen := 1 };
      ¬(r.dstAddr.toNat < r.srcAddr.toNat + r.srcLen.toNat) ∧ ¬(r.dstAddr.toNat < r.auxAddr.toNat + r.auxLen.toNat) ∧
        r.srcAddr.toNat < r.auxAddr.toNat + r.auxLen.toNat ∧ r.auxAddr.toNat < r.srcAddr.toNat + r.srcLen.toNat) := by decide +kernel

/-- A state with operands that fit and a scratch of the given size. -/
def tight (scratch : Word) (mem : List Byte) (r : Regs) : State :=
  { ready mem r with params := { testParams with scratchWord := scratch } }

/-- One pixel's operands, with a DST capacity. -/
def onePixel (cap : Word) : Regs := { regsFor 0 3 0x200 cap with imgWidth := 1, imgHeight := 1 }

/-- HUFF_ENCODE's operands for "AAB", with the two capacities. -/
def huffRegs (cap auxLen : Word) : Regs := { regsFor 0 3 0x200 cap with auxAddr := 0x300, auxLen := auxLen }

/-- The archive of UP-1, cut inside its bits. -/
def cutArchive : List Byte :=
  [0x4D, 0x4D, 0x4D, 0x4D, 0x00, 0x00, 0x00, 0x0A, 0x00, 0x00, 0x00, 0x0E, 0x00, 0x04, 0x00, 0x02, 0xC0, 0x01, 0x02, 0x00, 0x16, 0x02, 0x40, 0x41, 0x02, 0x80, 0xE3]

/-- The container of one pixel (CW-1). -/
def onePixelContainer : List Byte := containerWrite true 1 1 [0xFF, 0x00, 0x80]

/-- The parser at the end of that container. -/
def onePixelParsed : ChunkUnit :=
  ⟨chunkBytes tagIend [], 53, some ⟨1, 1, 8, 2, 1, 0, 0⟩, [0x00, 0x00, 0x00, 0xFF, 0x00, 0x00, 0x00, 0x80]⟩

/-- Each capacity one byte short, and the one before it just enough. -/
theorem test_witness_CapacityErrorsReported :
    (let s := ready [0x41] (regsFor 0 1 0x200 1);
      srcDstFit s ∧ s.regs.dstCap.toNat < (lzssCompress (srcBytes s)).length) ∧
    (let s := tight 1 [0x41] (regsFor 0 1 0x200 1);
      srcDstFit s ∧ s.params.scratchSize < (lzssCompress (srcBytes s)).length) ∧
    (let s := tight 2 [0x41] (regsFor 0 1 0x200 20);
      srcDstFit s ∧ (lzssCompress (srcBytes s)).length ≤ s.params.scratchSize ∧
        s.regs.dstCap.toNat < (archiveOf s.params.archiveMagic (lzssCompress (srcBytes s))).length) ∧
    (let s := ready [0x41, 0x41, 0x42] (huffRegs 0 64);
      srcDstFit s ∧ auxFits s ∧ (srcRegion s.regs).overlaps (auxRegion s.regs) = false ∧
        s.regs.dstCap.toNat < (packBits (huffmanEncode (srcBytes s)).1).length) ∧
    (let s := ready [0x41, 0x41, 0x42] (huffRegs 1 7);
      srcDstFit s ∧ auxFits s ∧ (srcRegion s.regs).overlaps (auxRegion s.regs) = false ∧
        (packBits (huffmanEncode (srcBytes s)).1).length ≤ s.regs.dstCap.toNat ∧
        s.regs.auxLen.toNat < (serializeTable (huffmanEncode (srcBytes s)).2).length) := by decide +kernel

/-- The scanlines, then the compressed stream, one byte too long for scratch; the container one byte too long. -/
theorem test_witness_CapacityErrorsReported_image :
    (let s := tight 3 [0xFF, 0x00, 0x80] (onePixel 65);
      srcDstFit s ∧ s.regs.imgWidth ≠ 0 ∧ s.regs.imgHeight ≠ 0 ∧
        s.regs.srcLen.toNat = 3 * s.regs.imgWidth.toNat * s.regs.imgHeight.toNat ∧
        s.params.scratchSize < (filterRows (srcBytes s) 1 1).length) ∧
    (let s := tight 7 [0xFF, 0x00, 0x80] (onePixel 65);
      srcDstFit s ∧ s.params.scratchSize < (compressRows s.regs.contLzss (filterRows (srcBytes s) 1 1)).length) ∧
    (let s := tight 8 [0xFF, 0x00, 0x80] (onePixel 64);
      srcDstFit s ∧ (filterRows (srcBytes s) 1 1).length ≤ s.params.scratchSize ∧
        (compressRows s.regs.contLzss (filterRows (srcBytes s) 1 1)).length ≤ s.params.scratchSize ∧
        s.regs.dstCap.toNat < 57 + (compressRows s.regs.contLzss (filterRows (srcBytes s) 1 1)).length) := by decide +kernel

/-- The decoders' outputs one byte over DST_CAP. -/
theorem test_witness_CapacityErrorsReported_decoders :
    (let s := ready [0x00, 0x41] (regsFor 0 2 0x200 0);
      srcDstFit s ∧ lzssDecompress (srcBytes s) = .ok ([0x41], false) ∧ s.regs.dstCap.toNat < 1) ∧
    (let s := ready [0x40, 0x00, 0x02, 0x41, 0x01, 0x00, 0x42, 0x01, 0x80] { regsFor 0 1 0x200 7 with bitLen := 9, auxAddr := 1, auxLen := 8 };
      srcDstFit s ∧ auxFits s ∧ deserializeTable (auxBytes s) = .ok [⟨0x41, 1, [false]⟩, ⟨0x42, 1, [true]⟩] ∧
        s.regs.dstCap.toNat < (huffmanDecode (unpackBits (srcBytes s) (min s.regs.bitLen.toNat (8 * s.regs.srcLen.toNat)))
          [⟨0x41, 1, [false]⟩, ⟨0x42, 1, [true]⟩]).1.length) := by decide +kernel

/-- UP-1's archive: an intermediate of four bytes, one over scratch, then fitting with the output one byte over DST_CAP. -/
theorem test_witness_CapacityErrorsReported_unpack :
    (let s := tight 3 cutArchive (regsFor 0 27 0x200 1);
      srcDstFit s ∧ unpackStream s.params.archiveMagic (srcBytes s) = .ok ([0x00, 0x41, 0x01, 0x00], true) ∧ s.params.scratchSize < 4) ∧
    (let s := tight 4 cutArchive (regsFor 0 27 0x200 0);
      srcDstFit s ∧ unpackStream s.params.archiveMagic (srcBytes s) = .ok ([0x00, 0x41, 0x01, 0x00], true) ∧ 4 ≤ s.params.scratchSize ∧
        lzssDecompress [0x00, 0x41, 0x01, 0x00] = .ok ([0x41], true) ∧ s.regs.dstCap.toNat < 1) := by decide +kernel

/-- CONT_READ of one pixel: the payload one byte over scratch; pixels one byte over DST_CAP. -/
theorem test_witness_CapacityErrorsReported_contRead :
    (let s := tight 7 onePixelContainer (regsFor 0 65 0x200 3);
      srcDstFit s ∧ containerRead (srcBytes s) = .ok (onePixelParsed, false) ∧ onePixelParsed.hdr = some ⟨1, 1, 8, 2, 1, 0, 0⟩ ∧
        s.params.scratchSize < onePixelParsed.payload.length) ∧
    (let s := tight 8 onePixelContainer (regsFor 0 65 0x200 2);
      srcDstFit s ∧ containerRead (srcBytes s) = .ok (onePixelParsed, false) ∧ onePixelParsed.payload.length ≤ s.params.scratchSize ∧
        s.regs.contLzss = true ∧ lzssDecompress onePixelParsed.payload = .ok ([0x00, 0xFF, 0x00, 0x80], false) ∧
        4 ≤ s.params.scratchSize ∧ unfilter [0x00, 0xFF, 0x00, 0x80] 1 1 = .ok ([0xFF, 0x00, 0x80], false) ∧ s.regs.dstCap.toNat < 3) := by decide +kernel

/-- CONT_READ of a payload of five bytes that fits scratch and decompresses to nineteen, which do not. -/
theorem test_witness_CapacityErrorsReported_rows :
    let s := tight 18 (containerBytes 1 1 0x01 [0x00, 0x00, 0x01, 0x00, 0x1F]) (regsFor 0 62 0x200 3)
    srcDstFit s ∧ containerRead (srcBytes s) = .ok (⟨chunkBytes tagIend [], 50, some ⟨1, 1, 8, 2, 1, 0, 0⟩, [0x00, 0x00, 0x01, 0x00, 0x1F]⟩, false) ∧
      5 ≤ s.params.scratchSize ∧ s.regs.contLzss = true ∧
      lzssDecompress [0x00, 0x00, 0x01, 0x00, 0x1F] = .ok (List.replicate 19 0x00, false) ∧ s.params.scratchSize < 19 := by decide +kernel

/-- A zero width; one byte too many for a pixel. -/
theorem test_witness_ImageParametersChecked :
    (let s := ready [] { regsFor 0 3 0x200 16 with imgHeight := 1 };
      srcDstFit s ∧ s.regs.imgWidth = 0) ∧
    (let s := ready [] { regsFor 0 4 0x200 16 with imgWidth := 1, imgHeight := 1 };
      srcDstFit s ∧ s.regs.imgWidth ≠ 0 ∧ s.regs.imgHeight ≠ 0 ∧
        s.regs.srcLen.toNat ≠ 3 * s.regs.imgWidth.toNat * s.regs.imgHeight.toNat) := by decide +kernel

/-- The archive of a token stream that holds a reserved tag: MMMM, 1 bit, table of one code, "0". -/
def badTagArchive : List Byte :=
  [0x4D, 0x4D, 0x4D, 0x4D, 0x00, 0x00, 0x00, 0x01, 0x00, 0x00, 0x00, 0x05, 0x00, 0x01, 0x02, 0x01, 0x00, 0x00]

/-- A container of one pixel's metadata and the payload 02, a reserved tag. -/
def badTagContainer : List Byte :=
  containerBytes 1 1 0x01 [0x02]

/-- A reserved tag, a table without its count, a bad magic, a bad tag inside an archive, a bad signature, a bad tag inside a container. -/
theorem test_witness_StageErrorsReported :
    (let s := ready [0x02] (regsFor 0 1 0x200 16);
      srcDstFit s ∧ errOf (lzssDecompress (srcBytes s)) = some (lateErr .badTag 0)) ∧
    (let s := ready [0x02] { regsFor 0 1 0x200 16 with auxAddr := 0, auxLen := 1 };
      srcDstFit s ∧ auxFits s ∧ errOf (deserializeTable (auxBytes s)) = some (lateErr .badTable 0)) ∧
    (let s := ready [0x02] (regsFor 0 1 0x200 16);
      errOf (unpackStream s.params.archiveMagic (srcBytes s)) = some (lateErr .badMagic 0)) ∧
    (let s := ready badTagArchive (regsFor 0 18 0x200 16);
      srcDstFit s ∧ unpackStream s.params.archiveMagic (srcBytes s) = .ok ([0x02], false) ∧
        1 ≤ s.params.scratchSize ∧ errOf (lzssDecompress [0x02]) = some (lateErr .badTag 0)) ∧
    (let s := ready [0x02] (regsFor 0 1 0x200 16);
      errOf (containerRead (srcBytes s)) = some (lateErr .badSignature 0)) ∧
    (let s := ready badTagContainer (regsFor 0 58 0x200 16);
      srcDstFit s ∧ containerRead (srcBytes s) = .ok (⟨chunkBytes tagIend [], 46, some ⟨1, 1, 8, 2, 1, 0, 0⟩, [0x02]⟩, false) ∧
        1 ≤ s.params.scratchSize ∧ s.regs.contLzss = true) := by decide +kernel

/-- A container whose payload decompresses to a scanline with the marker 1. -/
theorem test_witness_StageErrorsReported_unfilter :
    let payload := [0x00#8, 0x01, 0x00, 0xFF, 0x00, 0x00, 0x00, 0x80]
    let s := ready (containerBytes 1 1 0x01 payload) (regsFor 0 65 0x200 16)
    srcDstFit s ∧ containerRead (srcBytes s) = .ok (⟨chunkBytes tagIend [], 53, some ⟨1, 1, 8, 2, 1, 0, 0⟩, payload⟩, false) ∧
      8 ≤ s.params.scratchSize ∧ s.regs.contLzss = true ∧ lzssDecompress payload = .ok ([0x01, 0xFF, 0x00, 0x80], false) ∧
      4 ≤ s.params.scratchSize ∧ errOf (unfilter [0x01, 0xFF, 0x00, 0x80] 1 1) = some (lateErr .badFilter 0) := by decide +kernel

/-- SRC up to the last byte of LMEM. -/
theorem test_witness_CrcCommandCompletes :
    (let s := ready [] (regsFor 4000 96 0 0);
      s.regs.srcAddr.toNat + s.regs.srcLen.toNat ≤ s.params.lmemSize) := by decide +kernel

theorem test_witness_ReservedOpcodesComplete : 0xA#4 ≤ 0xA#4 ∧ 0xA#4 ≤ 0xF#4 := by decide

/-- A capacity that just suffices. -/
theorem test_witness_LzssCompressCompletes :
    (let s := ready [0x41] (regsFor 0 1 0x200 2);
      srcDstFit s ∧ (lzssCompress (srcBytes s)).length ≤ s.regs.dstCap.toNat) := by decide +kernel

theorem test_witness_LzssDecompressCompletes :
    (let s := ready [0x00, 0x41, 0x01] (regsFor 0 3 0x200 1);
      srcDstFit s ∧ lzssDecompress (srcBytes s) = .ok ([0x41], true) ∧ 1 ≤ s.regs.dstCap.toNat) := by decide +kernel

theorem test_witness_HuffEncodeCompletes :
    (let s := ready [0x41, 0x41, 0x42] (huffRegs 1 8);
      srcDstFit s ∧ auxFits s ∧ (srcRegion s.regs).overlaps (auxRegion s.regs) = false ∧
        (packBits (huffmanEncode (srcBytes s)).1).length ≤ s.regs.dstCap.toNat ∧
        (serializeTable (huffmanEncode (srcBytes s)).2).length ≤ s.regs.auxLen.toNat) := by decide +kernel

theorem test_witness_HuffDecodeCompletes :
    (let s := ready [0x40, 0x00, 0x02, 0x41, 0x01, 0x00, 0x42, 0x01, 0x80] { regsFor 0 1 0x200 16 with bitLen := 9, auxAddr := 1, auxLen := 8 };
      srcDstFit s ∧ auxFits s ∧ deserializeTable (auxBytes s) = .ok [⟨0x41, 1, [false]⟩, ⟨0x42, 1, [true]⟩] ∧
        (huffmanDecode (unpackBits (srcBytes s) 8) [⟨0x41, 1, [false]⟩, ⟨0x42, 1, [true]⟩]).1.length ≤ s.regs.dstCap.toNat) := by decide +kernel

theorem test_witness_PackCompletes :
    (let s := tight 2 [0x41] (regsFor 0 1 0x200 21);
      srcDstFit s ∧ (lzssCompress (srcBytes s)).length ≤ s.params.scratchSize ∧
        (archiveOf s.params.archiveMagic (lzssCompress (srcBytes s))).length ≤ s.regs.dstCap.toNat) := by decide +kernel

/-- UP-1: truncated inside the archive's bits. -/
theorem test_witness_UnpackCompletes :
    (let s := ready cutArchive (regsFor 0 27 0x200 1);
      srcDstFit s ∧ unpackStream s.params.archiveMagic (srcBytes s) = .ok ([0x00, 0x41, 0x01, 0x00], true) ∧
        4 ≤ s.params.scratchSize ∧ lzssDecompress [0x00, 0x41, 0x01, 0x00] = .ok ([0x41], true) ∧ 1 ≤ s.regs.dstCap.toNat) := by decide +kernel

theorem test_witness_ContWriteCompletes :
    (let s := tight 8 [0xFF, 0x00, 0x80] (onePixel 65);
      srcDstFit s ∧ s.regs.imgWidth ≠ 0 ∧ s.regs.imgHeight ≠ 0 ∧
        s.regs.srcLen.toNat = 3 * s.regs.imgWidth.toNat * s.regs.imgHeight.toNat ∧
        (filterRows (srcBytes s) 1 1).length ≤ s.params.scratchSize ∧
        (compressRows s.regs.contLzss (filterRows (srcBytes s) 1 1)).length ≤ s.params.scratchSize ∧
        57 + (compressRows s.regs.contLzss (filterRows (srcBytes s) 1 1)).length ≤ s.regs.dstCap.toNat) := by decide +kernel

/-- A container cut short before any metadata; a whole one with a capacity that just suffices. -/
theorem test_witness_ContReadCompletes :
    (let s := ready containerSignature (regsFor 0 8 0x200 16);
      srcDstFit s ∧ containerRead (srcBytes s) = .ok (⟨[], 8, none, []⟩, true)) ∧
    (let s := ready onePixelContainer (regsFor 0 65 0x200 3);
      srcDstFit s ∧ containerRead (srcBytes s) = .ok (onePixelParsed, false) ∧
        8 ≤ s.params.scratchSize ∧ s.regs.contLzss = true ∧
        lzssDecompress [0x00, 0x00, 0x00, 0xFF, 0x00, 0x00, 0x00, 0x80] = .ok ([0x00, 0xFF, 0x00, 0x80], false) ∧
        4 ≤ s.params.scratchSize ∧ unfilter [0x00, 0xFF, 0x00, 0x80] 1 1 = .ok ([0xFF, 0x00, 0x80], false) ∧
        3 ≤ s.regs.dstCap.toNat) := by decide +kernel

theorem test_witness_ContReadExternalPath :
    (let s := ready onePixelContainer { regsFor 0 65 0x200 3 with contLzss := false };
      srcDstFit s ∧ containerRead (srcBytes s) = .ok (onePixelParsed, false) ∧
        8 ≤ s.params.scratchSize ∧ s.regs.contLzss = false) := by decide +kernel

/-- "A" compressed to 0x200, then decompressed to 0x300 with a capacity of one byte. -/
theorem test_witness_CompressedThenDecompressedReproducesSource :
    (let s := ready [0x41] (regsFor 0 1 0x200 2);
      let t := after (exec .lzssCompress s) s;
      srcDstFit s ∧ t.regs.err = 0 ∧ s.regs.srcLen.toNat ≤ (1 : Word).toNat ∧
        srcDstFit { t with regs := { t.regs with
          srcAddr := t.regs.dstAddr, srcLen := t.regs.outLen, dstAddr := 0x300, dstCap := 1 } }) := by decide +kernel

/-- Offset 1, and an offset as long as the output. -/
theorem test_witness_MatchReplicatesBytes :
    (let s := inTokens ⟨[0x01, 0x00, 0x20], 4, [0x41, 0x42], false⟩;
      (2 : BitVec 12) ≠ 0 ∧ (2 : BitVec 12).toNat ≤ s.internals.tok.out.length ∧
        (1 : BitVec 12) ≠ 0 ∧ (1 : BitVec 12).toNat ≤ s.internals.tok.out.length) := by decide +kernel

/-- Offset 0, and an offset one longer than the output. -/
theorem test_witness_MatchBadOffsetEndsCommand :
    (0 : BitVec 12) = 0 ∧ (inTokens ⟨[0x01, 0x00, 0x30], 4, [0x41, 0x42], false⟩).internals.tok.out.length < (3 : BitVec 12).toNat := by decide +kernel

/-- The first and last tag of each row of reserved tags. -/
theorem test_witness_ReservedTagsEndDecoding : ∀ tag ∈ [0x02#8, 0x03, 0x04, 0x07, 0x08, 0x0F, 0x10, 0x1F, 0x20, 0x3F, 0x40, 0x7F, 0x80, 0xFF],
    0x02#8 ≤ tag := by decide

/-- A first and a second metadata chunk of 13 bytes, and one of 12. -/
theorem test_witness_IhdrChunkSetsMetadata :
    0x91B539E9 = crc32 (be32 tagIhdr ++ ihdrPayload 1 1 0x01) ∧ (ihdrPayload 1 1 0x01).length = 13 ∧
    (inChunks ⟨[], 8, none, []⟩).internals.chunk.hdr = none ∧
    (inChunks ⟨[], 33, some default, []⟩).internals.chunk.hdr.isSome = true ∧
    ((ihdrPayload 1 1 0x01).take 12).length ≠ 13 := by decide +kernel

theorem test_witness_IdatChunkAppendsPayload :
    0xC994192B = crc32 (be32 tagIdat ++ [0x00, 0x00, 0x00, 0xFF, 0x00, 0x00, 0x00, 0x80]) ∧
    (inChunks ⟨[], 33, some default, []⟩).internals.chunk.hdr.isSome = true ∧
    (inChunks ⟨[], 8, none, []⟩).internals.chunk.hdr = none := by decide +kernel

/-- A payload as long as scratch, one longer, and no metadata. -/
theorem test_witness_IendChunkEndsLoop :
    0xAE426082 = crc32 (be32 tagIend ++ []) ∧
    (let s := { inChunks ⟨[], 53, some default, [0x00, 0x00]⟩ with params := { testParams with scratchWord := 2 } };
      s.internals.chunk.hdr.isSome = true ∧ s.internals.chunk.payload.length ≤ s.params.scratchSize ∧ s.regs.contLzss = true) ∧
    (let s := { inChunks ⟨[], 53, some default, [0x00, 0x00]⟩ with params := { testParams with scratchWord := 1 } };
      s.internals.chunk.hdr.isSome = true ∧ s.params.scratchSize < s.internals.chunk.payload.length) ∧
    (let s := { inChunks ⟨[], 53, some default, [0x00, 0x00]⟩ with regs := { regsFor 0 0 0x200 16 with op := 0x8, contLzss := false } };
      s.internals.chunk.hdr = some default ∧ s.internals.chunk.payload.length ≤ s.params.scratchSize ∧ s.regs.contLzss = false ∧
        s.regs.dstAddr.toNat + s.regs.dstCap.toNat ≤ s.params.lmemSize) ∧
    (inChunks ⟨[], 8, none, []⟩).internals.chunk.hdr = none := by decide +kernel

theorem test_witness_OtherChunkSkipped : (0x74455874 : Word) ≠ 0x49484452 ∧ (0x74455874 : Word) ≠ 0x49444154 ∧
    (0x74455874 : Word) ≠ 0x49454E44 ∧ 0x7569E6DF = crc32 (be32 0x74455874 ++ [0x68, 0x69]) := by decide +kernel

/-- A CRC one off, for the metadata tag and for another. -/
theorem test_witness_ChunkCrcMismatchReported : 0xAE426083 ≠ crc32 (be32 tagIend ++ []) ∧
    0x7569E6DE ≠ crc32 (be32 0x74455874 ++ [0x68, 0x69]) := by decide +kernel

theorem test_witness_StartAcceptedOnlyWhenIdle : (0x5 : Word).getLsbD 1 = false ∧ (0x5 : Word).getLsbD 0 = true ∧
    (start []).regs.busy = false ∧ (ready [] (regsFor 0 0 0 0)).regs.busy = true := by decide +kernel

theorem test_witness_OperandRegistersReadBackOrLocked :
    (RegName.cmd, 0x0000000F#32) ∈ [(RegName.cmd, 0x0000000F#32), (.cfg, 0x00000001)] ∧
    (start []).regs.busy = false ∧ (ready [] (regsFor 0 0 0 0)).regs.busy = true := by decide +kernel

/-- A read-only register, a byte access, an odd offset, the first reserved slot. -/
theorem test_witness_IgnoredRegisterWrites : 0x4C#8 ∈ [0x00#8, 0x14, 0x34, 0x38, 0x44, 0x48, 0x4C] ∧
    AccessWidth.w8 ≠ .w32 ∧ (0x19#8).toNat % 4 ≠ 0 ∧ 0x50 ≤ (0x50#8).toNat := by decide

/-- An idle core; a BUSY core that meets the invariant. -/
theorem test_witness_RegisterReadsHaveNoSideEffect : (start []).regs.busy = false ∧
    (ready [] (regsFor 0 0 0 0)).regs.busy = true ∧ Invariant (ready [] (regsFor 0 0 0 0)) := by
  refine ⟨by decide +kernel, by decide +kernel, ?_⟩
  refine ⟨?_, ?_, ?_, ?_, ?_, ?_, ?_, ?_, ?_, ?_, ?_, ?_, ?_, ?_, ?_, ?_, ?_, ?_⟩ <;> decide +kernel

/-- STATUS with and without bit 1; CTRL with bit 2 clear and set, bits 1 and 0 clear. -/
theorem test_witness_StatusWriteAcknowledges : (0x2 : Word).getLsbD 1 = true ∧ (0xFFFFFFFD : Word).getLsbD 1 = false ∧
    ((0xFFFFFFF8 : Word).getLsbD 1 = false ∧ (0xFFFFFFF8 : Word).getLsbD 0 = false ∧ (0xFFFFFFF8 : Word).getLsbD 2 = false) ∧
    (0x4 : Word).getLsbD 1 = false ∧ (0x4 : Word).getLsbD 0 = false ∧ (0x4 : Word).getLsbD 2 = true := by decide

/-- A soft reset of an idle core, of one that runs LZSS_COMPRESS with a byte of SRC, of one that runs HUFF_DECODE with a byte of AUX, and of one whose SRC lies inside DST (log 7). -/
theorem test_witness_SoftResetRestoresRegisters : (0x2 : Word).getLsbD 1 = true ∧ (start []).regs.busy = false ∧
    (let s := ready [0x41] { regsFor 0 1 0x200 16 with op := 0x1 };
      0x1#4 ≤ s.regs.op ∧ s.regs.op ≤ 0x9#4 ∧ s.regs.srcAddr.toNat ≤ 0 ∧ 0 < s.regs.srcAddr.toNat + s.regs.srcLen.toNat) ∧
    (let s := ready [0x41] { regsFor 0 1 0x200 16 with op := 0x4, auxAddr := 8, auxLen := 1 };
      s.regs.op = 0x4 ∧ s.regs.auxAddr.toNat ≤ 8 ∧ 8 < s.regs.auxAddr.toNat + s.regs.auxLen.toNat) ∧
    (let s := ready [0x41] { regsFor 0x200 1 0x200 16 with op := 0x1 };
      0x1#4 ≤ s.regs.op ∧ s.regs.op ≤ 0x9#4 ∧ s.regs.srcAddr.toNat ≤ 0x200 ∧ 0x200 < s.regs.srcAddr.toNat + s.regs.srcLen.toNat) := by decide +kernel

/-- The last byte of LMEM, the first address past it, idle and while BUSY (log 5), and the last byte while BUSY. -/
theorem test_witness_HostLmemAccess : 4095 < (start []).params.lmemSize ∧ (start []).regs.busy = false ∧
    (start []).params.lmemSize ≤ 4096 ∧
    (let s := ready [] (regsFor 0 0 0 0);
      s.regs.busy = true ∧ s.params.lmemSize ≤ 4096 ∧ 4095 < s.params.lmemSize) := by decide +kernel

theorem test_witness_RunStartsTheNamedCommand : (start []).regs.busy = false ∧ (start []).seq = .idle := by decide +kernel

/-- One row complete of one, one of two with nothing, a bad marker and a short row after it. -/
theorem test_witness_UnfilterStopsAtBadOrMissingRow : [0xFF#8, 0x00, 0x80].length = 3 * 1 * 1 ∧ 1 ≤ 1 ∧ 1 < 2 ∧
    (0x01#8 : Byte) ≠ 0 ∧ [0xAA#8, 0xBB].length < 3 * 1 := by decide

end Sys2Proof.Tests
end

section
/-! PROOFS. O20: the internal run of every command ends in the state of the command's atomic step. Each command is its first move (`beginInternal`) followed by the stages of Laws/Stages.lean. -/
namespace Sys2Proof.Proofs
open Sys2Proof Sys2Proof.Machine Sys2Proof.Laws

/-! ### The two runs of a pending command -/

/-- The opcode survives its trip through the command word (R91, R23). -/
@[simp] theorem decodeCommand_cmdWord (r : Regs) : decodeCommand (cmdWord r) = commandOf r.op := by
  have hop : (cmdWord r).extractLsb' 0 4 = r.op := by
    apply BitVec.eq_of_toNat_eq
    have := r.op.isLt
    simp only [cmdWord, BitVec.extractLsb'_toNat, BitVec.toNat_setWidth, Nat.shiftRight_zero]
    omega
  rw [decodeCommand, hop]

/-- What a command computes, by opcode (R92, R93, R132). -/
def commandResult (op : BitVec 4) (s : State) : CmdResult :=
  match op.toNat with
  | 0 => cmdNop
  | 1 => cmdLzssCompress s
  | 2 => cmdLzssDecompress s
  | 3 => cmdHuffEncode s
  | 4 => cmdHuffDecode s
  | 5 => cmdPack s
  | 6 => cmdUnpack s
  | 7 => cmdContWrite s
  | 8 => cmdContRead s
  | 9 => cmdCrc32 s
  | _ => cmdReserved op

/-- Every command is performed by the completion of what it computes (R131). -/
theorem exec_commandOf (op : BitVec 4) (s : State) :
    exec (commandOf op) s = .next (complete op (commandResult op s) s) := by
  obtain ⟨k, hk⟩ := op
  interval_cases k <;> rfl

/-- The engine's move on a pending command performs the instruction that CMD.OP selects (R131). -/
theorem engineStep_of_commandPending {s : State} (hp : commandPending s) :
    engineStep s = .next (complete s.regs.op (commandResult s.regs.op s) s) := by
  obtain ⟨-, hseq, -⟩ := hp
  simp only [engineStep, fetch, hseq, decodeCommand_cmdWord, exec_commandOf]

/-- The atomic step of a pending command is the engine's move (R131, log 4). -/
theorem step_of_commandPending {s : State} (hp : commandPending s) : step s = engineStep s := by
  obtain ⟨hbusy, -, hturns⟩ := hp
  simp [step, runStep, hbusy, hturns]

/-- With an `engineUnit` turn listed, a pending command is moved in internal order. -/
theorem step_engineUnit_of_commandPending {s : State} (hp : commandPending s) :
    step { s with turns := [.engineUnit] } = engineUnitStep s := by
  obtain ⟨hbusy, -, hturns⟩ := hp
  have hs : { s with turns := [] } = s := by rw [← hturns]
  simp [step, runStep, turnStep, hbusy, hs]

/-- The first move of an internal run: its error completes the command, and if what it loads runs
to the rest of the command then the move and the run are the whole command (R134, R140). -/
theorem reaches_entered {α : Type} {s : State} {enter : Except CmdError α → State}
    {rest : α → CmdResult} (r : Except CmdError α)
    (herror : ∀ e, enter (.error e) = complete s.regs.op (.error e) s)
    (hok : ∀ a, Reaches (enter (.ok a)) (.next (complete s.regs.op (rest a) s))) :
    Reaches (enter r) (.next (complete s.regs.op (r >>= rest) s)) := by
  cases r with
  | error e => exact herror e ▸ .here _
  | ok a => exact hok a

/-! ### Inputs of the Huffman coder are shorter than 2^32 bytes (R46, log 9) -/

theorem memRead_length (s : State) (r : Region) : (memRead s r).length = r.len := by
  simp [memRead]

theorem srcRead_length_lt (s : State) : (memRead s (srcRegion s.regs)).length < 2 ^ 32 := by
  rw [memRead_length]
  exact s.regs.srcLen.isLt

theorem scratchSize_lt (p : Params) : p.scratchSize < 2 ^ 32 := p.scratchWord.isLt

/-! ### Commands through the LZSS encoder (R183, R245, R286) -/

/-- What follows the LZSS encoder, by command (R183, R245, R286). -/
def afterEncoder (s : State) (out : List Byte) : CmdResult :=
  if s.regs.op = 0x5 then do
    capacityCheck out.length s.params.scratchSize 3
    afterCoder s (huffmanEncode out).1 (huffmanEncode out).2
  else if s.regs.op = 0x7 then finishContWrite s out
  else finishLzssCompress s out

section
variable {s : State} (hb : s.regs.busy = true) (ht : s.turns = [])
include hb ht

/-- The end of the encoder stage completes the command, for PACK after the coder's stages. -/
theorem encoderEnd_reach (x : Internals) :
    Reaches (encoderEnd (inStage s .encoder x))
      (.next (complete s.regs.op (afterEncoder s x.enc.out) s)) := by
  have hregs : (inStage s .encoder x).regs = s.regs := rfl
  have hparams : (inStage s .encoder x).params = s.params := rfl
  have henc : (inStage s .encoder x).internals.enc = x.enc := rfl
  unfold encoderEnd afterEncoder
  simp only [hregs, hparams, henc]
  by_cases h5 : s.regs.op = 0x5
  · rw [if_pos h5, if_pos h5]
    rcases capacityCheck_cases x.enc.out.length s.params.scratchSize 3 with ⟨hle, hc⟩ | ⟨-, hc⟩
    · rw [hc]
      refine coder_reach hb ht { x with scratch := x.enc.out } x.enc.out ?_
        (Nat.lt_of_le_of_lt hle (scratchSize_lt _))
      exact if_pos h5
    · rw [hc]
      exact .completed ..
  · rw [if_neg h5, if_neg h5]
    by_cases h7 : s.regs.op = 0x7
    · rw [if_pos h7, if_pos h7]
      exact .completed s.regs.op (finishContWrite s x.enc.out) s .encoder x
    · rw [if_neg h7, if_neg h7]
      exact .completed s.regs.op (finishLzssCompress s x.enc.out) s .encoder x

/-- The encoder stage from position 0 compresses its input, and then the rest of the command runs. -/
theorem encoder_completes (x : Internals) (d : List Byte) (hx : x.enc = ⟨0, []⟩)
    (hd : encoderInput (inStage s .encoder x) = d) :
    Reaches (inStage s .encoder x)
      (.next (complete s.regs.op (afterEncoder s (lzssCompress d)) s)) := by
  subst hd
  refine encoder_reach hb ht _ x _ (Nat.sub_le _ x.enc.pos) fun p => ?_
  have h := encoderEnd_reach hb ht { x with enc := ⟨p, x.enc.out ++
    (tokensFrom (encoderInput (inStage s .encoder x))
      (encoderInput (inStage s .encoder x)).length x.enc.pos).flatMap encodeToken⟩ }
  rw [hx] at h ⊢
  exact h

/-! ### From the first move of an internal run to its end (R45, R46) -/

/-- For CONT_WRITE the encoder's input is the scanlines, which `enterRows` loads. -/
theorem enterEncoder_reach (r : Except CmdError Unit) (hop : s.regs.op ≠ 0x7) :
    Reaches (enterEncoder r s) (.next (complete s.regs.op (do
      r
      afterEncoder s (lzssCompress (memRead s (srcRegion s.regs)))) s)) :=
  reaches_entered (enter := (enterEncoder · s)) r (fun _ => rfl) fun _ =>
    encoder_completes hb ht freshInternals _ rfl (if_neg hop)

/-- With the external compressor the first move is the whole command (R242). -/
theorem enterRows_reach (r : Except CmdError (List Byte)) (hop : s.regs.op = 0x7) :
    Reaches (enterRows r s) (.next (complete s.regs.op (do
      let rows ← r
      finishContWrite s (compressRows s.regs.contLzss rows)) s)) := by
  refine reaches_entered (enter := (enterRows · s)) r (fun _ => rfl) fun rows => ?_
  unfold enterRows
  cases hlzss : s.regs.contLzss with
  | false => exact .here _
  | true =>
    have hrest : ∀ out, afterEncoder s out = finishContWrite s out := by simp [afterEncoder, hop]
    have h := encoder_completes hb ht { freshInternals with scratch := rows } rows rfl (if_pos hop)
    rw [hrest] at h
    exact h

/-- For PACK the coder's input is the LZSS stream, which the end of the encoder leaves in scratch. -/
theorem enterCoder_reach (r : Except CmdError Unit) (hop : s.regs.op ≠ 0x5) :
    Reaches (enterCoder r s) (.next (complete s.regs.op (do
      r
      afterCoder s (huffmanEncode (memRead s (srcRegion s.regs))).1
        (huffmanEncode (memRead s (srcRegion s.regs))).2) s)) :=
  reaches_entered (enter := (enterCoder · s)) r (fun _ => rfl) fun _ =>
    coder_reach hb ht freshInternals _ (if_neg hop) (srcRead_length_lt s)

theorem enterBits_reach (r : Except CmdError BitUnit) :
    Reaches (enterBits r s) (.next (complete s.regs.op (do
      let u ← r
      afterBitLoop s none (runBits u).1 (runBits u).2) s)) :=
  reaches_entered (enter := (enterBits · s)) r (fun _ => rfl) fun u =>
    bits_reach hb ht _ { freshInternals with bits := u } le_rfl

theorem enterTokens_reach (r : Except CmdError TokenUnit) :
    Reaches (enterTokens r s) (.next (complete s.regs.op (do
      let u ← r
      let (out, trunc) ← runTokens u
      afterTokenLoop s none out trunc) s)) :=
  reaches_entered (enter := (enterTokens · s)) r (fun _ => rfl) fun u =>
    tokens_reach hb ht _ { freshInternals with tok := u } le_rfl

theorem enterParser_reach (r : Except CmdError ChunkUnit) :
    Reaches (enterParser r s) (.next (complete s.regs.op (do
      let start ← r
      let u ← passSignature start
      let (v, trunc) ← runChunks u
      afterChunkLoop s v trunc) s)) :=
  reaches_entered (enter := (enterParser · s)) r (fun _ => rfl) fun u =>
    signature_reach hb ht { freshInternals with chunk := u }

end

/-! ### Each command as its first move and what its stages compute (R183 to R287) -/

section
variable {s : State}

theorem cmdLzssCompress_eq_stages (hop : s.regs.op = 0x1) : cmdLzssCompress s = (do
    checkSrcDst s
    afterEncoder s (lzssCompress (memRead s (srcRegion s.regs)))) := by
  simp [cmdLzssCompress, afterEncoder, hop]

theorem cmdPack_eq_stages (hop : s.regs.op = 0x5) : cmdPack s = (do
    checkSrcDst s
    afterEncoder s (lzssCompress (memRead s (srcRegion s.regs)))) := by
  simp [cmdPack, afterEncoder, afterCoder, hop]

theorem cmdHuffEncode_eq_stages (hop : s.regs.op = 0x3) : cmdHuffEncode s = (do
    checkSrcDstAuxOut s
    afterCoder s (huffmanEncode (memRead s (srcRegion s.regs))).1
      (huffmanEncode (memRead s (srcRegion s.regs))).2) := by
  simp [cmdHuffEncode, afterCoder, hop]

theorem cmdHuffDecode_eq_stages (hop : s.regs.op = 0x4) : cmdHuffDecode s = (do
    let u ← startHuffDecode s
    afterBitLoop s none (runBits u).1 (runBits u).2) := by
  simp [cmdHuffDecode, afterBitLoop, hop]

theorem cmdUnpack_eq_stages (hop : s.regs.op = 0x6) : cmdUnpack s = (do
    let u ← startUnpack s
    afterBitLoop s none (runBits u).1 (runBits u).2) := by
  simp [cmdUnpack, afterBitLoop, afterTokenLoop, hop]

theorem cmdLzssDecompress_eq_stages (hop : s.regs.op = 0x2) : cmdLzssDecompress s = (do
    let u ← startLzssDecompress s
    let (out, trunc) ← runTokens u
    afterTokenLoop s none out trunc) := by
  simp [cmdLzssDecompress, afterTokenLoop, hop]

theorem cmdContRead_eq_stages (hop : s.regs.op = 0x8) : cmdContRead s = (do
    let start ← startContRead s
    let u ← passSignature start
    let (v, trunc) ← runChunks u
    afterChunkLoop s v trunc) := by
  simp only [cmdContRead, afterChunkLoop, afterTokenLoop, hop]
  rfl

end

/-! ### Every command (R5, R45, R46) -/

/-- The opcode is what its number says. -/
theorem op_eq_of_toNat {op : BitVec 4} {k : Nat} (h : op.toNat = k) : op = BitVec.ofNat 4 k := by
  rw [← h, BitVec.ofNat_toNat, BitVec.setWidth_eq]

/-- The first move of a command with stages reaches what its atomic step answers. -/
theorem beginInternal_reach {s t : State} (hp : commandPending s)
    (hfirst : beginInternal s = some t) :
    Reaches t (.next (complete s.regs.op (commandResult s.regs.op s) s)) := by
  obtain ⟨hb, -, ht⟩ := hp
  unfold beginInternal at hfirst
  split at hfirst <;> cases hfirst
  case h_1 hop =>
    simp only [commandResult, hop]
    have hop := op_eq_of_toNat hop
    rw [cmdLzssCompress_eq_stages hop]
    exact enterEncoder_reach hb ht _ (by simp [hop])
  case h_2 hop =>
    simp only [commandResult, hop]
    have hop := op_eq_of_toNat hop
    rw [cmdLzssDecompress_eq_stages hop]
    exact enterTokens_reach hb ht _
  case h_3 hop =>
    simp only [commandResult, hop]
    have hop := op_eq_of_toNat hop
    rw [cmdHuffEncode_eq_stages hop]
    exact enterCoder_reach hb ht _ (by simp [hop])
  case h_4 hop =>
    simp only [commandResult, hop]
    have hop := op_eq_of_toNat hop
    rw [cmdHuffDecode_eq_stages hop]
    exact enterBits_reach hb ht _
  case h_5 hop =>
    simp only [commandResult, hop]
    have hop := op_eq_of_toNat hop
    rw [cmdPack_eq_stages hop]
    exact enterEncoder_reach hb ht _ (by simp [hop])
  case h_6 hop =>
    simp only [commandResult, hop]
    have hop := op_eq_of_toNat hop
    rw [cmdUnpack_eq_stages hop]
    exact enterBits_reach hb ht _
  case h_7 hop =>
    simp only [commandResult, hop]
    have hop := op_eq_of_toNat hop
    exact enterRows_reach hb ht _ hop
  case h_8 hop =>
    simp only [commandResult, hop]
    have hop := op_eq_of_toNat hop
    rw [cmdContRead_eq_stages hop]
    exact enterParser_reach hb ht _

/-- Settles O20: the first move loads a stage whose run ends as the atomic step, and a command
without stages is performed by that first move itself. -/
theorem internalRunMatchesAtomicStep : Obligations.InternalRunMatchesAtomicStep := by
  intro s hp
  have hunit := step_engineUnit_of_commandPending hp
  have hatomic := engineStep_of_commandPending hp
  rw [step_of_commandPending hp, hatomic]
  cases hfirst : beginInternal s with
  | some t => exact Reaches.after (by rw [hunit, engineUnitStep, hfirst]) (beginInternal_reach hp hfirst)
  | none => exact Reaches.last (by rw [hunit, engineUnitStep, hfirst, hatomic])

end Sys2Proof.Proofs
end

section
/-! PROOFS. O18: no step changes a parameter. The engine's moves are said once (`EngineMove`): a completion, or a change of stage and internals. -/
namespace Sys2Proof.Proofs
open Sys2Proof Sys2Proof.Machine Sys2Proof.Laws

/-! ### What a move of the engine can do (R45, R46, R131, R134) -/

/-- A move of the engine completes a command, or changes only the stage and the internals. -/
def EngineMove (s t : State) : Prop :=
  (∃ op r, t = complete op r s) ∨ ∃ q x, t = inStage s q x

theorem EngineMove.completed (op : BitVec 4) (r : CmdResult) (s : State) :
    EngineMove s (complete op r s) := .inl ⟨op, r, rfl⟩

theorem EngineMove.staged (s : State) (q : Sequencer) (x : Internals) :
    EngineMove s (inStage s q x) := .inr ⟨q, x, rfl⟩

/-- A move of the engine leaves the host's side and the parameters as they were. -/
theorem EngineMove.hostSideSame {s t : State} (h : EngineMove s t) : hostSideSame s t := by
  obtain ⟨op, r, rfl⟩ | ⟨q, x, rfl⟩ := h
  · exact complete_hostSideSame op r s
  · exact ⟨rfl, rfl, rfl, rfl, rfl⟩

/-- A move on a result is one of the engine's when its error is the running command's error entry
(R134) and its success is a move. -/
theorem EngineMove.ofResult {α : Type} {s : State} {move : Except CmdError α → State}
    (r : Except CmdError α) (herror : ∀ e, move (.error e) = complete s.regs.op (.error e) s)
    (hok : ∀ a, EngineMove s (move (.ok a))) : EngineMove s (move r) := by
  cases r with
  | error e => exact herror e ▸ .completed ..
  | ok a => exact hok a

/-! ### Instructions -/

theorem afterToken_engineMove (r : Except CmdError TokenUnit) (s : State) :
    EngineMove s (afterToken r s) :=
  .ofResult (move := (afterToken · s)) r (fun _ => rfl) fun u =>
    .staged s s.seq { s.internals with tok := u }

/-- The end of the chunk loop sees the parser `u` that its last chunk left. -/
theorem chunksEnd_engineMove (trunc : Bool) (s : State) (u : ChunkUnit) :
    EngineMove s (chunksEnd trunc { s with internals := { s.internals with chunk := u } }) := by
  obtain ⟨r, h⟩ | ⟨t, -, h⟩ :=
    chunksEnd_cases trunc { s with internals := { s.internals with chunk := u } }
  · rw [h]
    exact .inl ⟨s.regs.op, r, complete_inStage s.regs.op r s s.seq _⟩
  · rw [h]
    exact .staged s .tokens { s.internals with chunk := u, tok := t, scratch := u.payload }

theorem afterChunk_engineMove (r : Except CmdError ChunkStep) (s : State) :
    EngineMove s (afterChunk r s) := by
  obtain ⟨u, -, h⟩ | ⟨u, -, h⟩ | ⟨e, -, h⟩ := afterChunk_cases r s <;> rw [h]
  · exact .staged s s.seq { s.internals with chunk := u }
  · exact chunksEnd_engineMove false s u
  · exact .completed ..

/-- Every instruction has a meaning, and it is a move of the engine: a command completes, a token
and a chunk are one pass of their loops. -/
theorem exec_engineMove (i : Instr) (s : State) : ∃ t, exec i s = .next t ∧ EngineMove s t := by
  cases i
  case lit | matchToken | reservedTag02 | reservedTag04 | reservedTag08 | reservedTag10 |
      reservedTag20 | reservedTag40 | reservedTag80 =>
    exact ⟨_, rfl, afterToken_engineMove _ s⟩
  case chunkIhdr | chunkIdat | chunkIend | chunkOther =>
    exact ⟨_, rfl, afterChunk_engineMove _ s⟩
  all_goals exact ⟨_, rfl, .completed _ _ s⟩

/-! ### Stages that perform no instruction -/

theorem encoderEnd_engineMove (s : State) : EngineMove s (encoderEnd s) := by
  unfold encoderEnd
  dsimp only
  split
  · split
    · exact .staged s .count _
    · exact .completed ..
  · split <;> exact .completed ..

theorem encoderStep_engineMove (s : State) : EngineMove s (encoderStep s) := by
  unfold encoderStep
  split
  · exact .staged s s.seq _
  · exact encoderEnd_engineMove s

theorem buildStep_engineMove (s : State) : EngineMove s (buildStep s) := by
  unfold buildStep
  split
  · exact .staged s s.seq _
  · exact .staged s .codes s.internals

theorem emitStep_engineMove (s : State) : EngineMove s (emitStep s) := by
  unfold emitStep
  split <;> exact .completed ..

theorem bitsEnd_engineMove (s : State) (out : List Byte) (trunc : Bool) :
    EngineMove s (bitsEnd s out trunc) := by
  unfold bitsEnd
  split
  · split
    · exact .staged s .tokens _
    · exact .completed ..
  · exact .completed ..

theorem bitsStep_engineMove (s : State) : EngineMove s (bitsStep s) := by
  unfold bitsStep
  dsimp only
  split
  · exact .staged s s.seq _
  · exact bitsEnd_engineMove ..

theorem signatureStep_engineMove (s : State) : EngineMove s (signatureStep s) := by
  unfold signatureStep
  split
  · exact .staged s .chunks _
  · exact .completed ..

theorem stageStep_engineMove (s : State) : EngineMove s (stageStep s) := by
  unfold stageStep
  cases s.seq with
  | idle | tokens | chunks => exact .staged s s.seq s.internals
  | signature => exact signatureStep_engineMove s
  | encoder => exact encoderStep_engineMove s
  | count => exact .staged s .leaves _
  | leaves => exact .staged s .build _
  | build => exact buildStep_engineMove s
  | codes => exact .staged s .emit _
  | emit => exact emitStep_engineMove s
  | bits => exact bitsStep_engineMove s

/-! ### The engine's move, in either order -/

/-- The engine always answers a next state: it never faults and refuses nothing. -/
theorem engineStep_engineMove (s : State) : ∃ t, engineStep s = .next t ∧ EngineMove s t := by
  unfold engineStep
  cases fetch s with
  | instr i => exact exec_engineMove i s
  | tokensEnd trunc => exact ⟨_, rfl, .completed ..⟩
  | containerEnd => exact ⟨_, rfl, chunksEnd_engineMove true s s.internals.chunk⟩
  | stage => exact ⟨_, rfl, stageStep_engineMove s⟩

theorem enterEncoder_engineMove (r : Except CmdError Unit) (s : State) :
    EngineMove s (enterEncoder r s) :=
  .ofResult (move := (enterEncoder · s)) r (fun _ => rfl) fun _ => .staged s .encoder _

theorem enterCoder_engineMove (r : Except CmdError Unit) (s : State) :
    EngineMove s (enterCoder r s) :=
  .ofResult (move := (enterCoder · s)) r (fun _ => rfl) fun _ => .staged s .count _

theorem enterBits_engineMove (r : Except CmdError BitUnit) (s : State) :
    EngineMove s (enterBits r s) :=
  .ofResult (move := (enterBits · s)) r (fun _ => rfl) fun _ => .staged s .bits _

theorem enterRows_engineMove (r : Except CmdError (List Byte)) (s : State) :
    EngineMove s (enterRows r s) := by
  refine .ofResult (move := (enterRows · s)) r (fun _ => rfl) fun rows => ?_
  unfold enterRows
  cases s.regs.contLzss
  · exact .completed ..
  · exact .staged s .encoder _

theorem enterTokens_engineMove (r : Except CmdError TokenUnit) (s : State) :
    EngineMove s (enterTokens r s) :=
  .ofResult (move := (enterTokens · s)) r (fun _ => rfl) fun _ => .staged s .tokens _

theorem enterParser_engineMove (r : Except CmdError ChunkUnit) (s : State) :
    EngineMove s (enterParser r s) :=
  .ofResult (move := (enterParser · s)) r (fun _ => rfl) fun _ => .staged s .signature _

/-- The first move of an internal run loads a stage or completes the command. -/
theorem beginInternal_engineMove {s t : State} (h : beginInternal s = some t) : EngineMove s t := by
  unfold beginInternal at h
  split at h <;> cases h
  case h_1 | h_5 => exact enterEncoder_engineMove ..
  case h_2 => exact enterTokens_engineMove ..
  case h_3 => exact enterCoder_engineMove ..
  case h_4 | h_6 => exact enterBits_engineMove ..
  case h_7 => exact enterRows_engineMove ..
  case h_8 => exact enterParser_engineMove ..

theorem engineUnitStep_engineMove (s : State) :
    ∃ t, engineUnitStep s = .next t ∧ EngineMove s t := by
  unfold engineUnitStep
  cases h : beginInternal s with
  | none => exact engineStep_engineMove s
  | some t => exact ⟨t, rfl, beginInternal_engineMove h⟩

/-- What a move of the engine answers has the parameters of the state before it. -/
theorem params_of_engineMove {s t : State} {o : Host.Outcome State Fault Refusal}
    (hmove : ∃ t, o = .next t ∧ EngineMove s t) (h : o = .next t) : t.params = s.params := by
  obtain ⟨t', rfl, hmove⟩ := hmove
  cases h
  exact hmove.hostSideSame.1

/-! ### Host transactions (R20 to R26, R63, R112) -/

@[simp] theorem writeCtrl_params (v : Word) (s : State) : (writeCtrl v s).params = s.params := by
  unfold writeCtrl
  split_ifs <;> rfl

@[simp] theorem writeStatus_params (v : Word) (s : State) :
    (writeStatus v s).params = s.params := by
  unfold writeStatus
  split_ifs <;> rfl

@[simp] theorem writeReg_params (n : RegName) (v : Word) (s : State) :
    (writeReg n v s).params = s.params := by
  unfold writeReg
  split
  · exact writeCtrl_params v s
  · exact writeStatus_params v s
  · split_ifs <;> rfl

@[simp] theorem hostRegWrite_params (offset : BitVec 8) (width : AccessWidth) (v : Word)
    (s : State) : (hostRegWrite offset width v s).params = s.params := by
  unfold hostRegWrite
  split
  · exact writeReg_params _ v s
  · rfl

@[simp] theorem readNamed_params (n : RegName) (s : State) :
    (readNamed n s).params = s.params := by
  unfold readNamed
  split_ifs <;> rfl

@[simp] theorem hostRegRead_params (offset : BitVec 8) (width : AccessWidth) (s : State) :
    (hostRegRead offset width s).params = s.params := by
  unfold hostRegRead
  split
  · exact readNamed_params _ s
  · rfl

@[simp] theorem pollOnce_params (s : State) : (pollOnce s).params = s.params := by
  unfold pollOnce
  split_ifs <;> exact hostRegRead_params _ _ s

@[simp] theorem gatherBytes_params (width : AccessWidth) (s : State) :
    (gatherBytes width s).params = s.params := by
  obtain ⟨replies, h⟩ := gatherBytes_frame width s
  rw [h]

theorem hostMemWrite_params {a : Nat} {b : Byte} {s t : State}
    (h : hostMemWrite a b s = .next t) : t.params = s.params := by
  unfold hostMemWrite at h
  split_ifs at h <;> cases h <;> rfl

theorem hostMemRead_params {a : Nat} {s t : State} (h : hostMemRead a s = .next t) :
    t.params = s.params := by
  unfold hostMemRead at h
  split_ifs at h <;> cases h <;> rfl

theorem hostOp_params {op : HostOp} {s t : State} (h : hostOp op s = .next t) :
    t.params = s.params := by
  cases op
  case memWrite => exact hostMemWrite_params h
  case memRead => exact hostMemRead_params h
  all_goals
    cases h
    simp

theorem hostStep_params {s t : State} (h : hostStep s = .next t) : t.params = s.params := by
  unfold hostStep at h
  split at h
  · cases h
    rfl
  · exact (hostOp_params h).trans rfl

/-! ### Every step (R309) -/

theorem turnStep_params {turn : Turn} {s t : State} (h : turnStep turn s = .next t) :
    t.params = s.params := by
  cases turn with
  | host => exact hostStep_params h
  | engine =>
    simp only [turnStep] at h
    split_ifs at h
    · exact params_of_engineMove (engineStep_engineMove s) h
    · cases h
      rfl
  | engineUnit =>
    simp only [turnStep] at h
    split_ifs at h
    · exact params_of_engineMove (engineUnitStep_engineMove s) h
    · cases h
      rfl

/-- Settles O18, by the agent that moves: the engine completes or changes its stage, and a host
transaction writes registers, LMEM and the host's own lists. -/
theorem stepKeepsParameters : Obligations.StepKeepsParameters := by
  intro s t h
  unfold step runStep at h
  split at h
  · exact (turnStep_params h).trans rfl
  · split_ifs at h
    · exact params_of_engineMove (engineStep_engineMove s) h
    · exact hostStep_params h

end Sys2Proof.Proofs
end

section
/-! PROOFS. O16: every step keeps the invariant. The invariant is cut into LMEM, the status registers (`StatusFits`), the engine's stage (`EngineFits`) and the event counter; each agent's move is checked against the parts it touches. -/
namespace Sys2Proof.Proofs
open Sys2Proof Sys2Proof.Machine Sys2Proof.Laws

/-! ### The invariant, part by part -/

/-- The invariant's clauses on STATUS, ERR_INFO and the output lengths (R25, R27, R35, R36, R130,
R300, R302). -/
structure StatusFits (r : Regs) : Prop where
  truncNoErr : r.trunc = true → r.err = 0
  infoOfErr : r.err = 0 → r.errInfo = 0
  errDefined : r.err.toNat ≤ 0x0E
  errNoOutput : r.err ≠ 0 → r.outLen = 0 ∧ r.auxOutLen = 0
  busyClean : r.busy = true → r.done = false ∧ r.trunc = false ∧ r.err = 0

/-- The invariant's clauses on a stage: the commands that have it, and what its tables hold (R45,
R46, R255). -/
def StageFits (op : BitVec 4) (x : Internals) : Sequencer → Prop
  | .idle => True
  | .tokens => (op = 0x2 ∨ op = 0x6 ∨ op = 0x8) ∧ (op = 0x8 → x.chunk.hdr.isSome = true)
  | .signature => op = 0x8
  | .chunks => op = 0x8
  | .encoder => op = 0x1 ∨ op = 0x5 ∨ op = 0x7
  | .count => op = 0x3 ∨ op = 0x5
  | .leaves => op = 0x3 ∨ op = 0x5
  | .build => (op = 0x3 ∨ op = 0x5) ∧ x.arena.length + x.queue.length ≤ 512 ∧
      (x.queue = [] → x.arena = [])
  | .codes => (op = 0x3 ∨ op = 0x5) ∧ x.arena.length ≤ 511
  | .emit => (op = 0x3 ∨ op = 0x5) ∧ x.arena.length ≤ 511
  | .bits => (op = 0x4 ∨ op = 0x6) ∧ x.bits.cand.length ≤ 255

/-- The stage that the engine is in fits the running command and the internal tables. -/
def EngineFits (s : State) : Prop := StageFits s.regs.op s.internals s.seq

theorem invariant_iff (s : State) : Invariant s ↔
    Memory.wf s.params.lmemSize s.lmem = true ∧ StatusFits s.regs ∧
      (s.seq ≠ .idle → s.regs.busy = true) ∧ EngineFits s ∧ s.lmemEpoch < s.freeCtr := by
  constructor
  · intro h
    refine ⟨h.lmem, ⟨h.truncNoErr, h.infoOfErr, h.errDefined, h.errNoOutput, h.busyClean⟩,
      h.stageBusy, ?_, h.epochPast⟩
    unfold EngineFits
    cases hq : s.seq with
    | idle => trivial
    | tokens => exact ⟨h.tokensOp hq, h.tokensHdr hq⟩
    | signature => exact h.signatureOp hq
    | chunks => exact h.chunksOp hq
    | encoder => exact h.encoderOp hq
    | count | leaves => exact h.coderOp (by simp [hq])
    | build => exact ⟨h.coderOp (by simp [hq]), h.arenaRoom hq⟩
    | codes | emit => exact ⟨h.coderOp (by simp [hq]), h.arenaBound (by simp [hq])⟩
    | bits => exact ⟨h.bitsOp hq, h.candBound hq⟩
  · rintro ⟨hmem, hstatus, hbusy, hfits, hepoch⟩
    obtain ⟨htrunc, hinfo, hdef, hout, hclean⟩ := hstatus
    have hstage : ∀ q, s.seq = q → StageFits s.regs.op s.internals q := fun _ hq => hq ▸ hfits
    exact
      { lmem := hmem
        truncNoErr := htrunc
        infoOfErr := hinfo
        errDefined := hdef
        errNoOutput := hout
        busyClean := hclean
        stageBusy := hbusy
        tokensOp := fun hq => (hstage _ hq).1
        signatureOp := fun hq => hstage _ hq
        chunksOp := fun hq => hstage _ hq
        encoderOp := fun hq => hstage _ hq
        coderOp := by
          simp only [List.mem_cons, List.not_mem_nil, or_false]
          rintro (hq | hq | hq | hq | hq)
          · exact hstage _ hq
          · exact hstage _ hq
          · exact (hstage _ hq).1
          · exact (hstage _ hq).1
          · exact (hstage _ hq).1
        bitsOp := fun hq => (hstage _ hq).1
        tokensHdr := fun hq => (hstage _ hq).2
        arenaRoom := fun hq => (hstage _ hq).2
        arenaBound := by
          simp only [List.mem_cons, List.not_mem_nil, or_false]
          rintro (hq | hq) <;> exact (hstage _ hq).2
        candBound := fun hq => (hstage _ hq).2
        epochPast := hepoch }

/-! ### How the parts survive (R47, R131, R134) -/

theorem ErrCode.toByte_ne_zero (c : ErrCode) : c.toByte ≠ 0 := by cases c <;> decide

theorem ErrCode.toByte_le (c : ErrCode) : c.toByte.toNat ≤ 0x0E := by cases c <;> decide

theorem statusFits_okRegs (r : Regs) (o : CmdOutput) : StatusFits (okRegs r o) where
  truncNoErr _ := rfl
  infoOfErr _ := rfl
  errDefined := by simp
  errNoOutput h := absurd rfl h
  busyClean h := by simp at h

theorem statusFits_errRegs (r : Regs) (e : CmdError) : StatusFits (errRegs r e) where
  truncNoErr h := by simp at h
  infoOfErr h := absurd h (ErrCode.toByte_ne_zero e.code)
  errDefined := ErrCode.toByte_le e.code
  errNoOutput _ := ⟨rfl, rfl⟩
  busyClean h := by simp at h

theorem statusFits_reset : StatusFits Regs.reset where
  truncNoErr _ := rfl
  infoOfErr _ := rfl
  errDefined := by decide
  errNoOutput _ := ⟨rfl, rfl⟩
  busyClean _ := ⟨rfl, rfl, rfl⟩

theorem engineFits_of_idle {s : State} (h : s.seq = .idle) : EngineFits s := by
  simp [EngineFits, h, StageFits]

theorem engineFits_complete (op : BitVec 4) (r : CmdResult) (s : State) :
    EngineFits (complete op r s) := engineFits_of_idle (by simp)

/-- A state whose engine is idle meets the invariant when LMEM, the status registers and the event
counter do. -/
theorem invariant_of_idle {s : State} (hmem : Memory.wf s.params.lmemSize s.lmem = true)
    (hstatus : StatusFits s.regs) (hseq : s.seq = .idle) (hepoch : s.lmemEpoch < s.freeCtr) :
    Invariant s :=
  (invariant_iff s).mpr
    ⟨hmem, hstatus, fun h => absurd hseq h, engineFits_of_idle hseq, hepoch⟩

section
variable {s : State} (h : Invariant s)
include h

theorem statusFits_of_invariant : StatusFits s.regs := ((invariant_iff s).mp h).2.1

theorem engineFits_of_invariant : EngineFits s := ((invariant_iff s).mp h).2.2.2.1

theorem invariant_complete (op : BitVec 4) (r : CmdResult) : Invariant (complete op r s) := by
  refine invariant_of_idle ?_ ?_ (by simp) ?_
  · rw [complete_params]
    exact wf_complete op r s h.lmem
  · cases r with
    | ok o => exact statusFits_okRegs s.regs o
    | error e => exact statusFits_errRegs s.regs e
  · simpa using Nat.lt_succ_of_lt h.epochPast

/-- The engine's move, while BUSY, keeps the invariant when the stage it leaves fits. -/
theorem invariant_engineMove {t : State} (hbusy : s.regs.busy = true) (hmove : EngineMove s t)
    (hfits : EngineFits t) : Invariant t := by
  obtain ⟨op, r, rfl⟩ | ⟨q, x, rfl⟩ := hmove
  · exact invariant_complete h op r
  · have hstatus := statusFits_of_invariant h
    exact (invariant_iff _).mpr ⟨h.lmem, hstatus, fun _ => hbusy, hfits, h.epochPast⟩

/-- What the host has pending and has received, whose turns come next, and events that leave nothing
unspecified in LMEM are no part of the invariant. -/
theorem invariant_withHostSide (ops : List HostOp) (replies : List Reply) (ts : List Turn) {n : Nat}
    (hn : s.freeCtr ≤ n) :
    Invariant { s with host := ops, received := replies, turns := ts, freeCtr := n } := by
  obtain ⟨hmem, hstatus, hbusy, hfits, hepoch⟩ := (invariant_iff s).mp h
  exact (invariant_iff _).mpr ⟨hmem, hstatus, hbusy, hfits, Nat.lt_of_lt_of_le hepoch hn⟩

/-- A write of registers keeps the invariant when it leaves a running command running. -/
theorem invariant_withRegs {r : Regs} (hr : StatusFits r)
    (hrun : s.seq ≠ .idle → r.busy = true ∧ r.op = s.regs.op) : Invariant { s with regs := r } := by
  obtain ⟨hmem, -, -, hfits, hepoch⟩ := (invariant_iff s).mp h
  refine (invariant_iff _).mpr ⟨hmem, hr, fun hq => (hrun hq).1, ?_, hepoch⟩
  by_cases hq : s.seq = .idle
  · exact engineFits_of_idle hq
  · show StageFits r.op s.internals s.seq
    rw [(hrun hq).2]
    exact hfits

theorem invariant_withLmem {m : Memory} (hm : Memory.wf s.params.lmemSize m = true) :
    Invariant { s with lmem := m } := by
  obtain ⟨-, hstatus, hbusy, hfits, hepoch⟩ := (invariant_iff s).mp h
  exact (invariant_iff _).mpr ⟨hm, hstatus, hbusy, hfits, hepoch⟩

theorem invariant_softReset : Invariant (softReset s) :=
  invariant_of_idle (wf_softReset s h.lmem) statusFits_reset rfl (Nat.lt_succ_of_lt h.epochPast)

omit h in
theorem invariant_hardReset (s : State) : Invariant (hardReset s) :=
  invariant_of_idle (wf_hardReset s) statusFits_reset rfl (Nat.lt_succ_self _)

end

/-! ### The token and chunk stages (R177, R247, R255) -/

theorem afterToken_fits {s : State} (hs : EngineFits s) (r : Except CmdError TokenUnit) :
    EngineFits (afterToken r s) := by
  obtain ⟨u, -, h⟩ | ⟨e, -, h⟩ := afterToken_cases r s <;> rw [h]
  · show StageFits s.regs.op { s.internals with tok := u } s.seq
    unfold EngineFits at hs
    cases hq : s.seq <;> rw [hq] at hs <;> exact hs
  · exact engineFits_complete ..

/-- CONT_READ goes on with the token loop only when its container has metadata (R255). -/
theorem hdr_of_afterChunks_tokens {s : State} {u : ChunkUnit} {trunc : Bool} {t : TokenUnit}
    (h : afterChunks s u trunc = .ok (.tokens t)) : u.hdr.isSome = true := by
  unfold afterChunks at h
  cases hu : u.hdr with
  | none => simp [hu] at h
  | some hdr => rfl

theorem chunksEnd_fits {s : State} (hop : s.regs.op = 0x8) (trunc : Bool) :
    EngineFits (chunksEnd trunc s) := by
  obtain ⟨r, h⟩ | ⟨t, ht, h⟩ := chunksEnd_cases trunc s <;> rw [h]
  · exact engineFits_complete ..
  · exact ⟨.inr (.inr hop), fun _ => hdr_of_afterChunks_tokens ht⟩

theorem afterChunk_fits {s : State} (hseq : s.seq = .chunks) (hop : s.regs.op = 0x8)
    (r : Except CmdError ChunkStep) : EngineFits (afterChunk r s) := by
  obtain ⟨u, -, h⟩ | ⟨u, -, h⟩ | ⟨e, -, h⟩ := afterChunk_cases r s <;> rw [h]
  · simpa [EngineFits, hseq, StageFits] using hop
  · exact chunksEnd_fits (s := { s with internals := { s.internals with chunk := u } }) hop false
  · exact engineFits_complete ..

/-! ### The stages that perform no instruction (R46, R174, R200 to R209, R246) -/

theorem leavesOf_length_le (count : Byte → Nat) : (leavesOf count).length ≤ 256 := by
  have h := List.length_filter_le (fun v => decide (0 < count v)) byteValues
  simpa [leavesOf, byteValues] using h

/-- A merge makes one node of two queue entries, so the room of 512 is never outgrown (R46, R203). -/
theorem mergeOnce_room {x y : Internals} (h : mergeOnce x = some y) :
    y.arena.length + y.queue.length = x.arena.length + x.queue.length ∧ y.queue ≠ [] := by
  unfold mergeOnce at h
  split at h
  · rename_i i j queue hq
    cases h
    refine ⟨?_, List.ne_nil_of_length_pos (by simp)⟩
    simp [hq]
    omega
  · cases h

/-- When no merge is left, the queue holds the root alone, or nothing of no leaves (R203). -/
theorem queue_length_of_mergeOnce_none {x : Internals} (h : mergeOnce x = none) :
    x.queue.length ≤ 1 := by
  unfold mergeOnce at h
  split at h
  · cases h
  · rename_i hq
    match hx : x.queue with
    | [] | [_] => simp
    | i :: j :: queue => exact absurd hx (hq i j queue)

/-- The candidate code never outgrows its register of 255 bits (R46, R210). -/
theorem pastBit_cand_le (b : Bool) (rest : Bits) (u : BitUnit) (h : u.cand.length ≤ 255) :
    (pastBit b rest u).cand.length ≤ 255 := by
  unfold pastBit
  split
  · exact h
  · split
    · simp
    · simp [pushBit]
      omega

theorem encoderEnd_fits (s : State) : EngineFits (encoderEnd s) := by
  unfold encoderEnd
  dsimp only
  split
  · split
    · exact .inr ‹_›
    · exact engineFits_complete ..
  · split <;> exact engineFits_complete ..

theorem emitStep_fits (s : State) : EngineFits (emitStep s) := by
  unfold emitStep
  split <;> exact engineFits_complete ..

section
variable {s : State} (hs : EngineFits s)
include hs

theorem encoderStep_fits (hseq : s.seq = .encoder) : EngineFits (encoderStep s) := by
  unfold encoderStep
  split
  · simpa [EngineFits, hseq, StageFits] using hs
  · exact encoderEnd_fits s

theorem buildStep_fits (hseq : s.seq = .build) : EngineFits (buildStep s) := by
  simp only [EngineFits, hseq, StageFits] at hs
  obtain ⟨hop, hroom, hempty⟩ := hs
  unfold buildStep
  split
  · rename_i x hx
    obtain ⟨hlen, hqueue⟩ := mergeOnce_room hx
    show StageFits s.regs.op x s.seq
    rw [hseq]
    exact ⟨hop, hlen ▸ hroom, fun h => absurd h hqueue⟩
  · rename_i hx
    have hone := queue_length_of_mergeOnce_none hx
    refine ⟨hop, ?_⟩
    show s.internals.arena.length ≤ 511
    cases hq : s.internals.queue with
    | nil => simp [hempty hq]
    | cons i queue => simp only [hq, List.length_cons] at hroom; omega

theorem bitsStep_fits (hseq : s.seq = .bits) : EngineFits (bitsStep s) := by
  simp only [EngineFits, hseq, StageFits] at hs
  obtain ⟨hop, hcand⟩ := hs
  unfold bitsStep
  dsimp only
  split
  · simpa only [EngineFits, hseq, StageFits] using ⟨hop, pastBit_cand_le _ _ _ hcand⟩
  · unfold bitsEnd
    split
    · rename_i h6
      split
      · exact ⟨.inr (.inl h6), fun h8 => by simp [h6] at h8⟩
      · exact engineFits_complete ..
    · exact engineFits_complete ..

theorem signatureStep_fits (hseq : s.seq = .signature) : EngineFits (signatureStep s) := by
  unfold signatureStep
  split
  · simpa [EngineFits, hseq, StageFits] using hs
  · exact engineFits_complete ..

theorem stageStep_fits : EngineFits (stageStep s) := by
  have hstage : StageFits s.regs.op s.internals s.seq := hs
  unfold stageStep
  cases hseq : s.seq with
  | idle | tokens | chunks => exact hs
  | signature => exact signatureStep_fits hs hseq
  | encoder => exact encoderStep_fits hs hseq
  | count => rw [hseq] at hstage; exact hstage
  | leaves =>
    rw [hseq] at hstage
    have hleaves := leavesOf_length_le (tableCount s.internals.freq)
    refine ⟨hstage, ?_, fun h => ?_⟩
    · simp [leavesStep]; omega
    · have hnone := congrArg List.length h
      simp only [leavesStep, foldr_enqueueIndex_length, List.length_range, List.length_nil] at hnone
      exact List.eq_nil_of_length_eq_zero hnone
  | build => exact buildStep_fits hs hseq
  | codes => rw [hseq] at hstage; exact hstage
  | emit => exact emitStep_fits s
  | bits => exact bitsStep_fits hs hseq

/-! ### The engine's move, in either order -/

theorem engineStep_fits {t : State} (h : engineStep s = .next t) : EngineFits t := by
  have hstage : StageFits s.regs.op s.internals s.seq := hs
  unfold engineStep fetch at h
  cases hseq : s.seq with
  | idle =>
    simp only [hseq, decodeCommand_cmdWord, exec_commandOf] at h
    cases h
    exact engineFits_complete ..
  | tokens =>
    simp only [hseq, decodeToken] at h
    cases hp : parseToken s.internals.tok.rest with
    | ok tok =>
      simp only [hp, exec_token] at h
      cases h
      exact afterToken_fits hs _
    | error e =>
      rw [hp] at h
      cases e <;> cases h <;> exact engineFits_complete ..
  | chunks =>
    rw [hseq] at hstage
    simp only [hseq, decodeChunk] at h
    cases hp : parseChunk s.internals.chunk.rest with
    | ok c =>
      simp only [hp, exec_chunk] at h
      cases h
      exact afterChunk_fits hseq hstage _
    | error e =>
      rw [hp] at h
      cases h
      exact chunksEnd_fits hstage true
  | signature | encoder | count | leaves | build | codes | emit | bits =>
    rw [hseq] at h
    cases h
    exact stageStep_fits hs

end
/-- The first move of a command's internal run is an error entry, or loads a stage that fits. -/
theorem entered_fits {α : Type} {s : State} {enter : Except CmdError α → State}
    (r : Except CmdError α) (herror : ∀ e, enter (.error e) = complete s.regs.op (.error e) s)
    (hok : ∀ a, r = .ok a → EngineFits (enter (.ok a))) : EngineFits (enter r) := by
  cases r with
  | error e => exact herror e ▸ engineFits_complete ..
  | ok a => exact hok a rfl

theorem beginInternal_fits {s t : State} (h : beginInternal s = some t) : EngineFits t := by
  unfold beginInternal at h
  split at h <;> cases h
  case h_1 hop =>
    exact entered_fits (enter := (enterEncoder · s)) _ (fun _ => rfl) fun _ _ =>
      .inl (op_eq_of_toNat hop)
  case h_2 hop =>
    exact entered_fits (enter := (enterTokens · s)) _ (fun _ => rfl) fun _ _ =>
      ⟨.inl (op_eq_of_toNat hop), fun (h8 : s.regs.op = 0x8) => by simp [h8] at hop⟩
  case h_3 hop =>
    exact entered_fits (enter := (enterCoder · s)) _ (fun _ => rfl) fun _ _ =>
      .inl (op_eq_of_toNat hop)
  case h_4 hop =>
    refine entered_fits (enter := (enterBits · s)) _ (fun _ => rfl) fun u hu => ?_
    obtain ⟨hcand, -, -⟩ := startHuffDecode_cand s u hu
    exact ⟨.inl (op_eq_of_toNat hop), (by simp [hcand] : u.cand.length ≤ 255)⟩
  case h_5 hop =>
    exact entered_fits (enter := (enterEncoder · s)) _ (fun _ => rfl) fun _ _ =>
      .inr (.inl (op_eq_of_toNat hop))
  case h_6 hop =>
    refine entered_fits (enter := (enterBits · s)) _ (fun _ => rfl) fun u hu => ?_
    obtain ⟨hcand, -, -⟩ := startUnpack_cand s u hu
    exact ⟨.inr (op_eq_of_toNat hop), (by simp [hcand] : u.cand.length ≤ 255)⟩
  case h_7 hop =>
    refine entered_fits (enter := (enterRows · s)) _ (fun _ => rfl) fun rows _ => ?_
    dsimp only [enterRows]
    split
    · exact .inr (.inr (op_eq_of_toNat hop))
    · exact engineFits_complete ..
  case h_8 hop =>
    exact entered_fits (enter := (enterParser · s)) _ (fun _ => rfl) fun _ _ => op_eq_of_toNat hop

theorem invariant_engineStep {s t : State} (hs : Invariant s) (hbusy : s.regs.busy = true)
    (h : engineStep s = .next t) : Invariant t := by
  obtain ⟨t', h', hmove⟩ := engineStep_engineMove s
  cases h'.symm.trans h
  exact invariant_engineMove hs hbusy hmove (engineStep_fits (engineFits_of_invariant hs) h)

theorem invariant_engineUnitStep {s t : State} (hs : Invariant s) (hbusy : s.regs.busy = true)
    (h : engineUnitStep s = .next t) : Invariant t := by
  unfold engineUnitStep at h
  cases hfirst : beginInternal s with
  | none =>
    rw [hfirst] at h
    exact invariant_engineStep hs hbusy h
  | some t' =>
    rw [hfirst] at h
    cases h
    exact invariant_engineMove hs hbusy (beginInternal_engineMove hfirst) (beginInternal_fits hfirst)

/-! ### Host transactions (R20 to R26, R63, R112) -/

/-- What the host's operand registers hold is no part of STATUS, ERR_INFO or the output lengths. -/
theorem statusFits_setOperand {r : Regs} (h : StatusFits r) (v : Word) (n : RegName) :
    StatusFits (setOperand r v n) := by
  obtain ⟨htrunc, hinfo, hdef, hout, hclean⟩ := h
  cases n <;> exact ⟨htrunc, hinfo, hdef, hout, hclean⟩

theorem statusFits_withIe {r : Regs} (h : StatusFits r) (b : Bool) :
    StatusFits { r with ie := b } := by
  obtain ⟨htrunc, hinfo, hdef, hout, hclean⟩ := h
  exact ⟨htrunc, hinfo, hdef, hout, hclean⟩

theorem statusFits_acknowledge {r : Regs} (h : StatusFits r) : StatusFits (acknowledge r) := by
  obtain ⟨htrunc, hinfo, hdef, hout, hclean⟩ := h
  exact ⟨htrunc, hinfo, hdef, hout, fun hb => ⟨rfl, (hclean hb).2⟩⟩

theorem statusFits_accept {r : Regs} (h : StatusFits r) : StatusFits (accept r) := by
  unfold accept
  split
  · exact h
  · exact ⟨fun _ => rfl, fun _ => rfl, by simp, fun h => absurd rfl h, fun _ => ⟨rfl, rfl, rfl⟩⟩

theorem accept_busy (r : Regs) : (accept r).busy = true := by
  unfold accept
  split
  · assumption
  · rfl

theorem accept_op (r : Regs) : (accept r).op = r.op := by
  unfold accept
  split <;> rfl

section
variable {s : State} (h : Invariant s)
include h

theorem invariant_writeCtrl (v : Word) : Invariant (writeCtrl v s) := by
  have hie := statusFits_withIe (statusFits_of_invariant h) (v.getLsbD 2)
  unfold writeCtrl
  split_ifs
  · exact invariant_softReset h
  · exact invariant_withRegs h (statusFits_accept hie) fun _ => ⟨accept_busy _, accept_op _⟩
  · exact invariant_withRegs h hie fun hq => ⟨h.stageBusy hq, rfl⟩

theorem invariant_writeStatus (v : Word) : Invariant (writeStatus v s) := by
  unfold writeStatus
  split_ifs
  · exact invariant_withRegs h (statusFits_acknowledge (statusFits_of_invariant h)) fun hq =>
      ⟨h.stageBusy hq, rfl⟩
  · exact h

/-- Operand registers are written on an idle core only, so no running command loses its opcode. -/
theorem invariant_writeReg (n : RegName) (v : Word) : Invariant (writeReg n v s) := by
  unfold writeReg
  split
  · exact invariant_writeCtrl h v
  · exact invariant_writeStatus h v
  · split_ifs with hbusy
    · exact h
    · exact invariant_withRegs h (statusFits_setOperand (statusFits_of_invariant h) v _) fun hq =>
        absurd (h.stageBusy hq) hbusy

theorem invariant_hostRegWrite (offset : BitVec 8) (width : AccessWidth) (v : Word) :
    Invariant (hostRegWrite offset width v s) := by
  unfold hostRegWrite
  split
  · exact invariant_writeReg h _ v
  · exact h

theorem invariant_receive (reply : Reply) : Invariant (receive reply s) :=
  invariant_withHostSide h s.host (reply :: s.received) s.turns le_rfl

theorem invariant_expandTo (ops : List HostOp) : Invariant (expandTo ops s) :=
  invariant_withHostSide h (ops ++ s.host) s.received s.turns le_rfl

theorem invariant_readNamed (n : RegName) : Invariant (readNamed n s) := by
  unfold readNamed
  split_ifs
  · exact invariant_withHostSide h s.host (_ :: s.received) s.turns (Nat.le_succ s.freeCtr)
  · exact invariant_receive h _

theorem invariant_hostRegRead (offset : BitVec 8) (width : AccessWidth) :
    Invariant (hostRegRead offset width s) := by
  unfold hostRegRead
  split
  · exact invariant_readNamed h _
  · exact invariant_receive h _

theorem invariant_pollOnce : Invariant (pollOnce s) := by
  have hread := invariant_hostRegRead h RegName.status.offset .w32
  unfold pollOnce
  split_ifs
  · exact hread
  · exact invariant_withHostSide hread (.poll :: s.host) _ _ le_rfl

theorem invariant_gatherBytes (width : AccessWidth) : Invariant (gatherBytes width s) := by
  obtain ⟨replies, hg⟩ := gatherBytes_frame width s
  rw [hg]
  exact invariant_withHostSide h s.host replies s.turns le_rfl

theorem invariant_hostMemWrite {a : Nat} {b : Byte} {t : State}
    (hw : hostMemWrite a b s = .next t) : Invariant t := by
  unfold hostMemWrite at hw
  split_ifs at hw <;> cases hw
  · exact invariant_withLmem h (wf_memSet _ _ _ _ h.lmem)
  · exact h

theorem invariant_hostMemRead {a : Nat} {t : State} (hr : hostMemRead a s = .next t) :
    Invariant t := by
  unfold hostMemRead at hr
  split_ifs at hr <;> cases hr <;> exact invariant_receive h _

theorem invariant_hostOp {op : HostOp} {t : State} (ho : hostOp op s = .next t) : Invariant t := by
  cases op
  case memWrite => exact invariant_hostMemWrite h ho
  case memRead => exact invariant_hostMemRead h ho
  all_goals cases ho
  case regWrite => exact invariant_hostRegWrite h ..
  case regRead => exact invariant_hostRegRead h ..
  case poll => exact invariant_pollOnce h
  case busGather => exact invariant_gatherBytes h _
  case hardReset => exact invariant_hardReset s
  case run | ack | srst | busStore | busLoad => exact invariant_expandTo h _

theorem invariant_hostStep {t : State} (hh : hostStep s = .next t) : Invariant t := by
  unfold hostStep at hh
  split at hh
  · cases hh
    exact h
  · exact invariant_hostOp (invariant_withHostSide h _ s.received s.turns le_rfl) hh

/-! ### Every step (R309) -/

theorem invariant_turnStep {turn : Turn} {t : State} (hstep : turnStep turn s = .next t) :
    Invariant t := by
  cases turn with
  | host => exact invariant_hostStep h hstep
  | engine =>
    simp only [turnStep] at hstep
    split_ifs at hstep with hbusy
    · exact invariant_engineStep h hbusy hstep
    · cases hstep
      exact h
  | engineUnit =>
    simp only [turnStep] at hstep
    split_ifs at hstep with hbusy
    · exact invariant_engineUnitStep h hbusy hstep
    · cases hstep
      exact h

end

/-- Settles O16, by the agent that moves: an engine's move completes the command or leaves a stage
that fits, and a host transaction keeps a running command's opcode, or resets the core. -/
theorem stepKeepsInvariant : Obligations.StepKeepsInvariant := by
  intro s t hs h
  unfold step runStep at h
  split at h
  · exact invariant_turnStep (invariant_withHostSide hs s.host s.received _ le_rfl) h
  · split_ifs at h with hbusy
    · exact invariant_engineStep hs hbusy h
    · exact invariant_hostStep hs h

end Sys2Proof.Proofs
end

section
/-! PROOFS. O51 to O55 and O57: the register block as the host sees it. A host turn's transaction on a named register is `writeReg` or `readNamed`; every other offset or width reaches no register. -/
namespace Sys2Proof.Proofs
open Sys2Proof Sys2Proof.Machine Sys2Proof.Laws

/-! ### A host transaction on the register block (R20, R26, R42) -/

theorem step_hostToDo (s : State) (op : HostOp) (ops : List HostOp) (ts : List Turn) :
    step (hostToDo s op ops ts) = hostOp op (hostDone s ops ts) := rfl

@[simp] theorem regAt_offset (n : RegName) : regAt n.offset = some n := by cases n <;> rfl

theorem offset_eq_of_regAt {offset : BitVec 8} {n : RegName} (h : regAt offset = some n) :
    n.offset = offset := by
  simpa using List.find?_some h

/-- Every register stands at an aligned offset below 0x050. -/
theorem offset_aligned (n : RegName) : n.offset.toNat % 4 = 0 ∧ n.offset.toNat < 0x50 := by
  cases n <;> decide

/-- Unaligned offsets and reserved slots hold no register (R20, R42). -/
theorem regAt_eq_none {offset : BitVec 8} (h : offset.toNat % 4 ≠ 0 ∨ 0x50 ≤ offset.toNat) :
    regAt offset = none := by
  cases hat : regAt offset with
  | none => rfl
  | some n =>
    have haligned := offset_aligned n
    rw [offset_eq_of_regAt hat] at haligned
    omega

section
variable (s : State) (ops : List HostOp) (ts : List Turn) (v : Word)

theorem step_regWrite (n : RegName) :
    step (hostToDo s (.regWrite n.offset .w32 v) ops ts) =
      .next (writeReg n v (hostDone s ops ts)) := by
  simp [step_hostToDo, hostOp, hostRegWrite]

theorem step_regRead (n : RegName) :
    step (hostToDo s (.regRead n.offset .w32) ops ts) =
      .next (readNamed n (hostDone s ops ts)) := by
  simp [step_hostToDo, hostOp, hostRegRead]

/-- A host write that reaches no register is ignored (R26). -/
theorem step_regWrite_nowhere {offset : BitVec 8} {width : AccessWidth}
    (h : width ≠ .w32 ∨ regAt offset = none) :
    step (hostToDo s (.regWrite offset width v) ops ts) = .next (hostDone s ops ts) := by
  have hw : hostRegWrite offset width v (hostDone s ops ts) = hostDone s ops ts := by
    unfold hostRegWrite
    split
    · simp_all
    · rfl
  rw [step_hostToDo, hostOp, hw]

/-- A host read that reaches no register returns 0 (R26, R42). -/
theorem step_regRead_nowhere {offset : BitVec 8} {width : AccessWidth}
    (h : width ≠ .w32 ∨ regAt offset = none) :
    step (hostToDo s (.regRead offset width) ops ts) =
      .next { hostDone s ops ts with received := .word 0 :: s.received } := by
  have hr : hostRegRead offset width (hostDone s ops ts) =
      receive (.word 0) (hostDone s ops ts) := by
    unfold hostRegRead
    split
    · simp_all
    · rfl
  rw [step_hostToDo, hostOp, hr]
  rfl

end

/-! ### Operand registers and read-only registers (R20, R23, R24) -/

/-- The registers that the host may write while the core is idle, other than CTRL and STATUS, each
with the bits it keeps. -/
def operandRegs : List (RegName × Word) :=
  [(.cmd, 0x0000000F), (.cfg, 0x00000001), (.srcAddr, 0xFFFFFFFF), (.srcLen, 0xFFFFFFFF),
    (.dstAddr, 0xFFFFFFFF), (.dstCap, 0xFFFFFFFF), (.auxAddr, 0xFFFFFFFF), (.auxLen, 0xFFFFFFFF),
    (.bitLen, 0xFFFFFFFF), (.imgWidth, 0xFFFFFFFF), (.imgHeight, 0xFFFFFFFF)]

/-- The registers that ignore the host's writes (R26). -/
def readOnlyRegs : List RegName := [.id, .errInfo, .outLen, .auxOutLen, .metaWord, .metaIl, .result]

/-- Every register but CTRL and STATUS is locked while BUSY (R26, R346). -/
theorem writeReg_of_ne {n : RegName} (hctrl : n ≠ .ctrl) (hstatus : n ≠ .status) (v : Word)
    (s : State) : writeReg n v s =
      if s.regs.busy then s else { s with regs := setOperand s.regs v n } := by
  unfold writeReg
  split
  · exact absurd rfl hctrl
  · exact absurd rfl hstatus
  · rfl

/-- A read-only register ignores the write (R26). -/
theorem writeReg_readOnly {n : RegName} (h : n ∈ readOnlyRegs) (v : Word) (s : State) :
    writeReg n v s = s := by
  have hkeep : ∀ r, setOperand r v n = r := by
    simp only [readOnlyRegs, List.mem_cons, List.not_mem_nil, or_false] at h
    rcases h with rfl | rfl | rfl | rfl | rfl | rfl | rfl <;> intro r <;> rfl
  rw [writeReg_of_ne (by rintro rfl; simp [readOnlyRegs] at h)
    (by rintro rfl; simp [readOnlyRegs] at h), hkeep]
  exact ite_self s

/-- CMD keeps bits 3:0 of what is written (R23). -/
theorem setWidth_lowBits (v : Word) : (v.extractLsb' 0 4).setWidth 32 = v &&& 0x0000000F#32 := by
  apply BitVec.eq_of_toNat_eq
  have hmask : v.toNat &&& 15 = v.toNat % 16 := Nat.and_two_pow_sub_one_eq_mod v.toNat 4
  simp only [BitVec.toNat_setWidth, BitVec.extractLsb'_toNat, Nat.shiftRight_zero, BitVec.toNat_and,
    BitVec.toNat_ofNat, Nat.reducePow, Nat.reduceMod]
  omega

/-- CFG keeps bit 0 of what is written (R24). -/
theorem setWidth_lowBit (v : Word) :
    (BitVec.ofBool (v.getLsbD 0)).setWidth 32 = v &&& 0x00000001#32 := by
  apply BitVec.eq_of_toNat_eq
  have hbit : v.toNat &&& 1 = (v.getLsbD 0).toNat := by
    rw [Nat.and_one_is_mod, BitVec.getLsbD, Nat.testBit_zero]
    rcases Nat.mod_two_eq_zero_or_one v.toNat with h | h <;> simp [h]
  have hlt := (v.getLsbD 0).toNat_lt
  simp only [BitVec.toNat_setWidth, BitVec.toNat_ofBool, BitVec.toNat_and, BitVec.toNat_ofNat,
    Nat.reducePow, Nat.reduceMod]
  omega

/-- An operand register reads back what was written, its reserved bits 0. -/
theorem readReg_setOperand {n : RegName} {keep : Word} (h : (n, keep) ∈ operandRegs) (r : Regs)
    (v : Word) : readReg (setOperand r v n) n = v &&& keep := by
  have hall : v &&& 0xFFFFFFFF#32 = v := BitVec.and_allOnes
  simp only [operandRegs, List.mem_cons, Prod.mk.injEq, List.not_mem_nil, or_false] at h
  rcases h with ⟨rfl, rfl⟩ | ⟨rfl, rfl⟩ | h
  · exact setWidth_lowBits v
  · exact setWidth_lowBit v
  · rcases h with ⟨rfl, rfl⟩ | ⟨rfl, rfl⟩ | ⟨rfl, rfl⟩ | ⟨rfl, rfl⟩ | ⟨rfl, rfl⟩ | ⟨rfl, rfl⟩ |
      ⟨rfl, rfl⟩ | ⟨rfl, rfl⟩ | ⟨rfl, rfl⟩ <;> exact hall.symm

/-- Every register has storage of its own, so a write of one is read at no other. -/
theorem readReg_setOperand_of_ne {m n : RegName} (h : m ≠ n) (r : Regs) (v : Word) :
    readReg (setOperand r v n) m = readReg r m := by
  cases n <;> cases m <;> first | rfl | contradiction

/-- Settles O52: a write of an operand register is `setOperand` on an idle core, and nothing while
BUSY. -/
theorem operandRegistersReadBackOrLocked : Obligations.OperandRegistersReadBackOrLocked := by
  intro s ops ts v n keep hn
  have hwrite : writeReg n v (hostDone s ops ts) = if s.regs.busy then hostDone s ops ts
      else { hostDone s ops ts with regs := setOperand s.regs v n } :=
    writeReg_of_ne (by rintro rfl; simp at hn) (by rintro rfl; simp at hn) v _
  rw [step_regWrite, hwrite]
  refine ⟨fun hbusy => by simp [hbusy], fun hidle => ⟨setOperand s.regs v n, by simp [hidle], ?_, ?_⟩⟩
  · exact readReg_setOperand hn s.regs v
  · exact fun m hm => readReg_setOperand_of_ne hm s.regs v

/-- Settles O53: a read-only register ignores the write, and no register stands at a reserved slot
or an unaligned offset. -/
theorem ignoredRegisterWrites : Obligations.IgnoredRegisterWrites := by
  intro s ops ts v offset width
  have hnowhere : width ≠ .w32 ∨ offset.toNat % 4 ≠ 0 ∨ 0x50 ≤ offset.toNat →
      width ≠ .w32 ∨ regAt offset = none := fun h => h.imp_right regAt_eq_none
  refine ⟨?_, fun h => step_regRead_nowhere s ops ts (hnowhere h)⟩
  rintro (hreadOnly | h)
  · by_cases hwidth : width = .w32
    · have hoffset : offset ∈ readOnlyRegs.map RegName.offset := hreadOnly
      obtain ⟨n, hn, rfl⟩ := List.mem_map.mp hoffset
      rw [hwidth, step_regWrite, writeReg_readOnly hn]
    · exact step_regWrite_nowhere s ops ts v (.inl hwidth)
  · exact step_regWrite_nowhere s ops ts v (hnowhere h)

/-! ### Reads (R21, R26, R349) -/

theorem readNamed_of_specified {n : RegName} {s : State}
    (h : s.regs.busy = false ∨ readFreeWhileBusy n = false) :
    readNamed n s = receive (.word (readReg s.regs n)) s := by
  unfold readNamed
  rcases h with h | h <;> simp [h]

/-- A result register read while BUSY takes the next free value (R349, log 3). -/
theorem readNamed_of_unspecified {n : RegName} {s : State} (hbusy : s.regs.busy = true)
    (hfree : readFreeWhileBusy n = true) : readNamed n s =
      { receive (.word (Config.freeWord s.freeCtr)) s with freeCtr := s.freeCtr + 1 } := by
  simp [readNamed, hbusy, hfree]

theorem statusWord_of_busyClean {r : Regs} (hbusy : r.busy = true) (hdone : r.done = false)
    (htrunc : r.trunc = false) (herr : r.err = 0) : statusWord r = 1 := by
  simp only [statusWord, hbusy, hdone, htrunc, herr]
  decide

/-- Settles O54: a read is `readNamed`, whose value is the register's unless R349 leaves it
unspecified; while BUSY the invariant says that no outcome is reported. -/
theorem registerReadsHaveNoSideEffect : Obligations.RegisterReadsHaveNoSideEffect := by
  intro s ops ts n
  rw [step_regRead]
  have hspecified : ∀ n ∈ [RegName.id, .ctrl, .cmd, .cfg, .status, .errInfo, .srcAddr, .srcLen,
      .dstAddr, .dstCap, .auxAddr, .auxLen], readFreeWhileBusy n = false := by decide
  have hunspecified : ∀ n ∈ [RegName.bitLen, .outLen, .auxOutLen, .imgWidth, .imgHeight, .metaWord,
      .metaIl, .result], readFreeWhileBusy n = true := by decide
  refine ⟨fun h => ?_, rfl, fun hbusy hinv => ?_, fun hbusy hn => ?_⟩
  · rw [readNamed_of_specified (s := hostDone s ops ts) (h.imp_right (hspecified n))]
    rfl
  · obtain ⟨hdone, htrunc, herr⟩ := hinv.busyClean hbusy
    exact ⟨statusWord_of_busyClean hbusy hdone htrunc herr, hinv.infoOfErr herr⟩
  · exact ⟨_, congrArg _
      (readNamed_of_unspecified (s := hostDone s ops ts) hbusy (hunspecified n hn))⟩

/-! ### CTRL, STATUS and the interrupt (R22, R25, R50, R130) -/

section
variable {v : Word} (s : State)

theorem writeCtrl_softReset (hsrst : v.getLsbD 1 = true) : writeCtrl v s = softReset s :=
  if_pos hsrst

theorem writeCtrl_start (hsrst : v.getLsbD 1 = false) (hstart : v.getLsbD 0 = true) :
    writeCtrl v s = { s with regs := accept { s.regs with ie := v.getLsbD 2 } } := by
  rw [writeCtrl, if_neg (ne_true_of_eq_false hsrst), if_pos hstart]

theorem writeCtrl_ie (hsrst : v.getLsbD 1 = false) (hstart : v.getLsbD 0 = false) :
    writeCtrl v s = { s with regs := { s.regs with ie := v.getLsbD 2 } } := by
  rw [writeCtrl, if_neg (ne_true_of_eq_false hsrst), if_neg (ne_true_of_eq_false hstart)]

theorem writeStatus_ack (hack : v.getLsbD 1 = true) :
    writeStatus v s = { s with regs := acknowledge s.regs } := if_pos hack

theorem writeStatus_keep (hkeep : v.getLsbD 1 = false) : writeStatus v s = s :=
  if_neg (ne_true_of_eq_false hkeep)

end

/-- Settles O51: a start request sets IE, and is accepted when the core is idle. -/
theorem startAcceptedOnlyWhenIdle : Obligations.StartAcceptedOnlyWhenIdle := by
  intro s ops ts v hsrst hstart
  have hstep : step (hostToDo s (.regWrite 0x04 .w32 v) ops ts) =
      .next { hostDone s ops ts with regs := accept { s.regs with ie := v.getLsbD 2 } } :=
    (step_regWrite s ops ts v .ctrl).trans (congrArg _ (writeCtrl_start _ hsrst hstart))
  rw [hstep]
  refine ⟨fun hidle => ?_, fun hbusy => ?_⟩
  · rw [accept_of_idle { s.regs with ie := v.getLsbD 2 } hidle]
  · rw [accept_of_busy { s.regs with ie := v.getLsbD 2 } hbusy]

/-- Settles O55: the two writes change DONE and IE alone, and IRQ is their conjunction. -/
theorem statusWriteAcknowledges : Obligations.StatusWriteAcknowledges := by
  intro s ops ts v
  have hstatus := step_regWrite s ops ts v .status
  have hctrl := step_regWrite s ops ts v .ctrl
  refine ⟨rfl, fun hack => ?_, fun hkeep => ?_, fun hsrst hstart => ?_⟩
  · exact ⟨_, hstatus.trans (congrArg _ (writeStatus_ack _ hack)), rfl, rfl⟩
  · exact hstatus.trans (congrArg _ (writeStatus_keep _ hkeep))
  · refine ⟨_, hctrl.trans (congrArg _ (writeCtrl_ie _ hsrst hstart)), rfl, fun hmask => ?_,
      fun hie => ?_⟩
    · simp only [irq, hmask, Bool.and_false]
    · simp only [irq, hie, Bool.and_true, hostDone_regs]

/-! ### Hard reset (R20, R341, R343) -/

theorem readReg_reset (n : RegName) :
    readReg Regs.reset n = if n = .id then 0x4C5A4831 else if n = .cfg then 1 else 0 := by
  cases n <;> decide

/-- Settles O57: power-on and the platform's hard reset give the same registers and an idle engine. -/
theorem resetRegisterValues : Obligations.ResetRegisterValues := by
  intro s ops ts
  refine ⟨hardReset (hostDone s ops ts), step_hostToDo s .hardReset ops ts, fun r hr => ?_⟩
  obtain ⟨hregs, hseq⟩ : r.regs = Regs.reset ∧ r.seq = .idle := by
    simp only [List.mem_cons, List.not_mem_nil, or_false] at hr
    rcases hr with rfl | rfl <;> exact ⟨rfl, rfl⟩
  refine ⟨hseq, ?_, ?_, fun n => ?_⟩
  · simp [irq, hregs, Regs.reset]
  · simp [hregs, Regs.reset]
  · rw [hregs, readReg_reset]

end Sys2Proof.Proofs
end

section
/-! PROOFS. O56, O30, O34, O39 and O22: what a soft reset keeps of LMEM, the completions of CRC32, HUFF_ENCODE and CONT_READ, and that no command reads the internal state. -/
namespace Sys2Proof.Proofs
open Sys2Proof Sys2Proof.Machine Sys2Proof.Laws

/-! ### What a soft reset leaves of LMEM (R342, R351) -/

/-- The opcode's output regions are those that claims name (R141). -/
theorem outputRegions_eq_runningOutputs (r : Regs) : outputRegions r.op r = runningOutputs r := by
  unfold outputRegions runningOutputs
  generalize r.op = op
  obtain ⟨k, hk⟩ := op
  interval_cases k <;> rfl

/-- Commands 1 to 9 read SRC (R141). -/
theorem srcRegion_mem_inputRegions {op : BitVec 4} (h : 0x1#4 ≤ op ∧ op ≤ 0x9#4) (r : Regs) :
    srcRegion r ∈ inputRegions op r := by
  have hlo : 1 ≤ op.toNat := h.1
  have hhi : op.toNat ≤ 9 := h.2
  unfold inputRegions
  interval_cases op.toNat <;> exact List.mem_cons_self

/-- HUFF_DECODE reads AUX too (R141). -/
theorem auxRegion_mem_inputRegions (r : Regs) : auxRegion r ∈ inputRegions 0x4 r := by
  simp [inputRegions]

/-- A soft reset keeps every byte that it does not leave unspecified. -/
theorem lmemByte_softReset {s : State} {a : Nat}
    (h : s.regs.busy = true → a ∉ abandonedAddrs s) : lmemByte (softReset s) a = lmemByte s a := by
  refine lmemByte_congr _ _ _ ?_ rfl
  rw [softReset_lmem]
  split
  · rename_i hbusy
    rw [memLookup_memScramble, if_neg fun hin => h hbusy hin.1]
  · rfl

theorem not_mem_abandonedAddrs_of_outside {s : State} {a : Nat}
    (h : ∀ g ∈ outputRegions s.regs.op s.regs, ¬(g.addr ≤ a ∧ a < g.addr + g.len)) :
    a ∉ abandonedAddrs s := by
  intro hin
  obtain ⟨-, g, hg, hin⟩ := (mem_outputAddrs ..).mp (List.mem_filter.mp hin).1
  exact h g hg hin

theorem not_mem_abandonedAddrs_of_input {s : State} {a : Nat} {g : Region}
    (hg : g ∈ inputRegions s.regs.op s.regs) (hlo : g.addr ≤ a) (hhi : a < g.addr + g.len) :
    a ∉ abandonedAddrs s := by
  intro hin
  have hnone := (List.mem_filter.mp hin).2
  simp only [Bool.not_eq_true', List.any_eq_false] at hnone
  exact hnone g hg (by simp [Region.holds, hlo, hhi])

/-- Settles O56: the write is a soft reset, which leaves unspecified only output bytes of a running
command that are none of its input bytes. -/
theorem softResetRestoresRegisters : Obligations.SoftResetRestoresRegisters := by
  intro s ops ts v hsrst
  refine ⟨softReset (hostDone s ops ts),
    (step_regWrite s ops ts v .ctrl).trans (congrArg _ (writeCtrl_softReset _ hsrst)),
    rfl, rfl, rfl, rfl, rfl, rfl, rfl, fun hidle a => ?_, fun a hout => ?_, fun hop a hlo hhi => ?_,
    fun hop a hlo hhi => ?_⟩
  · exact lmemByte_softReset (s := hostDone s ops ts) fun hbusy =>
      absurd (hidle.symm.trans hbusy) Bool.false_ne_true
  · refine lmemByte_softReset (s := hostDone s ops ts) fun _ => not_mem_abandonedAddrs_of_outside ?_
    rw [outputRegions_eq_runningOutputs]
    exact hout
  · exact lmemByte_softReset (s := hostDone s ops ts) fun _ =>
      not_mem_abandonedAddrs_of_input (srcRegion_mem_inputRegions hop s.regs) hlo hhi
  · have haux : auxRegion s.regs ∈ inputRegions s.regs.op s.regs :=
      hop ▸ auxRegion_mem_inputRegions s.regs
    exact lmemByte_softReset (s := hostDone s ops ts) fun _ =>
      not_mem_abandonedAddrs_of_input haux hlo hhi

/-! ### Successful completions (R131, R133, R143) -/

section
variable {i : Instr} {op : BitVec 4} {s : State} {o : CmdOutput}
  (hexec : exec i s = .next (complete op (.ok o) s))
include hexec

/-- A command with a primary output that fits LMEM completes with its bytes at DST. -/
theorem completesWith_primary (haux : o.aux = [])
    (hin : s.regs.dstAddr.toNat + o.primary.length ≤ s.params.lmemSize) :
    completesWith i s (okRegs s.regs o) s.regs.dstAddr.toNat o.primary :=
  ⟨_, hexec, complete_seq .., rfl, complete_ok_lmemHolds op s o haux hin,
    complete_hostSideSame op (.ok o) s⟩

/-- A command without output completes with LMEM as it was, which holds no bytes at any address. -/
theorem completesWith_nothing (hprimary : o.primary = []) (haux : o.aux = []) (addr : Nat) :
    completesWith i s (okRegs s.regs o) addr [] := by
  refine ⟨_, hexec, complete_seq .., rfl, fun a => ?_, complete_hostSideSame op (.ok o) s⟩
  have hnone : ¬(addr ≤ a ∧ a < addr + ([] : List Byte).length) := by
    simp only [List.length_nil]
    omega
  rw [if_neg hnone]
  exact complete_ok_lmemSame op s o hprimary haux a

end

/-- A completion with two outputs that fit LMEM writes exactly their bytes (R143). -/
theorem complete_ok_lmemHolds2 (op : BitVec 4) (s : State) (o : CmdOutput)
    (hprimary : s.regs.dstAddr.toNat + o.primary.length ≤ s.params.lmemSize)
    (haux : s.regs.auxAddr.toNat + o.aux.length ≤ s.params.lmemSize) :
    lmemHolds2 s (complete op (.ok o) s) s.regs.dstAddr.toNat o.primary s.regs.auxAddr.toNat
      o.aux := by
  intro a
  have hprimaryOnly : lmemHolds s (complete op (.ok { o with aux := [] }) s)
      s.regs.dstAddr.toNat o.primary := complete_ok_lmemHolds op s { o with aux := [] } rfl hprimary
  rw [← hprimaryOnly a]
  exact lmemByte_memWrite s _ _ _ _ a rfl (complete_lmemEpoch ..) haux

theorem capacityCheck_of_le {n cap : Nat} (h : n ≤ cap) (k : Nat) :
    capacityCheck n cap k = .ok () := if_pos h

theorem rangeCheck_of_inRange {size : Nat} {r : Region} (h : r.inRange size = true) (k : Nat) :
    rangeCheck size r k = .ok () := if_pos h

theorem checkSrcDst_of_fit {s : State} (h : srcDstFit s) : checkSrcDst s = .ok () := by
  obtain ⟨-, hok⟩ | ⟨hno, -⟩ := checkSrcDst_cases s
  · exact hok
  · exact absurd h hno

theorem checkSrcDstAuxOut_of_fit {s : State} (hfit : srcDstFit s) (haux : auxFits s)
    (hsrc : (srcRegion s.regs).overlaps (auxRegion s.regs) = false) :
    checkSrcDstAuxOut s = .ok () := by
  obtain ⟨-, hok⟩ | ⟨hno, -⟩ := checkSrcDstAuxOut_cases s
  · exact hok
  · exact absurd ⟨hfit, haux, hsrc⟩ hno

/-- An output within DST_CAP lies in LMEM when DST does. -/
theorem primary_inRange {s : State} (h : srcDstFit s) {n : Nat} (hn : n ≤ s.regs.dstCap.toNat) :
    s.regs.dstAddr.toNat + n ≤ s.params.lmemSize := by
  obtain ⟨-, hdst, -⟩ := h
  have hin := (inRange_iff ..).mp hdst
  simp only [dstRegion] at hin
  omega

/-- A second output within AUX_LEN lies in LMEM when AUX does. -/
theorem aux_inRange {s : State} (h : auxFits s) {n : Nat} (hn : n ≤ s.regs.auxLen.toNat) :
    s.regs.auxAddr.toNat + n ≤ s.params.lmemSize := by
  obtain ⟨haux, -⟩ := h
  have hin := (inRange_iff ..).mp haux
  simp only [auxRegion] at hin
  omega

/-! ### CRC32 (R157) -/

/-- Settles O30: the one check is on SRC, and the CRC is the one result. -/
theorem crcCommandCompletes : Obligations.CrcCommandCompletes := by
  intro s hsrc
  have hcheck : checkSrc s = .ok () := rangeCheck_of_inRange ((inRange_iff ..).mpr hsrc) 1
  have hresult : cmdCrc32 s = .ok { result := some (crc32 (srcBytes s)) } := by
    rw [cmdCrc32, hcheck]
    rfl
  have hexec : exec .crc32 s = .next (complete 0x9 (cmdCrc32 s) s) := rfl
  rw [hresult] at hexec
  exact completesWith_nothing hexec rfl rfl 0

/-! ### HUFF_ENCODE (R212) -/

/-- Settles O34: with every check passed, the packed bits are the primary output and the table the
second. -/
theorem huffEncodeCompletes : Obligations.HuffEncodeCompletes := by
  intro s hfit haux hsrc bits table hbits htable
  have hresult : cmdHuffEncode s = .ok
      { primary := packBits bits, aux := table, bitLen := some (BitVec.ofNat 32 bits.length) } := by
    have hfinish : finishHuffEncode s bits (huffmanEncode (srcBytes s)).2 = .ok
        { primary := packBits bits, aux := table, bitLen := some (BitVec.ofNat 32 bits.length) } := by
      rw [finishHuffEncode, capacityCheck_of_le hbits, capacityCheck_of_le htable]
      rfl
    rw [cmdHuffEncode, checkSrcDstAuxOut_of_fit hfit haux hsrc]
    exact hfinish
  have hexec : exec .huffEncode s = .next (complete 0x3 (cmdHuffEncode s) s) := rfl
  rw [hresult] at hexec
  exact ⟨_, hexec, complete_seq .., rfl,
    complete_ok_lmemHolds2 0x3 s _ (primary_inRange hfit hbits) (aux_inRange haux htable),
    complete_hostSideSame ..⟩

/-! ### CONT_READ (R255) -/

/-- A container that reads has its signature, and its chunks parse (R246, R247). -/
theorem stages_of_containerRead {bytes : List Byte} {r : ChunkUnit × Bool}
    (h : containerRead bytes = .ok r) :
    ∃ u0, passSignature (chunkStart bytes) = .ok u0 ∧ runChunks u0 = .ok r := by
  unfold containerRead openContainer at h
  cases hsig : passSignature (chunkStart bytes) with
  | error e => simp [hsig, bind, Except.bind] at h
  | ok u0 => exact ⟨u0, rfl, by simpa [hsig, bind, Except.bind] using h⟩

section
variable {s : State} {u : ChunkUnit} {tr0 : Bool} (hfit : srcDstFit s)
  (hread : containerRead (srcBytes s) = .ok (u, tr0))
include hfit hread

/-- CONT_READ that is done after its chunk loop answers what `afterChunks` does. -/
theorem cmdContRead_of_done {o : CmdOutput} (hafter : afterChunks s u tr0 = .ok (.done o)) :
    cmdContRead s = .ok o := by
  obtain ⟨u0, hsig, hchunks⟩ := stages_of_containerRead hread
  rw [srcBytes] at hsig
  simp only [cmdContRead, startContRead, checkSrcDst_of_fit hfit, bind, Except.bind, pure, Except.pure,
    hsig, hchunks, hafter]

/-- CONT_READ that goes on with the token loop answers what follows that loop. -/
theorem cmdContRead_of_tokens {t : TokenUnit} {rows : List Byte} {tr1 : Bool}
    (hafter : afterChunks s u tr0 = .ok (.tokens t)) (htokens : runTokens t = .ok (rows, tr1)) :
    cmdContRead s = finishContRead s u.hdr rows tr1 := by
  obtain ⟨u0, hsig, hchunks⟩ := stages_of_containerRead hread
  rw [srcBytes] at hsig
  simp only [cmdContRead, startContRead, checkSrcDst_of_fit hfit, bind, Except.bind, pure, Except.pure,
    hsig, hchunks, hafter, htokens]

end

/-- Settles O39: without metadata the command is done after its chunks, with nothing written; with
metadata the pixels pass their two capacity checks. -/
theorem contReadCompletes : Obligations.ContReadCompletes := by
  intro s u tr0 hfit hread
  have hexec : exec .contRead s = .next (complete 0x8 (cmdContRead s) s) := rfl
  refine ⟨fun hnone => ?_, fun h rows out tr1 tr2 hhdr hpayload hlzss htokens hrows hpixels hout => ?_⟩
  · have hafter : afterChunks s u tr0 = .ok (.done { trunc := true, image := some noImageInfo }) := by
      rw [afterChunks, hnone]
    rw [cmdContRead_of_done hfit hread hafter] at hexec
    exact completesWith_nothing hexec rfl rfl 0
  · have hafter : afterChunks s u tr0 = .ok (.tokens (tokenStart u.payload tr0)) := by
      rw [afterChunks, hhdr]
      simp only [capacityCheck_of_le hpayload, hlzss]
      rfl
    have hrun : runTokens (tokenStart u.payload tr0) = .ok (rows, tr0 || tr1) := by
      rw [runTokens_tokenStart, htokens]
      rfl
    have hresult : finishContRead s u.hdr rows (tr0 || tr1) = .ok
        { primary := out, trunc := tr0 || tr1 || tr2, image := some (imageInfoOf h) } := by
      rw [hhdr, finishContRead, readPixels, capacityCheck_of_le hrows, hpixels]
      simp only [bind, Except.bind, capacityCheck_of_le hout]
      rfl
    rw [cmdContRead_of_tokens hfit hread hafter hrun, hresult] at hexec
    exact completesWith_primary hexec rfl (primary_inRange hfit hout)

/-! ### No command reads the internal state (R46, R47, R49) -/

theorem allCommands_eq_commandOf : ∀ c ∈ allCommands, c.2 = commandOf c.1 := by decide

/-- What a command computes is a function of registers, LMEM and parameters. -/
theorem commandResult_inStage (op : BitVec 4) (s : State) (q : Sequencer) (x : Internals) :
    commandResult op (inStage s q x) = commandResult op s := by
  obtain ⟨k, hk⟩ := op
  interval_cases k <;> rfl

/-- Settles O22: neither the command's result nor its completion reads the internal state. -/
theorem commandsIgnoreInternalState : Obligations.CommandsIgnoreInternalState := by
  intro c hc s x
  have hcompute : exec (commandOf c.1) (inStage s s.seq x) = exec (commandOf c.1) s := by
    rw [exec_commandOf, exec_commandOf, commandResult_inStage, complete_inStage]
  rw [allCommands_eq_commandOf c hc]
  exact hcompute

end Sys2Proof.Proofs
end

section
/-! PROOFS. O58: LMEM as the host sees it. Each transaction is said once per clause of R63 and R347: inside LMEM on an idle core, at or past LMEM_SIZE, inside LMEM while BUSY. -/
namespace Sys2Proof.Proofs
open Sys2Proof Sys2Proof.Machine Sys2Proof.Laws

/-! ### The host's transactions on LMEM (R63, R347) -/

section
variable {s : State} {a : Nat} (b : Byte)

theorem hostMemWrite_of_idle (ha : a < s.params.lmemSize) (hidle : s.regs.busy = false) :
    hostMemWrite a b s = .next { s with lmem := memSet s.params.lmemSize s.lmem a b } := by
  simp [hostMemWrite, ha, hidle]

theorem hostMemRead_of_idle (ha : a < s.params.lmemSize) (hidle : s.regs.busy = false) :
    hostMemRead a s = .next (receive (.byte (lmemByte s a)) s) := by
  simp [hostMemRead, ha, hidle]

theorem hostMemWrite_of_outside (ha : s.params.lmemSize ≤ a) : hostMemWrite a b s = .next s :=
  if_neg ha.not_gt

theorem hostMemRead_of_outside (ha : s.params.lmemSize ≤ a) :
    hostMemRead a s = .next (receive (.byte 0) s) :=
  if_neg ha.not_gt

theorem hostMemWrite_of_busy (ha : a < s.params.lmemSize) (hbusy : s.regs.busy = true) :
    hostMemWrite a b s = .refused .hostLmemWhileBusy := by
  simp [hostMemWrite, ha, hbusy]

theorem hostMemRead_of_busy (ha : a < s.params.lmemSize) (hbusy : s.regs.busy = true) :
    hostMemRead a s = .refused .hostLmemWhileBusy := by
  simp [hostMemRead, ha, hbusy]

/-- One byte written inside LMEM is read back, and every other byte reads as before. -/
theorem lmemByte_memSet (ha : a < s.params.lmemSize) (x : Nat) :
    lmemByte { s with lmem := memSet s.params.lmemSize s.lmem a b } x =
      if x = a then b else lmemByte s x := by
  by_cases hx : x = a <;> simp [lmemByte, memLookup_memSet, ha, hx]

end

/-! ### A host turn with a transaction on LMEM -/

theorem step_memWrite (s : State) (ops : List HostOp) (ts : List Turn) (a : Nat) (b : Byte) :
    step (hostToDo s (.memWrite a b) ops ts) = hostMemWrite a b (hostDone s ops ts) := rfl

theorem step_memRead (s : State) (ops : List HostOp) (ts : List Turn) (a : Nat) :
    step (hostToDo s (.memRead a) ops ts) = hostMemRead a (hostDone s ops ts) := rfl

/-- Settles O58: a host turn is its LMEM transaction on the state after the turn, whose LMEM,
parameters and BUSY are those of the state before it. -/
theorem hostLmemAccess : Obligations.HostLmemAccess := by
  intro s ops ts a b
  simp only [step_memWrite, step_memRead]
  refine ⟨fun ha hidle => ⟨⟨_, ?write, lmemByte_memSet b ha⟩, ?read⟩,
    fun ha => ⟨?writeOutside, ?readOutside⟩, fun ha hbusy => ⟨?writeBusy, ?readBusy⟩⟩
  case write => exact hostMemWrite_of_idle b ha hidle
  case read => exact hostMemRead_of_idle ha hidle
  case writeOutside => exact hostMemWrite_of_outside b ha
  case readOutside => exact hostMemRead_of_outside ha
  case writeBusy => exact hostMemWrite_of_busy b ha hbusy
  case readBusy => exact hostMemRead_of_busy ha hbusy

end Sys2Proof.Proofs
end

section
/-! PROOFS. O1, O2 and O3: encoding and decoding. A well-formed instruction is a command, a token or a chunk (`instr_family`); each family's parser and encoder undo each other, and the instruction has the code of what it stands for. -/
namespace Sys2Proof.Proofs
open Sys2Proof Sys2Proof.Machine Sys2Proof.Laws

/-! ### Command words (R91 to R93) -/

/-- The opcode survives its trip through a command word with reserved bits zero. -/
@[simp] theorem decodeCommand_setWidth (op : BitVec 4) :
    decodeCommand (op.setWidth 32) = commandOf op :=
  decodeCommand_cmdWord { Regs.reset with op := op }

theorem encode_commandOf (op : BitVec 4) : encode (commandOf op) = .command (commandWord op) := by
  obtain ⟨k, hk⟩ := op
  interval_cases k <;> rfl

theorem decode_encode_commandOf (op : BitVec 4) (rest : List Byte) :
    decode ((encode (commandOf op)).followedBy rest) = .ok (commandOf op) := by
  rw [encode_commandOf]
  exact congrArg Except.ok (decodeCommand_setWidth op)

/-! ### Rows of reserved tags (R97) -/

/-- A 1 in front of `n` bits is worth `2 ^ n`. -/
theorem toNat_one_append (m : Nat) {n : Nat} (low : BitVec n) :
    (1#(m + 1) ++ low).toNat = 2 ^ n + low.toNat := by
  have hone : (1#(m + 1)).toNat = 1 := by simp
  rw [BitVec.toNat_append, hone, ← Nat.shiftLeft_add_eq_or_of_lt low.isLt, Nat.one_shiftLeft]

theorem two_le_one_append (m : Nat) {n : Nat} (low : BitVec (n + 1)) :
    2 ≤ (1#(m + 1) ++ low).toNat := by
  rw [toNat_one_append, Nat.pow_succ]
  have := Nat.two_pow_pos n
  omega

/-- The rows of the reserved tags, by the tag's number. -/
theorem reservedInstr_eq (tag : Byte) : reservedInstr tag =
    if tag.toNat < 4 then .reservedTag02 (tag.extractLsb' 0 1)
    else if tag.toNat < 8 then .reservedTag04 (tag.extractLsb' 0 2)
    else if tag.toNat < 16 then .reservedTag08 (tag.extractLsb' 0 3)
    else if tag.toNat < 32 then .reservedTag10 (tag.extractLsb' 0 4)
    else if tag.toNat < 64 then .reservedTag20 (tag.extractLsb' 0 5)
    else if tag.toNat < 128 then .reservedTag40 (tag.extractLsb' 0 6)
    else .reservedTag80 (tag.extractLsb' 0 7) := rfl

/-- The row of a reserved tag spells the tag itself. -/
theorem encode_reservedInstr {tag : Byte} (h : 2 ≤ tag.toNat) :
    encode (reservedInstr tag) = .token [tag] := by
  have htop := tag.isLt
  rw [reservedInstr_eq]
  split_ifs
  all_goals
    simp only [encode, encodeToken, Code.token.injEq, List.cons.injEq, and_true]
    apply BitVec.eq_of_toNat_eq
    rw [toNat_one_append, BitVec.extractLsb'_toNat, Nat.shiftRight_zero]
    omega

theorem wellFormed_reservedInstr (tag : Byte) : (reservedInstr tag).wellFormed = true := by
  unfold reservedInstr
  split_ifs <;> rfl

/-- The tag that is a 1 in front of a row's low bits is of that row, with those bits. -/
theorem reservedInstr_one_append :
    (∀ low, reservedInstr (1#7 ++ low) = .reservedTag02 low) ∧
    (∀ low, reservedInstr (1#6 ++ low) = .reservedTag04 low) ∧
    (∀ low, reservedInstr (1#5 ++ low) = .reservedTag08 low) ∧
    (∀ low, reservedInstr (1#4 ++ low) = .reservedTag10 low) ∧
    (∀ low, reservedInstr (1#3 ++ low) = .reservedTag20 low) ∧
    (∀ low, reservedInstr (1#2 ++ low) = .reservedTag40 low) ∧
    ∀ low, reservedInstr (1#1 ++ low) = .reservedTag80 low := by
  refine ⟨fun low => ?_, fun low => ?_, fun low => ?_, fun low => ?_, fun low => ?_, fun low => ?_,
    fun low => ?_⟩
  all_goals
    have hlow := low.isLt
    rw [reservedInstr_eq, toNat_one_append]
    simp (disch := omega) only [if_pos, if_neg]
    exact congrArg _ BitVec.extractLsb'_append_eq_right

/-! ### Tokens (R94 to R97) -/

/-- A reserved token's tag is none of the two that have a meaning (R95, R97). -/
def TokenSpelt : Token → Prop
  | .lit _ => True
  | .copy _ _ => True
  | .reserved tag => 2 ≤ tag.toNat

theorem encode_toInstr_of_token {t : Token} (h : TokenSpelt t) :
    encode t.toInstr = .token (encodeToken t) := by
  cases t with
  | lit b => rfl
  | copy offset lenField => rfl
  | reserved tag => exact encode_reservedInstr h

theorem wellFormed_toInstr_of_token (t : Token) : t.toInstr.wellFormed = true := by
  cases t with
  | lit b => rfl
  | copy offset lenField => rfl
  | reserved tag => exact wellFormed_reservedInstr tag

theorem be16_append (hi lo : Byte) : be16 (hi ++ lo) = [hi, lo] :=
  congrArg₂ (fun x y => [x, y]) BitVec.extractLsb'_append_eq_left BitVec.extractLsb'_append_eq_right

/-- The offset and the length field are read back from the two bytes after a MATCH tag (R96). -/
theorem parseToken_encodeToken_copy (offset : BitVec 12) (lenField : BitVec 4)
    (rest : List Byte) :
    parseToken (encodeToken (.copy offset lenField) ++ rest) = .ok (.copy offset lenField) := by
  have hword : (offset ++ lenField).extractLsb' 8 8 ++ (offset ++ lenField).extractLsb' 0 8 =
      offset ++ lenField := BitVec.extractLsb'_append_extractLsb'
  have hoffset : (offset ++ lenField).extractLsb' 4 12 = offset :=
    BitVec.extractLsb'_append_eq_left
  have hlenField : (offset ++ lenField).extractLsb' 0 4 = lenField :=
    BitVec.extractLsb'_append_eq_right
  exact congrArg₂ (fun o l => Except.ok (Token.copy o l))
    ((congrArg _ hword).trans hoffset) ((congrArg _ hword).trans hlenField)

theorem parseToken_reserved {tag : Byte} (h : 2 ≤ tag.toNat) (rest : List Byte) :
    parseToken (tag :: rest) = .ok (.reserved tag) := by
  have hlit : tag ≠ 0x00 := by
    rintro rfl
    exact absurd h (by decide)
  have hmatch : tag ≠ 0x01 := by
    rintro rfl
    exact absurd h (by decide)
  simp only [parseToken, if_neg hlit, if_neg hmatch]

theorem parseToken_encodeToken {t : Token} (h : TokenSpelt t) (rest : List Byte) :
    parseToken (encodeToken t ++ rest) = .ok t := by
  cases t with
  | lit b => rfl
  | copy offset lenField => exact parseToken_encodeToken_copy offset lenField rest
  | reserved tag => exact parseToken_reserved h rest

/-- What the token parser reads is a leading part of the bytes. -/
theorem encodeToken_of_parseToken {bytes : List Byte} {t : Token} (h : parseToken bytes = .ok t) :
    TokenSpelt t ∧ ∃ rest, bytes = encodeToken t ++ rest := by
  cases bytes with
  | nil => cases h
  | cons tag rest =>
    simp only [parseToken] at h
    split at h
    next hlit =>
      subst hlit
      split at h
      · cases h
        exact ⟨trivial, _, rfl⟩
      · cases h
    next hnotLit =>
      split at h
      next hmatch =>
        subst hmatch
        split at h
        next hi lo rest =>
          cases h
          refine ⟨trivial, rest, ?_⟩
          have hword : (hi ++ lo).extractLsb' 4 12 ++ (hi ++ lo).extractLsb' 0 4 = hi ++ lo :=
            BitVec.extractLsb'_append_extractLsb'
          rw [encodeToken, hword, be16_append]
          rfl
        · cases h
      next hnotMatch =>
        cases h
        have hne0 : tag.toNat ≠ 0 := fun h0 => hnotLit (BitVec.eq_of_toNat_eq h0)
        have hne1 : tag.toNat ≠ 1 := fun h1 => hnotMatch (BitVec.eq_of_toNat_eq h1)
        have hreserved : 2 ≤ tag.toNat := by omega
        exact ⟨hreserved, rest, rfl⟩

theorem decodeToken_eq_ok {bytes : List Byte} {i : Instr} :
    decodeToken bytes = .ok i ↔ ∃ t, parseToken bytes = .ok t ∧ t.toInstr = i := by
  unfold decodeToken
  cases parseToken bytes <;> simp

theorem decode_encode_token {t : Token} (h : TokenSpelt t) (rest : List Byte) :
    decode ((encode t.toInstr).followedBy rest) = .ok t.toInstr := by
  rw [encode_toInstr_of_token h]
  exact decodeToken_eq_ok.mpr ⟨t, parseToken_encodeToken h rest, rfl⟩

/-! ### Four-byte fields (R150, R151) -/

theorem u32At_be32 (w : Word) (s : List Byte) : u32At (be32 w ++ s) 0 = w := by
  have h2 : w.extractLsb' 24 8 ++ w.extractLsb' 16 8 = w.extractLsb' 16 16 :=
    BitVec.extractLsb'_append_extractLsb'_eq_extractLsb' rfl
  have h3 : w.extractLsb' 16 16 ++ w.extractLsb' 8 8 = w.extractLsb' 8 24 :=
    BitVec.extractLsb'_append_extractLsb'_eq_extractLsb' rfl
  calc u32At (be32 w ++ s) 0
      = w.extractLsb' 24 8 ++ w.extractLsb' 16 8 ++ w.extractLsb' 8 8 ++ w.extractLsb' 0 8 := rfl
    _ = w := by rw [h2, h3]; exact BitVec.extractLsb'_append_extractLsb'

theorem u32At_append (front s : List Byte) (j : Nat) :
    u32At (front ++ s) (front.length + j) = u32At s j := by
  have hget (k : Nat) : (front ++ s).getD (front.length + k) 0 = s.getD k 0 := by
    rw [List.getD_append_right _ _ _ _ (Nat.le_add_right ..), Nat.add_sub_cancel_left]
  simp only [u32At, Nat.add_assoc, hget]

/-- A field is read back at the place where it stands. -/
theorem u32At_field {front : List Byte} {j : Nat} (h : front.length = j) (w : Word)
    (s : List Byte) : u32At (front ++ (be32 w ++ s)) j = w := by
  subst h
  exact (u32At_append front (be32 w ++ s) 0).trans (u32At_be32 w s)

theorem be32_append (a b c d : Byte) : be32 (a ++ b ++ c ++ d) = [a, b, c, d] := by
  have hc : (a ++ b ++ c ++ d).extractLsb' 8 8 = c :=
    (BitVec.extractLsb'_append_eq_of_le (by decide)).trans BitVec.extractLsb'_append_eq_right
  have hb : (a ++ b ++ c ++ d).extractLsb' 16 8 = b :=
    (BitVec.extractLsb'_append_eq_of_le (by decide)).trans <|
      (BitVec.extractLsb'_append_eq_of_le (by decide)).trans BitVec.extractLsb'_append_eq_right
  have ha : (a ++ b ++ c ++ d).extractLsb' 24 8 = a :=
    (BitVec.extractLsb'_append_eq_of_le (by decide)).trans <|
      (BitVec.extractLsb'_append_eq_of_le (by decide)).trans BitVec.extractLsb'_append_eq_left
  have hd : (a ++ b ++ c ++ d).extractLsb' 0 8 = d := BitVec.extractLsb'_append_eq_right
  rw [be32, ha, hb, hc, hd]

/-- The four bytes that a field is read from spell it. -/
theorem drop_eq_be32_u32At {s : List Byte} {j : Nat} (h : j + 4 ≤ s.length) :
    s.drop j = be32 (u32At s j) ++ s.drop (j + 4) := by
  have hget (k : Nat) (hk : k < s.length) : s.drop k = s.getD k 0 :: s.drop (k + 1) := by
    rw [List.drop_eq_getElem_cons hk, List.getD_eq_getElem _ _ hk]
  rw [u32At, be32_append, hget j (by omega), hget (j + 1) (by omega), hget (j + 2) (by omega),
    hget (j + 3) (by omega)]
  rfl

/-! ### Container chunks (R104, R105) -/

theorem encode_toInstr_of_chunk (c : Chunk) : encode c.toInstr = .chunk (encodeChunk c) := by
  obtain ⟨tag, payload, crc⟩ := c
  unfold Chunk.toInstr
  split_ifs with hihdr hidat hiend
  · cases hihdr; rfl
  · cases hidat; rfl
  · cases hiend; rfl
  · rfl

theorem wellFormed_toInstr_of_chunk (c : Chunk) :
    c.toInstr.wellFormed = payloadFits c.payload := by
  unfold Chunk.toInstr
  split_ifs with hihdr hidat hiend
  · rfl
  · rfl
  · rfl
  · simp [Instr.wellFormed, isOtherTag, hihdr, hidat, hiend]

/-- The parser answers a chunk exactly when the bytes are long enough for it and its fields stand in
their places. -/
theorem parseChunk_eq_ok {bytes : List Byte} {c : Chunk} : parseChunk bytes = .ok c ↔
    12 + c.payload.length ≤ bytes.length ∧ c.payload.length = (u32At bytes 0).toNat ∧
      u32At bytes 4 = c.tag ∧ (bytes.drop 8).take c.payload.length = c.payload ∧
      u32At bytes (8 + c.payload.length) = c.crc := by
  constructor
  · intro h
    obtain ⟨hlong, hlen⟩ := parseChunk_length bytes c h
    rw [parseChunk, if_neg (by omega), ← hlen, if_neg (by omega)] at h
    injection h with h
    exact ⟨hlong, hlen, congrArg Chunk.tag h, congrArg Chunk.payload h, congrArg Chunk.crc h⟩
  · rintro ⟨hlong, hlen, htag, hpayload, hcrc⟩
    rw [parseChunk, if_neg (by omega), ← hlen, if_neg (by omega), htag, hpayload, hcrc]

/-- The fields of a chunk, in the order in which they stand in its stream (R104). -/
theorem encodeChunk_append (c : Chunk) (rest : List Byte) : encodeChunk c ++ rest =
    be32 (BitVec.ofNat 32 c.payload.length) ++
      (be32 c.tag ++ (c.payload ++ (be32 c.crc ++ rest))) := by
  simp only [encodeChunk, List.append_assoc]

theorem parseChunk_encodeChunk {c : Chunk} (h : payloadFits c.payload = true) (rest : List Byte) :
    parseChunk (encodeChunk c ++ rest) = .ok c := by
  have hfits : c.payload.length < 2 ^ 32 := of_decide_eq_true h
  have hfront : (be32 (BitVec.ofNat 32 c.payload.length) ++ be32 c.tag ++ c.payload).length =
      8 + c.payload.length := by
    rw [List.length_append]
    rfl
  refine parseChunk_eq_ok.mpr ⟨?long, ?len, ?tag, ?payload, ?crc⟩
  case long =>
    rw [List.length_append, EncodedSize.encodeChunk_length]
    omega
  case len =>
    rw [encodeChunk_append, u32At_be32, BitVec.toNat_ofNat, Nat.mod_eq_of_lt hfits]
  case tag =>
    rw [encodeChunk_append]
    exact u32At_field rfl ..
  case payload =>
    rw [encodeChunk_append]
    exact List.take_left
  case crc =>
    rw [encodeChunk, List.append_assoc]
    exact u32At_field hfront ..

/-- What the chunk parser reads is a leading part of the bytes. -/
theorem encodeChunk_of_parseChunk {bytes : List Byte} {c : Chunk} (h : parseChunk bytes = .ok c) :
    payloadFits c.payload = true ∧ ∃ rest, bytes = encodeChunk c ++ rest := by
  obtain ⟨hlong, hlen, htag, hpayload, hcrc⟩ := parseChunk_eq_ok.mp h
  refine ⟨decide_eq_true (hlen ▸ (u32At bytes 0).isLt), bytes.drop (12 + c.payload.length), ?_⟩
  have hfield : u32At bytes 0 = BitVec.ofNat 32 c.payload.length := by
    rw [hlen, BitVec.ofNat_toNat, BitVec.setWidth_eq]
  have hsplit : bytes.drop 8 = c.payload ++ bytes.drop (8 + c.payload.length) := by
    have htake := List.take_append_drop c.payload.length (bytes.drop 8)
    rw [hpayload, List.drop_drop] at htake
    exact htake.symm
  calc bytes
      = be32 (u32At bytes 0) ++ bytes.drop 4 := drop_eq_be32_u32At (j := 0) (by omega)
    _ = be32 (u32At bytes 0) ++ (be32 (u32At bytes 4) ++ bytes.drop 8) := by
      rw [drop_eq_be32_u32At (j := 4) (by omega)]
    _ = be32 (u32At bytes 0) ++ (be32 (u32At bytes 4) ++ (c.payload ++
          (be32 (u32At bytes (8 + c.payload.length)) ++ bytes.drop (8 + c.payload.length + 4)))) := by
      rw [hsplit, drop_eq_be32_u32At (j := 8 + c.payload.length) (by omega)]
    _ = encodeChunk c ++ bytes.drop (12 + c.payload.length) := by
      rw [hfield, htag, hcrc, encodeChunk_append, Nat.add_right_comm]

theorem decodeChunk_eq_ok {bytes : List Byte} {i : Instr} :
    decodeChunk bytes = .ok i ↔ ∃ c, parseChunk bytes = .ok c ∧ c.toInstr = i := by
  unfold decodeChunk
  cases parseChunk bytes <;> simp

theorem decode_encode_chunk {c : Chunk} (h : payloadFits c.payload = true) (rest : List Byte) :
    decode ((encode c.toInstr).followedBy rest) = .ok c.toInstr := by
  rw [encode_toInstr_of_chunk]
  exact decodeChunk_eq_ok.mpr ⟨c, parseChunk_encodeChunk h rest, rfl⟩

/-! ### The three families (R90) -/

/-- A well-formed instruction is that of an opcode, of a token or of a chunk. -/
theorem instr_family {i : Instr} (h : i.wellFormed = true) :
    (∃ op, i = commandOf op) ∨ (∃ t, TokenSpelt t ∧ i = t.toInstr) ∨
      ∃ c : Chunk, payloadFits c.payload = true ∧ i = c.toInstr := by
  obtain ⟨h02, h04, h08, h10, h20, h40, h80⟩ := reservedInstr_one_append
  cases i with
  | nop => exact .inl ⟨0x0, rfl⟩
  | lzssCompress => exact .inl ⟨0x1, rfl⟩
  | lzssDecompress => exact .inl ⟨0x2, rfl⟩
  | huffEncode => exact .inl ⟨0x3, rfl⟩
  | huffDecode => exact .inl ⟨0x4, rfl⟩
  | pack => exact .inl ⟨0x5, rfl⟩
  | unpack => exact .inl ⟨0x6, rfl⟩
  | contWrite => exact .inl ⟨0x7, rfl⟩
  | contRead => exact .inl ⟨0x8, rfl⟩
  | crc32 => exact .inl ⟨0x9, rfl⟩
  | reservedCmdA => exact .inl ⟨0xA, rfl⟩
  | reservedCmdB => exact .inl ⟨0xB, rfl⟩
  | reservedCmdC => exact .inl ⟨0xC, rfl⟩
  | reservedCmdD => exact .inl ⟨0xD, rfl⟩
  | reservedCmdE => exact .inl ⟨0xE, rfl⟩
  | reservedCmdF => exact .inl ⟨0xF, rfl⟩
  | lit b => exact .inr (.inl ⟨.lit b, trivial, rfl⟩)
  | matchToken offset lenField => exact .inr (.inl ⟨.copy offset lenField, trivial, rfl⟩)
  | reservedTag02 low => exact .inr (.inl ⟨.reserved _, two_le_one_append 6 low, (h02 low).symm⟩)
  | reservedTag04 low => exact .inr (.inl ⟨.reserved _, two_le_one_append 5 low, (h04 low).symm⟩)
  | reservedTag08 low => exact .inr (.inl ⟨.reserved _, two_le_one_append 4 low, (h08 low).symm⟩)
  | reservedTag10 low => exact .inr (.inl ⟨.reserved _, two_le_one_append 3 low, (h10 low).symm⟩)
  | reservedTag20 low => exact .inr (.inl ⟨.reserved _, two_le_one_append 2 low, (h20 low).symm⟩)
  | reservedTag40 low => exact .inr (.inl ⟨.reserved _, two_le_one_append 1 low, (h40 low).symm⟩)
  | reservedTag80 low => exact .inr (.inl ⟨.reserved _, two_le_one_append 0 low, (h80 low).symm⟩)
  | chunkIhdr payload crc => exact .inr (.inr ⟨⟨tagIhdr, payload, crc⟩, h, rfl⟩)
  | chunkIdat payload crc => exact .inr (.inr ⟨⟨tagIdat, payload, crc⟩, h, rfl⟩)
  | chunkIend payload crc => exact .inr (.inr ⟨⟨tagIend, payload, crc⟩, h, rfl⟩)
  | chunkOther tag payload crc =>
    obtain ⟨htag, hfits⟩ := (Bool.and_eq_true ..).mp h
    simp only [isOtherTag, Bool.and_eq_true, bne_iff_ne] at htag
    obtain ⟨⟨hihdr, hidat⟩, hiend⟩ := htag
    refine .inr (.inr ⟨⟨tag, payload, crc⟩, hfits, ?_⟩)
    rw [Chunk.toInstr, if_neg hihdr, if_neg hidat, if_neg hiend]

/-- Settles O1: an instruction is of one of the three families, and each family's decoder undoes its
encoder. -/
theorem encodedInstrDecodesBack : Obligations.EncodedInstrDecodesBack := by
  intro i rest h
  rcases instr_family h with ⟨op, rfl⟩ | ⟨t, ht, rfl⟩ | ⟨c, hc, rfl⟩
  · exact decode_encode_commandOf op rest
  · exact decode_encode_token ht rest
  · exact decode_encode_chunk hc rest

/-- Settles O2: what a stream's parser reads, its encoder spells. -/
theorem decodedStreamReencodes : Obligations.DecodedStreamReencodes := by
  intro bytes i
  refine ⟨fun h => ?token, fun h => ?chunk⟩
  case token =>
    obtain ⟨t, hparse, rfl⟩ := decodeToken_eq_ok.mp h
    obtain ⟨hspelt, rest, hbytes⟩ := encodeToken_of_parseToken hparse
    refine ⟨wellFormed_toInstr_of_token t, rest, ?_⟩
    rw [encode_toInstr_of_token hspelt, hbytes]
    rfl
  case chunk =>
    obtain ⟨c, hparse, rfl⟩ := decodeChunk_eq_ok.mp h
    obtain ⟨hfits, rest, hbytes⟩ := encodeChunk_of_parseChunk hparse
    refine ⟨(wellFormed_toInstr_of_chunk c).trans hfits, rest, ?_⟩
    rw [encode_toInstr_of_chunk, hbytes]
    rfl

/-- Settles O3: the decoder evaluates on each word. -/
theorem specWordsDecode : Obligations.SpecWordsDecode :=
  ⟨rfl, rfl, rfl, rfl, rfl, rfl⟩

end Sys2Proof.Proofs
end

section
/-! PROOFS. O31 and O59: a reserved opcode's completion, and the four moves from `run` to the command it names. -/
namespace Sys2Proof.Proofs
open Sys2Proof Sys2Proof.Machine Sys2Proof.Laws

/-! ### Reserved opcodes (R93) -/

theorem commandResult_of_reserved {op : BitVec 4} (h : 0xA#4 ≤ op) (s : State) :
    commandResult op s = cmdReserved op := by
  have hlo : 10 ≤ op.toNat := h
  have hhi := op.isLt
  unfold commandResult
  interval_cases op.toNat <;> rfl

theorem commandOf_mem_reserved {op : BitVec 4} (h : 0xA#4 ≤ op) :
    commandOf op ∈ [Instr.reservedCmdA, .reservedCmdB, .reservedCmdC, .reservedCmdD, .reservedCmdE,
      .reservedCmdF] := by
  have hlo : 10 ≤ op.toNat := h
  have hhi := op.isLt
  unfold commandOf
  interval_cases op.toNat <;> simp

/-- Settles O31: the command is an error completion of the checks. -/
theorem reservedOpcodesComplete : Obligations.ReservedOpcodesComplete := by
  intro s op h
  rw [decodeCommand_setWidth]
  have hexec : exec (commandOf op) s =
      .next (complete op (.error (earlyErr .badCmd op.toNat)) s) := by
    rw [exec_commandOf, commandResult_of_reserved h, cmdReserved]
  exact ⟨⟨_, hexec, complete_seq .., errRegs_eq_failedRegs _ _,
    complete_early_lmemSame op s .badCmd op.toNat, complete_hostSideSame ..⟩,
    commandOf_mem_reserved h⟩

/-! ### From `run` to the command (R112, R130, R131) -/

theorem startWord_start (r : Regs) : (startWord r).getLsbD 0 = true := by
  cases h : r.ie <;> simp [startWord, h]

theorem startWord_noReset (r : Regs) : (startWord r).getLsbD 1 = false := by
  cases h : r.ie <;> simp [startWord, h]

/-- `run` keeps the interrupt enable (R112). -/
theorem startWord_ie (r : Regs) : (startWord r).getLsbD 2 = r.ie := by
  cases h : r.ie <;> simp [startWord, h]

@[simp] theorem extractLsb'_setWidth_opcode (op : BitVec 4) :
    (op.setWidth 32).extractLsb' 0 4 = op := by
  rw [← BitVec.setWidth_eq_extractLsb' (by decide), BitVec.setWidth_setWidth_of_le _ (by decide),
    BitVec.setWidth_eq]

/-- The state with CMD.OP written. -/
def commandSelected (s : State) (op : BitVec 4) : State :=
  { s with regs := { s.regs with op := op } }

/-- The state after the start request was accepted, with the host's further transactions to do. -/
def commandStarted (s : State) (op : BitVec 4) (ops : List HostOp) : State :=
  { s with turns := [], host := ops, regs := { s.regs with
      op := op, busy := true, done := false, trunc := false, err := 0, errInfo := 0 } }

section
variable {s : State} (hidle : s.regs.busy = false) (ops : List HostOp)
include hidle

/-- On an idle core with no turn listed the host moves, as if its turn were listed (log 4). -/
theorem step_of_idle (op : HostOp) :
    step (hostDone s (op :: ops) []) = step (hostToDo s op ops []) := by
  rw [step_hostToDo]
  simp [step, runStep, hostStep, hostDone, hidle]

/-- The first move: `run` is replaced by its two register writes. -/
theorem step_run (op : BitVec 4) :
    step (hostDone s (.run op :: ops) []) = .next (hostDone s (expandRun op s.regs ++ ops) []) :=
  step_of_idle hidle ops _

/-- The second move: the write of CMD selects the command. -/
theorem step_selectCommand (op : BitVec 4) :
    step (hostDone s (.regWrite RegName.cmd.offset .w32 (op.setWidth 32) :: ops) []) =
      .next (hostDone (commandSelected s op) ops []) := by
  have hwrite : writeReg .cmd (op.setWidth 32) (hostDone s ops []) =
      hostDone (commandSelected s op) ops [] := by
    simp [writeReg, hidle, setOperand, commandSelected, hostDone]
  rw [step_of_idle hidle, step_regWrite, hwrite]

/-- The third move: the write of CTRL starts the command and keeps IE. -/
theorem step_startCommand (op : BitVec 4) :
    step (hostDone (commandSelected s op)
        (.regWrite RegName.ctrl.offset .w32 (startWord s.regs) :: ops) []) =
      .next (commandStarted s op ops) := by
  have hwrite : writeReg .ctrl (startWord s.regs) (hostDone (commandSelected s op) ops []) =
      commandStarted s op ops := by
    refine (writeCtrl_start _ (startWord_noReset _) (startWord_start _)).trans ?_
    rw [startWord_ie]
    exact congrArg (fun r => { hostDone s ops [] with regs := r })
      (accept_of_idle { s.regs with op := op } hidle)
  rw [step_of_idle (s := commandSelected s op) hidle, step_regWrite, hwrite]

end

/-- The fourth move: the engine performs the command as one atomic step. -/
theorem step_commandStarted {s : State} (hseq : s.seq = .idle) (op : BitVec 4)
    (ops : List HostOp) :
    step (commandStarted s op ops) =
      .next (complete op (commandResult op (commandStarted s op ops)) (commandStarted s op ops)) := by
  have hpending : commandPending (commandStarted s op ops) := ⟨rfl, hseq, rfl⟩
  exact (step_of_commandPending hpending).trans (engineStep_of_commandPending hpending)

theorem run_succ_of_next {n : Nat} {s t : State} (h : step s = .next t) :
    Sys2Proof.core.run (n + 1) s = Sys2Proof.core.run n t := by
  have hrun := run_succ Sys2Proof.core n s
  rw [show Sys2Proof.core.step s = .next t from h] at hrun
  exact hrun

/-- Settles O59: three moves of the host, then the engine's. -/
theorem runStartsTheNamedCommand : Obligations.RunStartsTheNamedCommand := by
  intro s op ops hidle hseq
  rw [decodeCommand_setWidth, exec_commandOf]
  calc Sys2Proof.core.run 4 (hostDone s (.run op :: ops) [])
      = Sys2Proof.core.run 3 (hostDone s (expandRun op s.regs ++ ops) []) :=
        run_succ_of_next (step_run hidle ops op)
    _ = Sys2Proof.core.run 2 (hostDone (commandSelected s op)
          (.regWrite RegName.ctrl.offset .w32 (startWord s.regs) :: ops) []) :=
        run_succ_of_next (step_selectCommand hidle _ op)
    _ = Sys2Proof.core.run 1 (commandStarted s op ops) :=
        run_succ_of_next (step_startCommand hidle ops op)
    _ = .next (complete op (commandResult op (commandStarted s op ops))
          (commandStarted s op ops)) :=
        run_succ_of_next (step_commandStarted hseq op ops)

end Sys2Proof.Proofs
end

section
/-! PROOFS. O32, O33, O35, O36 and O37: completions with one output. On operands that fit a command is an equation between its stages (`cmd…_of_fit`) that ends in `deliver`. -/
namespace Sys2Proof.Proofs
open Sys2Proof Sys2Proof.Machine Sys2Proof.Laws

/-! ### Results in sequence (R132, R140) -/

section
variable {α β : Type}

@[simp] theorem ok_bind (a : α) (f : α → Except CmdError β) : (Except.ok a >>= f) = f a := rfl

@[simp] theorem error_bind (e : CmdError) (f : α → Except CmdError β) :
    (Except.error e >>= f) = Except.error e := rfl

end

theorem capacityCheck_of_lt {n cap : Nat} (h : cap < n) (k : Nat) :
    capacityCheck n cap k = .error (lateErr .capacity k) := if_neg (Nat.not_le_of_lt h)

theorem checkSrcDstAuxIn_of_fit {s : State} (hfit : srcDstFit s) (haux : auxFits s) :
    checkSrcDstAuxIn s = .ok () := by
  obtain ⟨-, hok⟩ | ⟨hno, -⟩ := checkSrcDstAuxIn_cases s
  · exact hok
  · exact absurd ⟨hfit, haux⟩ hno

/-- The end of every command whose one output is the primary one: its capacity check (R138, R139),
and then the output itself (R133). -/
def deliver (s : State) (out : List Byte) (trunc : Bool) : CmdResult :=
  capacityCheck out.length s.regs.dstCap.toNat 1 >>= fun _ => .ok { primary := out, trunc := trunc }

/-! ### How what a command computes ends it (R131, R133, R134, R143) -/

section
variable {i : Instr} {op : BitVec 4} {s : State}

/-- An error of the checks is an early failure. -/
theorem failsEarly_of_error {code : ErrCode} {info : Nat}
    (hexec : exec i s = .next (complete op (.error (earlyErr code info)) s)) :
    failsEarly i s code.toByte info :=
  ⟨_, hexec, complete_seq .., errRegs_eq_failedRegs .., complete_early_lmemSame op s code info,
    complete_hostSideSame ..⟩

/-- Any error is a late failure: LMEM is as it was outside the command's output regions. -/
theorem failsLate_of_error {e : CmdError} (hexec : exec i s = .next (complete op (.error e) s)) :
    failsLate i s e.code.toByte e.info (outputRegions op s.regs) :=
  ⟨_, hexec, complete_seq .., errRegs_eq_failedRegs .., complete_error_lmemSameOutside op s e,
    complete_hostSideSame ..⟩

/-- The command that runs is the one that CMD.OP selects. -/
theorem failsLate_of_running {e : CmdError}
    (hexec : exec i s = .next (complete s.regs.op (.error e) s)) :
    failsLate i s e.code.toByte e.info (runningOutputs s.regs) :=
  outputRegions_eq_runningOutputs s.regs ▸ failsLate_of_error hexec

theorem exec_of_result {r : CmdResult} (h : commandResult op s = r) :
    exec (commandOf op) s = .next (complete op r s) := by rw [exec_commandOf, h]

theorem failsEarly_of_result {code : ErrCode} {info : Nat}
    (h : commandResult op s = .error (earlyErr code info)) :
    failsEarly (commandOf op) s code.toByte info := failsEarly_of_error (exec_of_result h)

theorem failsLate_of_result {e : CmdError} (h : commandResult op s = .error e) :
    failsLate (commandOf op) s e.code.toByte e.info (outputRegions op s.regs) :=
  failsLate_of_error (exec_of_result h)

section
variable {out : List Byte} {trunc : Bool} (h : commandResult op s = deliver s out trunc)
include h

/-- An output that fits DST_CAP is written to DST. -/
theorem completesWith_of_deliver (hfit : srcDstFit s) (hcap : out.length ≤ s.regs.dstCap.toNat) :
    completesWith (commandOf op) s (doneRegs s.regs trunc out.length 0)
      s.regs.dstAddr.toNat out := by
  rw [deliver, capacityCheck_of_le hcap] at h
  exact completesWith_primary (exec_of_result h) rfl (primary_inRange hfit hcap)

/-- An output that does not fit DST_CAP is ERR_CAPACITY 1. -/
theorem failsLate_of_deliver (hcap : s.regs.dstCap.toNat < out.length) :
    failsLate (commandOf op) s 0x03 1 (outputRegions op s.regs) := by
  rw [deliver, capacityCheck_of_lt hcap] at h
  exact failsLate_of_result h

end

end

/-! ### What each command computes on operands that fit (R183, R184, R212, R213, R286, R287) -/

section
variable {s : State} (hfit : srcDstFit s)
include hfit

theorem cmdLzssCompress_of_fit :
    cmdLzssCompress s = deliver s (lzssCompress (srcBytes s)) false := by
  rw [cmdLzssCompress, checkSrcDst_of_fit hfit]
  rfl

theorem cmdLzssDecompress_of_fit :
    cmdLzssDecompress s = lzssDecompress (srcBytes s) >>= fun r => deliver s r.1 r.2 := by
  rw [cmdLzssDecompress, startLzssDecompress, checkSrcDst_of_fit hfit]
  rfl

theorem cmdHuffEncode_of_fit (haux : auxFits s)
    (hsrc : (srcRegion s.regs).overlaps (auxRegion s.regs) = false) :
    cmdHuffEncode s =
      finishHuffEncode s (huffmanEncode (srcBytes s)).1 (huffmanEncode (srcBytes s)).2 := by
  rw [cmdHuffEncode, checkSrcDstAuxOut_of_fit hfit haux hsrc]
  rfl

omit hfit in
/-- The bits decoded are those that BIT_LEN asks for, or all there are (R213, R284). -/
theorem clampBits_eq (bytes : List Byte) (bitLen : Nat) : clampBits bytes bitLen =
    (unpackBits bytes (min bitLen (8 * bytes.length)), decide (8 * bytes.length < bitLen)) := by
  unfold clampBits
  split
  · rename_i hmore
    simp [hmore, Nat.min_eq_right (Nat.le_of_lt hmore)]
  · rename_i hless
    simp [hless, Nat.min_eq_left (Nat.le_of_not_lt hless)]

theorem cmdHuffDecode_of_fit (haux : auxFits s) :
    cmdHuffDecode s = deserializeTable (auxBytes s) >>= fun table =>
      let present := 8 * s.regs.srcLen.toNat
      let r := huffmanDecode (unpackBits (srcBytes s) (min s.regs.bitLen.toNat present)) table
      deliver s r.1 (decide (present < s.regs.bitLen.toNat) || r.2) := by
  have hlength : (srcBytes s).length = s.regs.srcLen.toNat := memRead_length s (srcRegion s.regs)
  rw [cmdHuffDecode, startHuffDecode, checkSrcDstAuxIn_of_fit hfit haux, ← srcBytes, clampBits_eq,
    hlength, ok_bind, auxBytes]
  cases deserializeTable (memRead s (auxRegion s.regs)) <;> rfl

theorem cmdHuffDecode_of_table (haux : auxFits s) {table : List Entry}
    (htable : deserializeTable (auxBytes s) = .ok table) :
    cmdHuffDecode s =
      let present := 8 * s.regs.srcLen.toNat
      let r := huffmanDecode (unpackBits (srcBytes s) (min s.regs.bitLen.toNat present)) table
      deliver s r.1 (decide (present < s.regs.bitLen.toNat) || r.2) := by
  rw [cmdHuffDecode_of_fit hfit haux, htable, ok_bind]

theorem cmdPack_of_fit :
    cmdPack s = capacityCheck (lzssCompress (srcBytes s)).length s.params.scratchSize 3 >>=
      fun _ => deliver s (archiveOf s.params.archiveMagic (lzssCompress (srcBytes s))) false := by
  rw [cmdPack, checkSrcDst_of_fit hfit]
  rfl

theorem cmdPack_of_scratch (h : (lzssCompress (srcBytes s)).length ≤ s.params.scratchSize) :
    cmdPack s =
      deliver s (archiveOf s.params.archiveMagic (lzssCompress (srcBytes s))) false := by
  rw [cmdPack_of_fit hfit, capacityCheck_of_le h, ok_bind]

theorem cmdUnpack_of_fit :
    cmdUnpack s = unpackStream s.params.archiveMagic (srcBytes s) >>= fun t =>
      capacityCheck t.1.length s.params.scratchSize 3 >>= fun _ =>
      lzssDecompress t.1 >>= fun r => deliver s r.1 (t.2 || r.2) := by
  rw [cmdUnpack, startUnpack, checkSrcDst_of_fit hfit, ← srcBytes, ok_bind, unpackStream]
  cases openArchive s.params.archiveMagic (srcBytes s) with
  | error e => rfl
  | ok u =>
    simp only [ok_bind, afterUnpackBits, pure, Except.pure]
    cases capacityCheck (runBits u).1.length s.params.scratchSize 3 with
    | error e => rfl
    | ok _ =>
      simp only [ok_bind, runTokens_tokenStart]
      cases lzssDecompress (runBits u).1 <;> rfl

theorem cmdUnpack_of_stream {stream : List Byte} {trunc : Bool}
    (hstream : unpackStream s.params.archiveMagic (srcBytes s) = .ok (stream, trunc))
    (hscratch : stream.length ≤ s.params.scratchSize) :
    cmdUnpack s = lzssDecompress stream >>= fun r => deliver s r.1 (trunc || r.2) := by
  rw [cmdUnpack_of_fit hfit, hstream, ok_bind, capacityCheck_of_le hscratch, ok_bind]

end

/-! ### Completions with one output (R133, R143, R183, R184, R213, R286, R287) -/

/-- Settles O32: with its checks passed the command delivers the token stream. -/
theorem lzssCompressCompletes : Obligations.LzssCompressCompletes := by
  intro s hfit hcap
  exact completesWith_of_deliver (op := 0x1) (cmdLzssCompress_of_fit hfit) hfit hcap

/-- Settles O33: what the decoder answers is delivered with its truncation. -/
theorem lzssDecompressCompletes : Obligations.LzssDecompressCompletes := by
  intro s out trunc hfit hout hcap
  have hresult : cmdLzssDecompress s = deliver s out trunc := by
    rw [cmdLzssDecompress_of_fit hfit, hout, ok_bind]
  exact completesWith_of_deliver (op := 0x2) hresult hfit hcap

/-- Settles O35: the table at AUX decodes the clamped bits, whose truncation joins the decoder's. -/
theorem huffDecodeCompletes : Obligations.HuffDecodeCompletes := by
  intro s table hfit haux htable present bits r hcap
  exact completesWith_of_deliver (op := 0x4) (cmdHuffDecode_of_table hfit haux htable) hfit hcap

/-- Settles O36: the archive of the token stream is laid out as R281 says. -/
theorem packCompletes : Obligations.PackCompletes := by
  intro s hfit stream bits table archive hscratch hcap
  exact completesWith_of_deliver (op := 0x5) (cmdPack_of_scratch hfit hscratch) hfit hcap

/-- Settles O37: the truncation of the Huffman stage joins the token loop's. -/
theorem unpackCompletes : Obligations.UnpackCompletes := by
  intro s stream out tr1 tr2 hfit hstream hscratch hout hcap
  have hresult : cmdUnpack s = deliver s out (tr1 || tr2) := by
    rw [cmdUnpack_of_stream hfit hstream hscratch, hout, ok_bind]
  exact completesWith_of_deliver (op := 0x6) hresult hfit hcap

end Sys2Proof.Proofs
end

section
/-! PROOFS. O38, O27, O26 and O28: CONT_WRITE and CONT_READ as equations between their stages, and the first capacity check or stage that fails. -/
namespace Sys2Proof.Proofs
open Sys2Proof Sys2Proof.Machine Sys2Proof.Laws

/-! ### CONT_WRITE (R244, R245) -/

/-- The scanlines of the SRC pixels (R241). -/
abbrev srcScanlines (s : State) : List Byte :=
  filterRows (srcBytes s) s.regs.imgWidth.toNat s.regs.imgHeight.toNat

/-- Signature, the three chunks' headers and CRCs and the metadata are 57 bytes (R244). -/
theorem containerBytes_length (w h : Word) (comp : Byte) (packed : List Byte) :
    (containerBytes w h comp packed).length = 57 + packed.length := by
  simp only [containerBytes, chunkBytes, List.length_append, EncodedSize.encodeChunk_length,
    containerSignature, ihdrPayload, be32, List.length_cons, List.length_nil]
  omega

theorem imageCheck_zero {w h : Nat} (hzero : w = 0 ∨ h = 0) (n : Nat) :
    imageCheck w h n = .error (earlyErr .badParam 1) := if_pos hzero

theorem imageCheck_count {w h n : Nat} (hw : w ≠ 0) (hh : h ≠ 0) (hn : n ≠ 3 * w * h) :
    imageCheck w h n = .error (earlyErr .badParam 2) := by
  simp [imageCheck, rowBytes, hw, hh, hn]

theorem imageCheck_ok {w h n : Nat} (hw : w ≠ 0) (hh : h ≠ 0) (hn : n = 3 * w * h) :
    imageCheck w h n = .ok () := by
  simp [imageCheck, rowBytes, hw, hh, hn]

theorem finishContWrite_eq (s : State) (packed : List Byte) : finishContWrite s packed =
    capacityCheck packed.length s.params.scratchSize 3 >>= fun _ =>
    deliver s (containerBytes s.regs.imgWidth s.regs.imgHeight (compByte s.regs) packed)
      false := by
  rw [deliver, containerBytes_length]
  rfl

section
variable {s : State} (hfit : srcDstFit s)
include hfit

theorem cmdContWrite_of_fit : cmdContWrite s =
    imageCheck s.regs.imgWidth.toNat s.regs.imgHeight.toNat s.regs.srcLen.toNat >>= fun _ =>
      capacityCheck (srcScanlines s).length s.params.scratchSize 3 >>= fun _ =>
      finishContWrite s (compressRows s.regs.contLzss (srcScanlines s)) := by
  rw [cmdContWrite, startContWrite, checkSrcDst_of_fit hfit, ok_bind, srcScanlines, srcBytes]
  cases imageCheck s.regs.imgWidth.toNat s.regs.imgHeight.toNat s.regs.srcLen.toNat with
  | error e => rfl
  | ok _ =>
    simp only [ok_bind]
    cases capacityCheck _ s.params.scratchSize 3 <;> rfl

/-- CONT_WRITE of an image whose parameters are right (R245). -/
theorem cmdContWrite_of_image (hw : s.regs.imgWidth ≠ 0) (hh : s.regs.imgHeight ≠ 0)
    (hn : s.regs.srcLen.toNat = 3 * s.regs.imgWidth.toNat * s.regs.imgHeight.toNat) :
    cmdContWrite s =
      capacityCheck (srcScanlines s).length s.params.scratchSize 3 >>= fun _ =>
      capacityCheck (compressRows s.regs.contLzss (srcScanlines s)).length
        s.params.scratchSize 3 >>= fun _ =>
      deliver s (containerWrite s.regs.contLzss s.regs.imgWidth s.regs.imgHeight (srcBytes s))
        false := by
  rw [cmdContWrite_of_fit hfit,
    imageCheck_ok (BitVec.toNat_ne.mp hw) (BitVec.toNat_ne.mp hh) hn, ok_bind, finishContWrite_eq]
  rfl

theorem cmdContWrite_of_scratch (hw : s.regs.imgWidth ≠ 0) (hh : s.regs.imgHeight ≠ 0)
    (hn : s.regs.srcLen.toNat = 3 * s.regs.imgWidth.toNat * s.regs.imgHeight.toNat)
    (hrows : (srcScanlines s).length ≤ s.params.scratchSize)
    (hstream : (compressRows s.regs.contLzss (srcScanlines s)).length ≤ s.params.scratchSize) :
    cmdContWrite s = deliver s
      (containerWrite s.regs.contLzss s.regs.imgWidth s.regs.imgHeight (srcBytes s)) false := by
  rw [cmdContWrite_of_image hfit hw hh hn, capacityCheck_of_le hrows, ok_bind,
    capacityCheck_of_le hstream, ok_bind]

end

/-- Settles O38: an image with the right parameters passes both scratch checks and is delivered as
its container. -/
theorem contWriteCompletes : Obligations.ContWriteCompletes := by
  intro s hfit hw hh hn rows stream hrows hstream hcap
  have hlength : (containerWrite s.regs.contLzss s.regs.imgWidth s.regs.imgHeight
      (srcBytes s)).length = 57 + stream.length := containerBytes_length ..
  refine ⟨hlength, ?_⟩
  rw [← hlength] at hcap ⊢
  exact completesWith_of_deliver (op := 0x7)
    (cmdContWrite_of_scratch hfit hw hh hn hrows hstream) hfit hcap

/-- Settles O27: the image check follows the region checks and comes before every stage. -/
theorem imageParametersChecked : Obligations.ImageParametersChecked := by
  intro s hfit
  refine ⟨fun hzero => ?_, fun hw hh hn => ?_⟩
  · have hzero' : s.regs.imgWidth.toNat = 0 ∨ s.regs.imgHeight.toNat = 0 := by
      obtain h | h := hzero <;> simp [h]
    have hresult : cmdContWrite s = .error (earlyErr .badParam 1) := by
      rw [cmdContWrite_of_fit hfit, imageCheck_zero hzero', error_bind]
    exact failsEarly_of_result (op := 0x7) hresult
  · have hresult : cmdContWrite s = .error (earlyErr .badParam 2) := by
      rw [cmdContWrite_of_fit hfit,
        imageCheck_count (BitVec.toNat_ne.mp hw) (BitVec.toNat_ne.mp hh) hn, error_bind]
    exact failsEarly_of_result (op := 0x7) hresult

/-! ### CONT_READ (R253 to R255) -/

/-- What CONT_READ reports with pixels (R255). -/
def pixelsOutput (hdr : Ihdr) (out : List Byte) (trunc : Bool) : CmdOutput :=
  { primary := out, trunc := trunc, image := some (imageInfoOf hdr) }

theorem readPixels_eq (s : State) (hdr : Ihdr) (rows : List Byte) (trunc : Bool) :
    readPixels s hdr rows trunc =
      capacityCheck rows.length s.params.scratchSize 3 >>= fun _ =>
      unfilter rows hdr.width.toNat hdr.height.toNat >>= fun r =>
      capacityCheck r.1.length s.regs.dstCap.toNat 1 >>= fun _ =>
      .ok (pixelsOutput hdr r.1 (trunc || r.2)) := rfl

section
variable {s : State} {hdr : Ihdr} {rows : List Byte} (trunc : Bool)

/-- The decompressed stream does not fit scratch. -/
theorem readPixels_of_scratch (h : s.params.scratchSize < rows.length) :
    readPixels s hdr rows trunc = .error (lateErr .capacity 3) := by
  rw [readPixels_eq, capacityCheck_of_lt h, error_bind]

variable (hscratch : rows.length ≤ s.params.scratchSize)
include hscratch

theorem readPixels_of_unfilter_error {e : CmdError}
    (h : unfilter rows hdr.width.toNat hdr.height.toNat = .error e) :
    readPixels s hdr rows trunc = .error e := by
  rw [readPixels_eq, capacityCheck_of_le hscratch, ok_bind, h, error_bind]

variable {out : List Byte} {tr2 : Bool}
  (hpixels : unfilter rows hdr.width.toNat hdr.height.toNat = .ok (out, tr2))
include hpixels

theorem readPixels_of_capacity (h : s.regs.dstCap.toNat < out.length) :
    readPixels s hdr rows trunc = .error (lateErr .capacity 1) := by
  rw [readPixels_eq, capacityCheck_of_le hscratch, ok_bind, hpixels, ok_bind,
    capacityCheck_of_lt h, error_bind]

theorem readPixels_of_fit (h : out.length ≤ s.regs.dstCap.toNat) :
    readPixels s hdr rows trunc = .ok (pixelsOutput hdr out (trunc || tr2)) := by
  rw [readPixels_eq, capacityCheck_of_le hscratch, ok_bind, hpixels, ok_bind,
    capacityCheck_of_le h, ok_bind]

end

section
variable {s : State} {u : ChunkUnit} {hdr : Ihdr} (trunc : Bool) (hhdr : u.hdr = some hdr)
include hhdr

theorem afterChunks_of_payload (h : s.params.scratchSize < u.payload.length) :
    afterChunks s u trunc = .error (lateErr .capacity 3) := by
  simp only [afterChunks, hhdr, capacityCheck_of_lt h, error_bind]

variable (hpayload : u.payload.length ≤ s.params.scratchSize)
include hpayload

theorem afterChunks_of_lzss (hlzss : s.regs.contLzss = true) :
    afterChunks s u trunc = .ok (.tokens (tokenStart u.payload trunc)) := by
  simp only [afterChunks, hhdr, capacityCheck_of_le hpayload, hlzss, ok_bind]
  rfl

/-- Off the LZSS path the external decompressor's rows are unfiltered at once (R253, R255). -/
theorem afterChunks_of_external (hext : s.regs.contLzss = false) :
    afterChunks s u trunc = extDecompress u.payload >>= fun rows =>
      readPixels s hdr rows trunc >>= fun o => .ok (.done o) := by
  simp only [afterChunks, hhdr, capacityCheck_of_le hpayload, hext, ok_bind]
  rfl

end

/-- CONT_READ from the end of its chunk loop on (R255). -/
def afterParser (s : State) (hdr : Option Ihdr) : AfterChunks → CmdResult
  | .done o => .ok o
  | .tokens t => runTokens t >>= fun r => finishContRead s hdr r.1 r.2

section
variable {s : State} (hfit : srcDstFit s)
include hfit

theorem cmdContRead_of_fit : cmdContRead s =
    containerRead (srcBytes s) >>= fun r => afterChunks s r.1 r.2 >>= afterParser s r.1.hdr := by
  rw [cmdContRead, startContRead, checkSrcDst_of_fit hfit, ok_bind, ← srcBytes, containerRead,
    openContainer]
  simp only [pure, Except.pure, ok_bind]
  cases passSignature (chunkStart (srcBytes s)) with
  | error e => rfl
  | ok u0 =>
    simp only [ok_bind]
    cases runChunks u0 with
    | error e => rfl
    | ok r =>
      simp only [ok_bind]
      cases afterChunks s r.1 r.2 with
      | error e => rfl
      | ok a => cases a <;> rfl

variable {u : ChunkUnit} {tr0 : Bool} {hdr : Ihdr}
  (hread : containerRead (srcBytes s) = .ok (u, tr0)) (hhdr : u.hdr = some hdr)
include hread hhdr

/-- A payload too large for scratch is an error on either path. -/
theorem cmdContRead_of_payload (h : s.params.scratchSize < u.payload.length) :
    cmdContRead s = .error (lateErr .capacity 3) := by
  rw [cmdContRead_of_fit hfit, hread, ok_bind, afterChunks_of_payload tr0 hhdr h, error_bind]

/-- On the LZSS path the token loop runs over the payload, and its rows are unfiltered. -/
theorem cmdContRead_of_lzss (hpayload : u.payload.length ≤ s.params.scratchSize)
    (hlzss : s.regs.contLzss = true) : cmdContRead s =
      lzssDecompress u.payload >>= fun r => readPixels s hdr r.1 (tr0 || r.2) := by
  rw [cmdContRead_of_fit hfit, hread, ok_bind, afterChunks_of_lzss tr0 hhdr hpayload hlzss,
    ok_bind, afterParser, runTokens_tokenStart, hhdr]
  cases lzssDecompress u.payload <;> rfl

end

/-! ### Capacity errors and errors of the stages (R138 to R140, R306) -/

/-- Settles O26: the capacity checks stand in each command's equation in their order, and the first
that fails is its error. -/
theorem capacityErrorsReported : Obligations.CapacityErrorsReported := by
  intro s hfit d cap scratch archive packed table rows stream dst
  refine ⟨fun hcap => ?_, fun out trunc hout hcap => ?_, fun haux hsrc => ⟨fun hcap => ?_,
    fun hpacked hcap => ?_⟩, fun haux entries htable hcap => ?_, fun hscratch => ?_,
    fun hscratch hcap => ?_, fun tokens trunc htokens => ⟨fun hscratch => ?_,
      fun out trunc' hscratch hout hcap => ?_⟩,
    fun hw hh hn => ⟨fun hscratch => ?_, fun hrows hstream hcap => ?_⟩,
    fun u trunc h hread hhdr => ⟨fun hscratch => ?_, fun R trunc' hpayload hlzss hout =>
      ⟨fun hscratch => ?_, fun out trunc'' hrows hpixels hcap => ?_⟩⟩⟩
  · exact failsLate_of_deliver (op := 0x1) (cmdLzssCompress_of_fit hfit) hcap
  · have hresult : cmdLzssDecompress s = deliver s out trunc := by
      rw [cmdLzssDecompress_of_fit hfit, hout, ok_bind]
    exact failsLate_of_deliver (op := 0x2) hresult hcap
  · have hresult : cmdHuffEncode s = .error (lateErr .capacity 1) := by
      rw [cmdHuffEncode_of_fit hfit haux hsrc, finishHuffEncode, capacityCheck_of_lt hcap]
      rfl
    exact failsLate_of_result (op := 0x3) hresult
  · have hresult : cmdHuffEncode s = .error (lateErr .capacity 2) := by
      rw [cmdHuffEncode_of_fit hfit haux hsrc, finishHuffEncode, capacityCheck_of_le hpacked,
        capacityCheck_of_lt hcap]
      rfl
    exact failsLate_of_result (op := 0x3) hresult
  · exact failsLate_of_deliver (op := 0x4) (cmdHuffDecode_of_table hfit haux htable) hcap
  · have hresult : cmdPack s = .error (lateErr .capacity 3) := by
      rw [cmdPack_of_fit hfit, capacityCheck_of_lt hscratch, error_bind]
    exact failsLate_of_result (op := 0x5) hresult
  · exact failsLate_of_deliver (op := 0x5) (cmdPack_of_scratch hfit hscratch) hcap
  · have hresult : cmdUnpack s = .error (lateErr .capacity 3) := by
      rw [cmdUnpack_of_fit hfit, htokens, ok_bind, capacityCheck_of_lt hscratch, error_bind]
    exact failsLate_of_result (op := 0x6) hresult
  · have hresult : cmdUnpack s = deliver s out (trunc || trunc') := by
      rw [cmdUnpack_of_stream hfit htokens hscratch, hout, ok_bind]
    exact failsLate_of_deliver (op := 0x6) hresult hcap
  · have hresult : cmdContWrite s = .error (lateErr .capacity 3) := by
      rw [cmdContWrite_of_image hfit hw hh hn]
      obtain ⟨hrows, hok⟩ | ⟨hrows, herror⟩ := capacityCheck_cases rows.length scratch 3
      · have hstream : scratch < stream.length := hscratch.resolve_left (Nat.not_lt.mpr hrows)
        rw [hok, ok_bind, capacityCheck_of_lt hstream, error_bind]
      · rw [herror, error_bind]
    exact failsLate_of_result (op := 0x7) hresult
  · exact failsLate_of_deliver (op := 0x7) (cmdContWrite_of_scratch hfit hw hh hn hrows hstream)
      (by rwa [containerWrite, containerBytes_length])
  · exact failsLate_of_result (op := 0x8) (cmdContRead_of_payload hfit hread hhdr hscratch)
  · have hresult : cmdContRead s = .error (lateErr .capacity 3) := by
      rw [cmdContRead_of_lzss hfit hread hhdr hpayload hlzss, hout, ok_bind,
        readPixels_of_scratch _ hscratch]
    exact failsLate_of_result (op := 0x8) hresult
  · have hresult : cmdContRead s = .error (lateErr .capacity 1) := by
      rw [cmdContRead_of_lzss hfit hread hhdr hpayload hlzss, hout, ok_bind,
        readPixels_of_capacity _ hrows hpixels hcap]
    exact failsLate_of_result (op := 0x8) hresult

/-- Settles O28: each stage of a command's equation hands its error on. -/
theorem stageErrorsReported : Obligations.StageErrorsReported := by
  intro s e hfit dst
  refine ⟨fun herror => ?_, fun haux herror => ?_, fun herror => ?_,
    fun stream trunc hstream hscratch herror => ?_, fun herror => ?_,
    fun u trunc hread hhdr hpayload hlzss herror => ?_,
    fun u trunc h rows trunc' hread hhdr hpayload hlzss hout hrows herror => ?_⟩
  · have hresult : cmdLzssDecompress s = .error e := by
      rw [cmdLzssDecompress_of_fit hfit, herror, error_bind]
    exact failsLate_of_result (op := 0x2) hresult
  · have hresult : cmdHuffDecode s = .error e := by
      rw [cmdHuffDecode_of_fit hfit haux, herror, error_bind]
    exact failsLate_of_result (op := 0x4) hresult
  · have hresult : cmdUnpack s = .error e := by
      rw [cmdUnpack_of_fit hfit, herror, error_bind]
    exact failsLate_of_result (op := 0x6) hresult
  · have hresult : cmdUnpack s = .error e := by
      rw [cmdUnpack_of_stream hfit hstream hscratch, herror, error_bind]
    exact failsLate_of_result (op := 0x6) hresult
  · have hresult : cmdContRead s = .error e := by
      rw [cmdContRead_of_fit hfit, herror, error_bind]
    exact failsLate_of_result (op := 0x8) hresult
  · obtain ⟨h, hhdr⟩ := Option.isSome_iff_exists.mp hhdr
    have hresult : cmdContRead s = .error e := by
      rw [cmdContRead_of_lzss hfit hread hhdr hpayload hlzss, herror, error_bind]
    exact failsLate_of_result (op := 0x8) hresult
  · have hresult : cmdContRead s = .error e := by
      rw [cmdContRead_of_lzss hfit hread hhdr hpayload hlzss, hout, ok_bind,
        readPixels_of_unfilter_error _ hrows herror]
    exact failsLate_of_result (op := 0x8) hresult

end Sys2Proof.Proofs
end

section
/-! PROOFS. O25, O44, O48, O29 and O19: the region checks in their order, moves that end the running command, NOP, and which instruction a step runs. -/
namespace Sys2Proof.Proofs
open Sys2Proof Sys2Proof.Machine Sys2Proof.Laws

/-! ### Region checks in order (R136, R137) -/

theorem rangeCheck_of_not_inRange {size : Nat} {r : Region} (h : ¬r.inRange size = true) (k : Nat) :
    rangeCheck size r k = .error (earlyErr .range k) := if_neg h

theorem overlapCheck_of_overlaps {a b : Region} (h : a.overlaps b = true) (k : Nat) :
    overlapCheck a b k = .error (earlyErr .range k) := if_pos h

theorem overlapCheck_of_not_overlaps {a b : Region} (h : ¬a.overlaps b = true) (k : Nat) :
    overlapCheck a b k = .ok () := if_neg h

/-- A check that only some commands make. -/
def checkWhen (c : Prop) [Decidable c] (r : Except CmdError Unit) : Except CmdError Unit :=
  if c then r else .ok ()

section
variable {c : Prop} [Decidable c] {r : Except CmdError Unit}

theorem checkWhen_of_true (hc : c) : checkWhen c r = r := if_pos hc

theorem checkWhen_of_false (hc : ¬c) : checkWhen c r = .ok () := if_neg hc

theorem checkWhen_of_ok (h : c → r = .ok ()) : checkWhen c r = .ok () := by
  unfold checkWhen
  split
  · exact h ‹_›
  · rfl

end

theorem bind_ok_unit (r : Except CmdError Unit) : (r >>= fun _ => Except.ok ()) = r :=
  bind_pure_unit

/-- The opcodes of the commands with SRC and DST (R141). -/
abbrev regionOpcodes : List (BitVec 4) := [0x1, 0x2, 0x3, 0x4, 0x5, 0x6, 0x7, 0x8]

/-- AUX is an operand of the two Huffman commands alone (R141). -/
abbrev usesAux (i : Instr) : Prop := i = .huffEncode ∨ i = .huffDecode

/-- The region checks of a command with SRC and DST, in their order (R136, R137). -/
def regionChecks (i : Instr) (s : State) : Except CmdError Unit :=
  rangeCheck s.params.lmemSize (srcRegion s.regs) 1 >>= fun _ =>
  rangeCheck s.params.lmemSize (dstRegion s.regs) 2 >>= fun _ =>
  checkWhen (usesAux i) (rangeCheck s.params.lmemSize (auxRegion s.regs) 3) >>= fun _ =>
  overlapCheck (srcRegion s.regs) (dstRegion s.regs) 4 >>= fun _ =>
  checkWhen (usesAux i) (overlapCheck (auxRegion s.regs) (dstRegion s.regs) 5) >>= fun _ =>
  checkWhen (i = .huffEncode) (overlapCheck (srcRegion s.regs) (auxRegion s.regs) 6)

section
variable {s : State}

theorem regionChecks_of_inRange {i : Instr}
    (hsrc : (srcRegion s.regs).inRange s.params.lmemSize = true)
    (hdst : (dstRegion s.regs).inRange s.params.lmemSize = true)
    (haux : usesAux i → (auxRegion s.regs).inRange s.params.lmemSize = true) :
    regionChecks i s =
      overlapCheck (srcRegion s.regs) (dstRegion s.regs) 4 >>= fun _ =>
      checkWhen (usesAux i) (overlapCheck (auxRegion s.regs) (dstRegion s.regs) 5) >>= fun _ =>
      checkWhen (i = .huffEncode) (overlapCheck (srcRegion s.regs) (auxRegion s.regs) 6) := by
  rw [regionChecks, rangeCheck_of_inRange hsrc, ok_bind, rangeCheck_of_inRange hdst, ok_bind,
    checkWhen_of_ok fun ha => rangeCheck_of_inRange (haux ha) 3, ok_bind]

theorem regionChecks_of_not_usesAux {i : Instr} (h : ¬usesAux i) :
    regionChecks i s = checkSrcDst s := by
  have hencode : i ≠ .huffEncode := fun hi => h (.inl hi)
  simp only [regionChecks, checkWhen_of_false h, checkWhen_of_false hencode, ok_bind, bind_ok_unit]
  rfl

theorem regionChecks_huffDecode : regionChecks .huffDecode s = checkSrcDstAuxIn s := by
  simp [regionChecks, checkWhen, usesAux, checkSrcDstAuxIn, bind_ok_unit]

theorem regionChecks_huffEncode : regionChecks .huffEncode s = checkSrcDstAuxOut s := by
  simp [regionChecks, checkWhen, usesAux, checkSrcDstAuxOut, checkSrcDstAuxIn]

/-- The commands with SRC and DST alone begin with the checks of these two. -/
theorem commandResult_of_checkSrcDst_error {op : BitVec 4} {e : CmdError}
    (hop : op ∈ [0x1#4, 0x2, 0x5, 0x6, 0x7, 0x8]) (h : checkSrcDst s = .error e) :
    commandResult op s = .error e := by
  simp only [List.mem_cons, List.not_mem_nil, or_false] at hop
  obtain rfl | rfl | rfl | rfl | rfl | rfl := hop <;>
    simp [commandResult, cmdLzssCompress, cmdLzssDecompress, startLzssDecompress, cmdPack,
      cmdUnpack, startUnpack, cmdContWrite, startContWrite, cmdContRead, startContRead, h]

/-- The eight commands with SRC and DST begin with their region checks (R140). -/
theorem commandResult_of_regionChecks_error {op : BitVec 4} {e : CmdError}
    (hop : op ∈ regionOpcodes)
    (h : regionChecks (commandOf op) s = .error e) : commandResult op s = .error e := by
  by_cases haux : usesAux (commandOf op)
  · have hhuffman : ∀ op, usesAux (commandOf op) → op = 0x3 ∨ op = 0x4 := by decide
    obtain rfl | rfl := hhuffman op haux
    · have hcheck : checkSrcDstAuxOut s = .error e := regionChecks_huffEncode.symm.trans h
      simp [commandResult, cmdHuffEncode, hcheck]
    · have hcheck : checkSrcDstAuxIn s = .error e := regionChecks_huffDecode.symm.trans h
      simp [commandResult, cmdHuffDecode, startHuffDecode, hcheck]
  · have hplain : ∀ op ∈ regionOpcodes, ¬usesAux (commandOf op) →
        op ∈ [0x1#4, 0x2, 0x5, 0x6, 0x7, 0x8] := by decide
    exact commandResult_of_checkSrcDst_error (hplain op hop haux)
      ((regionChecks_of_not_usesAux haux).symm.trans h)

theorem failsEarly_of_regionChecks {i : Instr} {k : Nat}
    (hi : i ∈ [Instr.lzssCompress, .lzssDecompress, .huffEncode, .huffDecode, .pack, .unpack,
      .contWrite, .contRead]) (h : regionChecks i s = .error (earlyErr .range k)) :
    failsEarly i s 0x02 k := by
  have hcommands : [Instr.lzssCompress, .lzssDecompress, .huffEncode, .huffDecode, .pack, .unpack,
      .contWrite, .contRead] = regionOpcodes.map commandOf := rfl
  rw [hcommands] at hi
  obtain ⟨op, hop, rfl⟩ := List.mem_map.mp hi
  exact failsEarly_of_result (commandResult_of_regionChecks_error hop h)

end

/-- Settles O25: each clause passes the checks before its own in `regionChecks`, and fails there. -/
theorem regionChecksInOrder : Obligations.RegionChecksInOrder := by
  intro s i hi size aux inLmem share srcIn dstIn auxIn srcDst auxDst srcAux
  have hsrc : (srcRegion s.regs).inRange s.params.lmemSize = true ↔ srcIn := inRange_iff ..
  have hdst : (dstRegion s.regs).inRange s.params.lmemSize = true ↔ dstIn := inRange_iff ..
  have haux : (usesAux i → (auxRegion s.regs).inRange s.params.lmemSize = true) ↔ auxIn :=
    imp_congr_right fun _ => inRange_iff ..
  have hsrcDst : (srcRegion s.regs).overlaps (dstRegion s.regs) = true ↔ srcDst := overlaps_iff ..
  have hauxDst : (auxRegion s.regs).overlaps (dstRegion s.regs) = true ↔ auxDst := overlaps_iff ..
  have hsrcAux : (srcRegion s.regs).overlaps (auxRegion s.regs) = true ↔ srcAux := overlaps_iff ..
  refine ⟨fun h1 => ⟨failsEarly_of_regionChecks hi ?_, ?_⟩,
    fun h1 h2 => failsEarly_of_regionChecks hi ?_,
    fun h1 h2 h3 => failsEarly_of_regionChecks hi ?_,
    fun h1 h2 h3 h4 => failsEarly_of_regionChecks hi ?_,
    fun h1 h2 h3 h4 ha h5 => failsEarly_of_regionChecks hi ?_,
    fun h1 h2 h3 h4 h5 he h6 => failsEarly_of_regionChecks hi ?_⟩
  · rw [regionChecks, rangeCheck_of_not_inRange (mt hsrc.mp h1), error_bind]
  · have hresult : cmdCrc32 s = .error (earlyErr .range 1) := by
      rw [cmdCrc32, checkSrc, rangeCheck_of_not_inRange (mt hsrc.mp h1), error_bind]
    exact failsEarly_of_result (op := 0x9) hresult
  · rw [regionChecks, rangeCheck_of_inRange (hsrc.mpr h1), ok_bind,
      rangeCheck_of_not_inRange (mt hdst.mp h2), error_bind]
  · obtain ⟨ha, h3⟩ := Classical.not_imp.mp (mt haux.mp h3)
    rw [regionChecks, rangeCheck_of_inRange (hsrc.mpr h1), ok_bind,
      rangeCheck_of_inRange (hdst.mpr h2), ok_bind, checkWhen_of_true ha,
      rangeCheck_of_not_inRange h3, error_bind]
  · rw [regionChecks_of_inRange (hsrc.mpr h1) (hdst.mpr h2) (haux.mpr h3),
      overlapCheck_of_overlaps (hsrcDst.mpr h4), error_bind]
  · rw [regionChecks_of_inRange (hsrc.mpr h1) (hdst.mpr h2) (haux.mpr h3),
      overlapCheck_of_not_overlaps (mt hsrcDst.mp h4), ok_bind, checkWhen_of_true ha,
      overlapCheck_of_overlaps (hauxDst.mpr h5), error_bind]
  · rw [regionChecks_of_inRange (hsrc.mpr h1) (hdst.mpr h2) (haux.mpr h3),
      overlapCheck_of_not_overlaps (mt hsrcDst.mp h4), ok_bind,
      checkWhen_of_ok fun _ => overlapCheck_of_not_overlaps (mt hauxDst.mp h5) 5, ok_bind,
      checkWhen_of_true he, overlapCheck_of_overlaps (hsrcAux.mpr h6)]

/-! ### Token and chunk moves that end the running command (R181, R251, R255) -/

/-- Settles O44: the offset check is the decoder's error, which ends the running command. -/
theorem matchBadOffsetEndsCommand : Obligations.MatchBadOffsetEndsCommand := by
  intro offset lenField s hbad
  have hexec : exec (.matchToken offset lenField) s =
      .next (complete s.regs.op (.error (lateErr .badOffset s.internals.tok.q)) s) := by
    have happly : applyCopy offset lenField s.internals.tok =
        .error (lateErr .badOffset s.internals.tok.q) := if_pos hbad
    exact congrArg (fun r => Host.Outcome.next (afterToken r s)) happly
  exact failsLate_of_running hexec

section
variable {payload : List Byte} {crc : Word} {s : State}
  (hcrc : crc = crc32 (be32 tagIend ++ payload))
include hcrc

/-- An end marker before any metadata is out of order (R251). -/
theorem exec_chunkIend_of_noHeader (hhdr : s.internals.chunk.hdr = none) :
    exec (.chunkIend payload crc) s =
      .next (complete s.regs.op (.error (lateErr .chunkOrder s.internals.chunk.pos)) s) := by
  have happly : applyIend payload crc s.internals.chunk =
      .error (lateErr .chunkOrder s.internals.chunk.pos) := by
    simp [applyIend, crcCheck, chunkCrc, hcrc, hhdr]
  exact congrArg (fun r => Host.Outcome.next (afterChunk r s)) happly

/-- An end marker after metadata ends the chunk loop, not truncated (R251). -/
theorem exec_chunkIend_of_header {hdr : Ihdr} (hhdr : s.internals.chunk.hdr = some hdr) :
    exec (.chunkIend payload crc) s = .next (chunksEnd false s) := by
  have happly : applyIend payload crc s.internals.chunk = .ok (.stop s.internals.chunk) := by
    simp [applyIend, crcCheck, chunkCrc, hcrc, hhdr]
  exact congrArg (fun r => Host.Outcome.next (afterChunk r s)) happly

end

theorem chunksEnd_of_error {s : State} {trunc : Bool} {e : CmdError}
    (h : afterChunks s s.internals.chunk trunc = .error e) :
    chunksEnd trunc s = complete s.regs.op (.error e) s := by
  rw [chunksEnd, h]

theorem chunksEnd_of_done {s : State} {trunc : Bool} {o : CmdOutput}
    (h : afterChunks s s.internals.chunk trunc = .ok (.done o)) :
    chunksEnd trunc s = complete s.regs.op (.ok o) s := by
  rw [chunksEnd, h]

theorem chunksEnd_of_tokens {s : State} {trunc : Bool} {t : TokenUnit}
    (h : afterChunks s s.internals.chunk trunc = .ok (.tokens t)) :
    chunksEnd trunc s =
      { s with
        seq := .tokens
        internals := { s.internals with tok := t, scratch := s.internals.chunk.payload } } := by
  rw [chunksEnd, h]

/-- Settles O48: on the LZSS path the token decoder takes the payload; off it the rest of the
command follows at once, and its first error ends it. -/
theorem iendChunkEndsLoop : Obligations.IendChunkEndsLoop := by
  intro payload crc s hcrc u
  refine ⟨fun hhdr hpayload hlzss => ?_, fun h hhdr hpayload hext hdst => ?_,
    fun hhdr hscratch => ?_, fun hhdr => ?_⟩
  · obtain ⟨h, hhdr⟩ := Option.isSome_iff_exists.mp hhdr
    rw [exec_chunkIend_of_header hcrc hhdr,
      chunksEnd_of_tokens (afterChunks_of_lzss false hhdr hpayload hlzss)]
    rfl
  · have hafter := afterChunks_of_external false hhdr hpayload hext
    have hexec := exec_chunkIend_of_header hcrc hhdr
    have hfails : ∀ e, afterChunks s u false = .error e →
        failsLate (.chunkIend payload crc) s e.code.toByte e.info (runningOutputs s.regs) :=
      fun e herror => failsLate_of_running (hexec.trans (congrArg _ (chunksEnd_of_error herror)))
    cases hrows : Config.ext.decompress u.payload with
    | none =>
      refine hfails (lateErr .ext 0) ?_
      rw [hafter, extDecompress, hrows, error_bind]
    | some rows =>
      rw [extDecompress, hrows, ok_bind] at hafter
      dsimp only
      split
      · rename_i hscratch
        refine hfails (lateErr .capacity 3) ?_
        rw [hafter, readPixels_of_scratch _ hscratch, error_bind]
      · rename_i hscratch
        replace hscratch := Nat.le_of_not_lt hscratch
        cases hpixels : unfilter rows h.width.toNat h.height.toNat with
        | error e =>
          refine hfails e ?_
          rw [hafter, readPixels_of_unfilter_error _ hscratch hpixels, error_bind]
        | ok r =>
          dsimp only
          split
          · rename_i hcap
            refine hfails (lateErr .capacity 1) ?_
            rw [hafter, readPixels_of_capacity _ hscratch hpixels hcap, error_bind]
          · rename_i hcap
            replace hcap := Nat.le_of_not_lt hcap
            rw [readPixels_of_fit _ hscratch hpixels hcap, ok_bind] at hafter
            exact completesWith_primary (hexec.trans (congrArg _ (chunksEnd_of_done hafter))) rfl
              (Nat.le_trans (Nat.add_le_add_left hcap _) hdst)
  · obtain ⟨h, hhdr⟩ := Option.isSome_iff_exists.mp hhdr
    exact failsLate_of_running ((exec_chunkIend_of_header hcrc hhdr).trans
      (congrArg _ (chunksEnd_of_error (afterChunks_of_payload false hhdr hscratch))))
  · exact failsLate_of_running (exec_chunkIend_of_noHeader hcrc hhdr)

/-! ### NOP, and which instruction a step runs (R131, R142, R177, R247) -/

/-- Settles O29: NOP is the completion with no output and no result register. -/
theorem nopCompletes : Obligations.NopCompletes := by
  intro s
  have hexec : exec .nop s = .next (complete 0x0 (.ok {}) s) := rfl
  exact ⟨completesWith_nothing hexec rfl rfl 0, by decide⟩

/-- Settles O19: the step is the engine's, and its fetch is the decoder of the stage. -/
theorem stepRunsDecodedInstruction : Obligations.StepRunsDecodedInstruction := by
  intro s i hbusy hturns
  have hstep : step s = engineStep s := by simp [step, runStep, hbusy, hturns]
  have hfetched : fetch s = .instr i → step s = exec i s := by
    intro h
    rw [hstep, engineStep, h]
  refine ⟨fun hseq h => hfetched ?_, fun hseq h => hfetched ?_, fun hseq h => hfetched ?_⟩
  · cases h
    simp only [fetch, hseq]
  · simp only [decode] at h
    simp only [fetch, hseq, h]
  · simp only [decode] at h
    simp only [fetch, hseq, h]

end Sys2Proof.Proofs
end

section
/-! PROOFS. O23 and O24: what each command can answer. `Yields` follows a result through its stages: which result registers a success names, and which error codes come from the checks alone. -/
namespace Sys2Proof.Proofs
open Sys2Proof Sys2Proof.Machine Sys2Proof.Laws

/-! ### What a stage can answer -/

/-- A result whose value meets `P` and whose error meets `E`. -/
def Yields {α : Type} (P : α → Prop) (E : CmdError → Prop) : Except CmdError α → Prop
  | .ok a => P a
  | .error e => E e

/-- A result whose error, if it is one, meets `E`. -/
abbrev Raises {α : Type} (E : CmdError → Prop) (r : Except CmdError α) : Prop :=
  Yields (fun _ => True) E r

theorem Yields.bind {α β : Type} {P : α → Prop} {Q : β → Prop} {E : CmdError → Prop}
    {r : Except CmdError α} {f : α → Except CmdError β} (hr : Yields P E r)
    (hf : ∀ a, P a → Yields Q E (f a)) : Yields Q E (r >>= f) := by
  cases r with
  | error e => exact hr
  | ok a => exact hf a hr

/-- An error with one of the codes comes from the checks alone, (1) to (4) of R140. -/
def EarlyOnly (codes : List ErrCode) (e : CmdError) : Prop := e.code ∈ codes → e.late = false

/-- The codes that a command's stages never raise: such an error leaves LMEM as it was (R143). -/
def earlyCodes (op : BitVec 4) : List ErrCode :=
  if op = 0x7 then [.badCmd, .range, .badParam] else [.badCmd, .range]

section
variable {α : Type} {codes : List ErrCode}

theorem raises_earlyErr (code : ErrCode) (info : Nat) :
    Raises (EarlyOnly codes) (Except.error (earlyErr code info) : Except CmdError α) := fun _ => rfl

theorem raises_lateErr {code : ErrCode} (h : code ∉ codes) (info : Nat) :
    Raises (EarlyOnly codes) (Except.error (lateErr code info) : Except CmdError α) :=
  fun hin => absurd hin h

/-- A stage that first tests for an error raises it or what its rest raises. -/
theorem raises_unless {c : Prop} [Decidable c] {code : ErrCode} {info : Nat}
    {r : Except CmdError α} (h : code ∉ codes) (hr : Raises (EarlyOnly codes) r) :
    Raises (EarlyOnly codes) (if c then .error (lateErr code info) else r) := by
  split
  · exact raises_lateErr h info
  · exact hr

/-- The operand checks as Laws/Ops.lean says them raise early errors alone. -/
theorem raises_of_check_cases {fits fails : Prop} {r : Except CmdError Unit}
    (h : fits ∧ r = .ok () ∨ fails ∧ ∃ k, r = .error (earlyErr .range k)) :
    Raises (EarlyOnly codes) r := by
  obtain ⟨-, rfl⟩ | ⟨-, k, rfl⟩ := h
  · trivial
  · exact raises_earlyErr _ _

theorem imageCheck_raises (w h n : Nat) : Raises (EarlyOnly codes) (imageCheck w h n) := by
  unfold imageCheck
  split_ifs
  · exact raises_earlyErr _ _
  · exact raises_earlyErr _ _
  · trivial

theorem capacityCheck_raises (h : ErrCode.capacity ∉ codes) (n cap k : Nat) :
    Raises (EarlyOnly codes) (capacityCheck n cap k) := by
  obtain ⟨-, hc⟩ | ⟨-, hc⟩ := capacityCheck_cases n cap k <;> rw [hc]
  · trivial
  · exact raises_lateErr h k

end

/-- What every stage but the checks raises: none of the two codes of the checks alone. -/
abbrev StageRaises {α : Type} (r : Except CmdError α) : Prop :=
  Raises (EarlyOnly [.badCmd, .range]) r

theorem applyToken_raises (t : Token) (u : TokenUnit) : StageRaises (applyToken t u) := by
  cases t with
  | lit b => trivial
  | copy offset lenField => exact raises_unless (by decide) trivial
  | reserved tag => exact raises_lateErr (by decide) _

theorem tokenLoop_raises (n : Nat) (u : TokenUnit) : StageRaises (tokenLoop n u) := by
  induction n generalizing u with
  | zero => trivial
  | succ n ih =>
    have happly := fun t => applyToken_raises t u
    unfold tokenLoop
    split
    · rename_i t _
      specialize happly t
      split
      · exact ih _
      · rename_i e he
        rwa [he] at happly
    · trivial
    · trivial

theorem tableEntries_raises (n q : Nat) (t : List Byte) : StageRaises (tableEntries n q t) := by
  induction n, q, t using tableEntries.induct with
  | case1 => trivial
  | case2 n q v l rest hshort =>
    rw [tableEntries, if_pos hshort]
    exact raises_lateErr (by decide) _
  | case3 n q v l rest hlong es hes ih =>
    rw [tableEntries, if_neg hlong, hes]
    trivial
  | case4 n q v l rest hlong e he ih =>
    rw [tableEntries, if_neg hlong, he]
    rwa [he] at ih
  | case5 n q t hshort =>
    rw [tableEntries]
    · exact raises_lateErr (by decide) _
    · exact hshort

theorem deserializeTable_raises (t : List Byte) : StageRaises (deserializeTable t) :=
  raises_unless (by decide) (raises_unless (by decide) (tableEntries_raises ..))

theorem openArchive_raises (magic : Word) (a : List Byte) : StageRaises (openArchive magic a) := by
  have hheader : StageRaises (archiveHeader magic a) :=
    raises_unless (by decide) (raises_unless (by decide) (raises_unless (by decide) trivial))
  exact hheader.bind fun _ _ => (deserializeTable_raises _).bind fun _ _ => trivial

theorem crcCheck_raises (c : Chunk) (u : ChunkUnit) : StageRaises (crcCheck c u) := by
  unfold crcCheck
  split
  · trivial
  · exact raises_lateErr (by decide) _

theorem applyChunk_raises (c : Chunk) (u : ChunkUnit) : StageRaises (applyChunk c u) := by
  unfold applyChunk
  split_ifs
  · exact (crcCheck_raises _ u).bind fun _ _ =>
      raises_unless (by decide) (raises_unless (by decide) trivial)
  · exact (crcCheck_raises _ u).bind fun _ _ => raises_unless (by decide) trivial
  · exact (crcCheck_raises _ u).bind fun _ _ => raises_unless (by decide) trivial
  · exact (crcCheck_raises _ u).bind fun _ _ => trivial

theorem chunkLoop_raises (n : Nat) (u : ChunkUnit) : StageRaises (chunkLoop n u) := by
  induction n generalizing u with
  | zero => trivial
  | succ n ih =>
    have happly := fun c => applyChunk_raises c u
    unfold chunkLoop
    split
    · rename_i c _
      specialize happly c
      split
      · exact ih _
      · trivial
      · rename_i e he
        rwa [he] at happly
    · trivial

theorem passSignature_raises (u : ChunkUnit) : StageRaises (passSignature u) :=
  raises_unless (by decide) trivial

theorem unfilterRows_raises (w h j : Nat) (rows : List Byte) :
    StageRaises (unfilterRows w h j rows) := by
  induction h, j, rows using unfilterRows.induct w with
  | case1 => trivial
  | case2 => trivial
  | case3 h j marker rest hmarker =>
    rw [unfilterRows, if_pos hmarker]
    exact raises_lateErr (by decide) _
  | case4 h j marker rest hmarker hshort =>
    rw [unfilterRows, if_neg hmarker, if_pos hshort]
    trivial
  | case5 h j marker rest hmarker hlong out trunc hout ih =>
    rw [unfilterRows, if_neg hmarker, if_neg hlong, hout]
    trivial
  | case6 h j marker rest hmarker hlong e he ih =>
    rw [unfilterRows, if_neg hmarker, if_neg hlong, he]
    rwa [he] at ih

theorem extDecompress_raises (payload : List Byte) : StageRaises (extDecompress payload) := by
  unfold extDecompress
  split
  · trivial
  · exact raises_lateErr (by decide) _

/-! ### What each command can answer (R34, R37 to R41, R133, R140) -/

/-- Which commands write BIT_LEN, RESULT and the image registers (R34, R37 to R41). -/
def OutputFrame (op : BitVec 4) (o : CmdOutput) : Prop :=
  (op ≠ 0x3 → o.bitLen = none) ∧ (op ≠ 0x9 → o.result = none) ∧ (op ≠ 0x8 → o.image = none)

/-- What a command can answer: an output with its own result registers alone, or an error whose
code says when it comes from the checks alone. -/
abbrev Answers (op : BitVec 4) (r : CmdResult) : Prop :=
  Yields (OutputFrame op) (EarlyOnly (earlyCodes op)) r

theorem capacity_notMem_earlyCodes (op : BitVec 4) : ErrCode.capacity ∉ earlyCodes op := by
  unfold earlyCodes
  split <;> decide

theorem outputFrame_plain (op : BitVec 4) (out : List Byte) (trunc : Bool) :
    OutputFrame op { primary := out, trunc := trunc } :=
  ⟨fun _ => rfl, fun _ => rfl, fun _ => rfl⟩

theorem deliver_answers (op : BitVec 4) (s : State) (out : List Byte) (trunc : Bool) :
    Answers op (deliver s out trunc) :=
  (capacityCheck_raises (capacity_notMem_earlyCodes op) ..).bind fun _ _ =>
    outputFrame_plain op out trunc

theorem readPixels_answers (s : State) (hdr : Ihdr) (rows : List Byte) (trunc : Bool) :
    Answers 0x8 (readPixels s hdr rows trunc) := by
  have hcapacity := capacity_notMem_earlyCodes 0x8
  rw [readPixels_eq]
  exact (capacityCheck_raises hcapacity ..).bind fun _ _ => (unfilterRows_raises ..).bind fun _ _ =>
    (capacityCheck_raises hcapacity ..).bind fun _ _ =>
      ⟨fun _ => rfl, fun _ => rfl, fun h => absurd rfl h⟩

theorem noImage_answers : Answers 0x8 (.ok { trunc := true, image := some noImageInfo }) :=
  ⟨fun _ => rfl, fun _ => rfl, fun h => absurd rfl h⟩

/-- What the chunk loop leads to: the end of the command, or the token loop. -/
def AfterChunksFrame (a : AfterChunks) : Prop := ∀ o, a = .done o → OutputFrame 0x8 o

theorem afterChunks_answers (s : State) (u : ChunkUnit) (trunc : Bool) :
    Yields AfterChunksFrame (EarlyOnly (earlyCodes 0x8)) (afterChunks s u trunc) := by
  unfold afterChunks
  split
  · rintro o ⟨⟩
    exact noImage_answers
  · refine (capacityCheck_raises (capacity_notMem_earlyCodes 0x8) ..).bind fun _ _ => ?_
    split
    · rintro o ⟨⟩
    · refine (extDecompress_raises _).bind fun rows _ =>
        (readPixels_answers s _ rows trunc).bind fun o ho => ?_
      rintro o ⟨⟩
      exact ho

section
variable (s : State)

theorem cmdNop_answers : Answers 0x0 cmdNop := outputFrame_plain 0x0 [] false

theorem cmdLzssCompress_answers : Answers 0x1 (cmdLzssCompress s) :=
  (raises_of_check_cases (checkSrcDst_cases s)).bind fun _ _ => deliver_answers 0x1 s _ false

theorem cmdLzssDecompress_answers : Answers 0x2 (cmdLzssDecompress s) := by
  have hstart : Raises (EarlyOnly (earlyCodes 0x2)) (startLzssDecompress s) :=
    (raises_of_check_cases (checkSrcDst_cases s)).bind fun _ _ => trivial
  exact hstart.bind fun u _ => (tokenLoop_raises _ u).bind fun r _ => deliver_answers 0x2 s r.1 r.2

theorem cmdHuffEncode_answers : Answers 0x3 (cmdHuffEncode s) := by
  have hcapacity := capacity_notMem_earlyCodes 0x3
  exact (raises_of_check_cases (checkSrcDstAuxOut_cases s)).bind fun _ _ =>
    (capacityCheck_raises hcapacity ..).bind fun _ _ =>
    (capacityCheck_raises hcapacity ..).bind fun _ _ =>
      ⟨fun h => absurd rfl h, fun _ => rfl, fun _ => rfl⟩

theorem cmdHuffDecode_answers : Answers 0x4 (cmdHuffDecode s) := by
  have hstart : Raises (EarlyOnly (earlyCodes 0x4)) (startHuffDecode s) :=
    (raises_of_check_cases (checkSrcDstAuxIn_cases s)).bind fun _ _ =>
      (deserializeTable_raises _).bind fun _ _ => trivial
  exact hstart.bind fun u _ => deliver_answers 0x4 s (runBits u).1 (runBits u).2

theorem cmdPack_answers : Answers 0x5 (cmdPack s) :=
  (raises_of_check_cases (checkSrcDst_cases s)).bind fun _ _ =>
    (capacityCheck_raises (capacity_notMem_earlyCodes 0x5) ..).bind fun _ _ =>
      deliver_answers 0x5 s _ false

theorem cmdUnpack_answers : Answers 0x6 (cmdUnpack s) := by
  have hstart : Raises (EarlyOnly (earlyCodes 0x6)) (startUnpack s) :=
    (raises_of_check_cases (checkSrcDst_cases s)).bind fun _ _ => openArchive_raises ..
  have hbetween (b : BitUnit) : Raises (EarlyOnly (earlyCodes 0x6))
      (afterUnpackBits s (runBits b).1 (runBits b).2) :=
    (capacityCheck_raises (capacity_notMem_earlyCodes 0x6) ..).bind fun _ _ => trivial
  exact hstart.bind fun b _ => (hbetween b).bind fun u _ => (tokenLoop_raises _ u).bind fun r _ =>
    deliver_answers 0x6 s r.1 r.2

theorem cmdContWrite_answers : Answers 0x7 (cmdContWrite s) := by
  have hcapacity := capacity_notMem_earlyCodes 0x7
  have hstart : Raises (EarlyOnly (earlyCodes 0x7)) (startContWrite s) :=
    (raises_of_check_cases (checkSrcDst_cases s)).bind fun _ _ => (imageCheck_raises ..).bind
      fun _ _ => (capacityCheck_raises hcapacity ..).bind fun _ _ => trivial
  refine hstart.bind fun rows _ => ?_
  rw [finishContWrite_eq]
  exact (capacityCheck_raises hcapacity ..).bind fun _ _ => deliver_answers 0x7 s _ false

theorem cmdContRead_answers : Answers 0x8 (cmdContRead s) := by
  have hstart : Raises (EarlyOnly (earlyCodes 0x8)) (startContRead s) :=
    (raises_of_check_cases (checkSrcDst_cases s)).bind fun _ _ => trivial
  refine hstart.bind fun start _ => (passSignature_raises start).bind fun u0 _ =>
    (chunkLoop_raises _ u0).bind fun p _ => (afterChunks_answers s p.1 p.2).bind fun a ha => ?_
  cases a with
  | done o => exact ha o rfl
  | tokens t =>
    refine (tokenLoop_raises _ t).bind fun r _ => ?_
    show Answers 0x8 (finishContRead s p.1.hdr r.1 r.2)
    unfold finishContRead
    split
    · exact readPixels_answers ..
    · exact noImage_answers

theorem cmdCrc32_answers : Answers 0x9 (cmdCrc32 s) := by
  have hcheck : Raises (EarlyOnly (earlyCodes 0x9)) (checkSrc s) :=
    raises_of_check_cases ((rangeCheck_cases ..).imp_right fun h => ⟨h.1, 1, h.2⟩)
  exact hcheck.bind fun _ _ => ⟨fun _ => rfl, fun h => absurd rfl h, fun _ => rfl⟩

/-- What every command can answer. -/
theorem commandResult_answers (op : BitVec 4) : Answers op (commandResult op s) := by
  by_cases hreserved : 0xA#4 ≤ op
  · rw [commandResult_of_reserved hreserved]
    exact raises_earlyErr (α := CmdOutput) .badCmd op.toNat
  · have hop : op.toNat < 10 := Nat.lt_of_not_le hreserved
    obtain ⟨k, hk⟩ := op
    change k < 10 at hop
    interval_cases k
    exacts [cmdNop_answers, cmdLzssCompress_answers s, cmdLzssDecompress_answers s,
      cmdHuffEncode_answers s, cmdHuffDecode_answers s, cmdPack_answers s, cmdUnpack_answers s,
      cmdContWrite_answers s, cmdContRead_answers s, cmdCrc32_answers s]

end

/-! ### Every command completes, and a failed one changes little (R131, R133, R134, R310) -/

/-- A command of the list is the completion of what it computes. -/
theorem exec_of_mem_allCommands {c : BitVec 4 × Instr} (hc : c ∈ allCommands) (s : State) :
    exec c.2 s = .next (complete c.1 (commandResult c.1 s) s) := by
  rw [allCommands_eq_commandOf c hc, exec_commandOf]

theorem ne_of_command_ne {op : BitVec 4} {i : Instr} (hi : i = commandOf op) {k : BitVec 4}
    (h : i ≠ commandOf k) : op ≠ k := fun heq => h (heq ▸ hi)

/-- Settles O23: either completion fixes STATUS, and the command's frame says which result registers
it leaves alone. -/
theorem everyCommandCompletes : Obligations.EveryCommandCompletes := by
  intro c hc s
  have hcommand := allCommands_eq_commandOf c hc
  have hanswers := commandResult_answers s c.1
  refine ⟨_, exec_of_mem_allCommands hc s, ?_⟩
  generalize commandResult c.1 s = r at hanswers ⊢
  have hhost := complete_hostSideSame c.1 r s
  cases r with
  | error e =>
    exact ⟨rfl, rfl, rfl, hhost, fun h => absurd h Bool.false_ne_true,
      fun h => absurd h (ErrCode.toByte_ne_zero e.code), rfl, rfl, rfl, rfl, rfl, rfl, rfl, rfl,
      rfl, fun _ => rfl, fun _ => rfl, fun _ => ⟨rfl, rfl, rfl, rfl⟩⟩
  | ok o =>
    obtain ⟨hbitLen, hresult, himage⟩ : OutputFrame c.1 o := hanswers
    refine ⟨rfl, rfl, rfl, hhost, fun _ => rfl, fun _ => rfl, rfl, rfl, rfl, rfl, rfl, rfl, rfl,
      rfl, rfl, fun h => ?_, fun h => ?_, fun h => ?_⟩
    · have hop : c.1 ≠ 0x3 := ne_of_command_ne hcommand h
      simp [hbitLen hop]
    · have hop : c.1 ≠ 0x9 := ne_of_command_ne hcommand h
      simp [hresult hop]
    · have hop : c.1 ≠ 0x8 := ne_of_command_ne hcommand h
      simp [himage hop]

/-- Of all commands HUFF_ENCODE alone writes AUX (R141). -/
theorem outputRegions_subset (op : BitVec 4) (r : Regs) :
    outputRegions op r ⊆ if op = 0x3 then [dstRegion r, auxRegion r] else [dstRegion r] := by
  obtain ⟨k, hk⟩ := op
  interval_cases k <;> simp [outputRegions]

theorem huffEncode_iff_opcode : ∀ c ∈ allCommands, c.2 = .huffEncode ↔ c.1 = 0x3 := by decide

theorem opcode_of_contWrite : ∀ c ∈ allCommands, c.2 = .contWrite → c.1 = 0x7 := by decide

/-- The status codes that promise LMEM as it was are those of the checks alone. -/
theorem mem_earlyCodes_of_toByte {op : BitVec 4} {code : ErrCode}
    (h : code.toByte = 0x01 ∨ code.toByte = 0x02 ∨ op = 0x7 ∧ code.toByte = 0x0C) :
    code ∈ earlyCodes op := by
  have hbadCmd : code.toByte = 0x01 → code = .badCmd := by cases code <;> decide
  have hrange : code.toByte = 0x02 → code = .range := by cases code <;> decide
  have hbadParam : code.toByte = 0x0C → code = .badParam := by cases code <;> decide
  obtain h | h | ⟨rfl, h⟩ := h
  · rw [hbadCmd h, earlyCodes]
    split <;> simp
  · rw [hrange h, earlyCodes]
    split <;> simp
  · rw [hbadParam h]
    decide

/-- Settles O24: error entry fixes the registers, output regions bound what LMEM loses, and the codes
of the checks are early. -/
theorem failedCommandFrame : Obligations.FailedCommandFrame := by
  intro c hc s t hexec herr
  have hanswers := commandResult_answers s c.1
  rw [exec_of_mem_allCommands hc] at hexec
  generalize commandResult c.1 s = r at hanswers hexec
  cases hexec
  cases r with
  | ok o => exact absurd rfl herr
  | error e =>
    refine ⟨?_, fun a ha => complete_error_lmemSameOutside c.1 s e a fun g hg =>
      ha g ?_, fun hcode => ?_⟩
    · simp only [complete_error_regs, errRegs_eq_failedRegs, failedRegs, BitVec.ofNat_toNat,
        BitVec.setWidth_eq]
    · simpa only [huffEncode_iff_opcode c hc] using outputRegions_subset c.1 s.regs hg
    · have hearly : e.late = false := hanswers (mem_earlyCodes_of_toByte
        (hcode.imp_right (Or.imp_right (And.imp_left (opcode_of_contWrite c hc)))))
      obtain ⟨code, info, late⟩ := e
      cases hearly
      exact complete_early_lmemSame c.1 s code info

end Sys2Proof.Proofs
end

section
/-! PROOFS. O4 and O5: PackBits and UnpackBits bit by bit, and the check values of Crc32. -/
namespace Sys2Proof.Proofs
open Sys2Proof Sys2Proof.Machine

/-! ### PackBits and UnpackBits (R152, R153) -/

/-- Eight bits one after the other, each the new lowest bit (R66). -/
theorem byteOfBits_eq_concat (bit : Nat → Bool) :
    byteOfBits bit = (((((((BitVec.ofBool (bit 0)).concat (bit 1)).concat (bit 2)).concat
      (bit 3)).concat (bit 4)).concat (bit 5)).concat (bit 6)).concat (bit 7) := rfl

/-- The first of eight bits is the byte's most significant (R66). -/
theorem getLsbD_byteOfBits (bit : Nat → Bool) {k : Nat} (hk : k < 8) :
    (byteOfBits bit).getLsbD (7 - k) = bit k := by
  rw [byteOfBits_eq_concat]
  interval_cases k <;> simp [BitVec.getLsbD_concat, -BitVec.getLsbD_eq_getElem]

@[simp] theorem length_packBits (bits : Bits) : (packBits bits).length = ceil8 bits.length := by
  simp [packBits]

theorem getLsbD_packBits (bits : Bits) {j k : Nat} (hj : j < ceil8 bits.length) (hk : k < 8) :
    ((packBits bits).getD j 0).getLsbD (7 - k) = bits.getD (8 * j + k) false := by
  have hbyte : (packBits bits).getD j 0 = byteOfBits fun k => bits.getD (8 * j + k) false := by
    simp [packBits, hj]
  rw [hbyte, getLsbD_byteOfBits _ hk]

/-- Every index is bit `i % 8` of byte `i / 8`. -/
theorem bitAt_packBits {bits : Bits} {i : Nat} (hi : i < bits.length) :
    bitAt (packBits bits) i = bits[i] := by
  have hj : i / 8 < ceil8 bits.length := by
    unfold ceil8
    omega
  rw [bitAt, getLsbD_packBits bits hj (Nat.mod_lt i (by decide)), Nat.div_add_mod,
    List.getD_eq_getElem _ _ hi]

@[simp] theorem length_unpackBits (s : List Byte) (n : Nat) : (unpackBits s n).length = n := by
  simp [unpackBits]

@[simp] theorem getElem_unpackBits (s : List Byte) {n i : Nat} (hi : i < (unpackBits s n).length) :
    (unpackBits s n)[i] = bitAt s i := by
  simp [unpackBits]

theorem bitAt_eight_mul_add (s : List Byte) (j : Nat) {k : Nat} (hk : k < 8) :
    bitAt s (8 * j + k) = (s.getD j 0).getLsbD (7 - k) := by
  have hdiv : (8 * j + k) / 8 = j := by omega
  have hmod : (8 * j + k) % 8 = k := by omega
  rw [bitAt, hdiv, hmod]

theorem unpackBits_packBits (b : Bits) : unpackBits (packBits b) b.length = b := by
  refine List.ext_getElem (length_unpackBits _ _) fun i _ hi => ?_
  rw [getElem_unpackBits, bitAt_packBits hi]

/-- Settles O4: each packed byte holds its eight bits in order, and unpacking reads index `8j + k`
where packing put it. -/
theorem bitStringsPackAndUnpack : Obligations.BitStringsPackAndUnpack := by
  refine ⟨fun bits => ⟨length_packBits bits, fun j k => getLsbD_packBits bits⟩,
    fun s n _ => ⟨length_unpackBits s n, fun j k hk hn => ?_⟩, unpackBits_packBits⟩
  rw [List.getD_eq_getElem _ _ (by rwa [length_unpackBits]), getElem_unpackBits,
    bitAt_eight_mul_add s j hk]

/-! ### Check values of Crc32 (R156) -/

/-- Settles O5: by running Crc32 on the four sequences. -/
theorem crcCheckValues : Obligations.CrcCheckValues := by
  refine ⟨?empty, ?letterA, ?digits, ?iend⟩
  case empty => rfl
  case letterA => decide +kernel
  case digits => decide +kernel
  case iend => decide +kernel

end Sys2Proof.Proofs
end

section
/-! PROOFS. O6, O7 and O8: the match finder and the token it leads to. -/
namespace Sys2Proof.Proofs
open Sys2Proof Sys2Proof.Machine

/-! ### Equal leading bytes (R171) -/

theorem commonLen_le_cap (k : Nat) (a b : List Byte) : commonLen k a b ≤ k := by
  fun_induction commonLen k a b with
  | case1 k as c bs ih => omega
  | case2 => omega
  | case3 => omega

theorem commonLen_le_length (k : Nat) (a b : List Byte) : commonLen k a b ≤ b.length := by
  fun_induction commonLen k a b with
  | case1 k as c bs ih => simpa using ih
  | case2 => omega
  | case3 => omega

theorem getD_eq_of_lt_commonLen {k : Nat} {a b : List Byte} {j : Nat} (h : j < commonLen k a b) :
    a.getD j 0 = b.getD j 0 := by
  fun_induction commonLen k a b generalizing j with
  | case1 k as c bs ih =>
    cases j with
    | zero => rfl
    | succ j => simpa using ih (Nat.lt_of_succ_lt_succ h)
  | case2 => omega
  | case3 => omega

/-- What ends a comparison: the cap, the end of either sequence, or a difference. -/
theorem commonLen_stop (k : Nat) (a b : List Byte) :
    commonLen k a b = k ∨ commonLen k a b = a.length ∨ commonLen k a b = b.length ∨
      a.getD (commonLen k a b) 0 ≠ b.getD (commonLen k a b) 0 := by
  fun_induction commonLen k a b with
  | case1 k as c bs ih => simpa using ih
  | case2 k x as y bs hne => exact .inr (.inr (.inr (by simpa using hne)))
  | case3 k a b h =>
    cases k with
    | zero => exact .inl rfl
    | succ k =>
      cases a with
      | nil => exact .inr (.inl rfl)
      | cons x as =>
        cases b with
        | nil => exact .inr (.inr (.inl rfl))
        | cons y bs => exact absurd rfl (h k x as y bs rfl rfl)

/-! ### Candidates (R171) -/

section
variable {d : List Byte} {p i : Nat}

theorem candLen_le_maxMatch (d : List Byte) (p i : Nat) : candLen d p i ≤ maxMatch :=
  commonLen_le_cap ..

theorem add_candLen_le (hp : p ≤ d.length) (i : Nat) : p + candLen d p i ≤ d.length := by
  have hle : candLen d p i ≤ (d.drop p).length := commonLen_le_length ..
  rw [List.length_drop] at hle
  omega

theorem getD_drop_add (d : List Byte) (i j : Nat) : (d.drop i).getD j 0 = d.getD (i + j) 0 := by
  simp [List.getD_eq_getElem?_getD]

theorem getD_eq_of_lt_candLen {j : Nat} (h : j < candLen d p i) :
    d.getD (i + j) 0 = d.getD (p + j) 0 := by
  rw [← getD_drop_add, ← getD_drop_add]
  exact getD_eq_of_lt_commonLen h

/-- A candidate starts below the position, so it is not its own end that stops it. -/
theorem candLen_stop (hi : i < p) (hp : p ≤ d.length) :
    candLen d p i = maxMatch ∨ p + candLen d p i = d.length ∨
      d.getD (i + candLen d p i) 0 ≠ d.getD (p + candLen d p i) 0 := by
  have hstop := commonLen_stop maxMatch (d.drop i) (d.drop p)
  rw [getD_drop_add, getD_drop_add, List.length_drop, List.length_drop, ← candLen] at hstop
  have hle := add_candLen_le hp i
  obtain hcap | hcand | hend | hdiffer := hstop
  · exact .inl hcap
  · omega
  · exact .inr (.inl (by omega))
  · exact .inr (.inr hdiffer)

end

/-- Settles O6: CandLen compares the input from `i` on with the shorter one from `p` on. -/
theorem candidateLengthIsCommonRun : Obligations.CandidateLengthIsCommonRun := by
  intro d p i hi hp
  exact ⟨candLen_le_maxMatch d p i, add_candLen_le hp i, fun _ => getD_eq_of_lt_candLen,
    candLen_stop hi hp⟩

/-! ### The scan of the window (R172) -/

/-- The pair `m` of length and offset is the best of the starts from `lo` up to below `hi`: the
longest candidate, and among equals the smallest start. -/
structure BestMatch (d : List Byte) (p lo hi : Nat) (m : Nat × Nat) : Prop where
  longest : ∀ i, lo ≤ i → i < hi → candLen d p i ≤ m.1
  atZero : m.1 = 0 → m = (0, 0)
  earliest : 0 < m.1 → ∃ i, lo ≤ i ∧ i < hi ∧ m.2 = p - i ∧ candLen d p i = m.1 ∧
    ∀ i', lo ≤ i' → i' < i → candLen d p i' < m.1

/-- The better of the best pair so far and a new candidate, which has to be strictly longer. -/
def keepLonger (best : Nat × Nat) (len offset : Nat) : Nat × Nat :=
  if len > best.1 then (len, offset) else best

theorem scanWindow_nil (target : List Byte) (offset : Nat) (best : Nat × Nat) :
    scanWindow target offset [] best = best := by
  cases offset <;> rfl

/-- One start of the scan; past the end of the input a candidate has no bytes. -/
theorem scanWindow_succ (target : List Byte) (offset : Nat) (cand : List Byte)
    (best : Nat × Nat) :
    scanWindow target (offset + 1) cand best =
      scanWindow target offset (cand.drop 1)
        (keepLonger best (commonLen maxMatch cand target) (offset + 1)) := by
  unfold keepLonger
  cases cand with
  | nil =>
    rw [if_neg (show ¬commonLen maxMatch [] target > best.1 from Nat.not_lt_zero _)]
    exact (scanWindow_nil ..).symm
  | cons c cand =>
    rw [scanWindow]
    split <;> rfl

section
variable {d : List Byte} {p lo hi : Nat} {m : Nat × Nat}

theorem BestMatch.empty (d : List Byte) (p lo : Nat) : BestMatch d p lo lo (0, 0) where
  longest _ _ _ := by omega
  atZero _ := rfl
  earliest h := absurd h (Nat.lt_irrefl 0)

/-- One more start keeps the pair the best, as only a strictly longer candidate replaces it. -/
theorem BestMatch.next (h : BestMatch d p lo hi m) (hlo : lo ≤ hi) :
    BestMatch d p lo (hi + 1) (keepLonger m (candLen d p hi) (p - hi)) := by
  obtain ⟨hlongest, hnone, hearliest⟩ := h
  unfold keepLonger
  split
  · rename_i hlonger
    refine ⟨fun i hi₁ hi₂ => ?_, fun hzero => ?_, fun _ => ?_⟩
    · obtain hlt | rfl := Nat.lt_succ_iff_lt_or_eq.mp hi₂
      · exact Nat.le_of_lt (Nat.lt_of_le_of_lt (hlongest i hi₁ hlt) hlonger)
      · exact Nat.le_refl _
    · exact absurd hzero (Nat.ne_of_gt (Nat.zero_lt_of_lt hlonger))
    · exact ⟨hi, hlo, Nat.lt_succ_self hi, rfl, rfl,
        fun i hi₁ hi₂ => Nat.lt_of_le_of_lt (hlongest i hi₁ hi₂) hlonger⟩
  · rename_i hshorter
    refine ⟨fun i hi₁ hi₂ => ?_, hnone, fun hpos => ?_⟩
    · obtain hlt | rfl := Nat.lt_succ_iff_lt_or_eq.mp hi₂
      · exact hlongest i hi₁ hlt
      · exact Nat.le_of_not_lt hshorter
    · obtain ⟨i, hi₁, hi₂, hrest⟩ := hearliest hpos
      exact ⟨i, hi₁, Nat.lt_succ_of_lt hi₂, hrest⟩

/-- The scan of the last `offset` starts below `p` goes on from the best of those before them. -/
theorem bestMatch_scanWindow {offset : Nat} (hoffset : offset ≤ p) (hlo : lo ≤ p - offset)
    (h : BestMatch d p lo (p - offset) m) :
    BestMatch d p lo p (scanWindow (d.drop p) offset (d.drop (p - offset)) m) := by
  induction offset generalizing m with
  | zero => exact h
  | succ offset ih =>
    have hnext : p - (offset + 1) + 1 = p - offset := by omega
    have hback : p - (p - (offset + 1)) = offset + 1 := by omega
    have hbest := h.next hlo
    rw [hnext, hback] at hbest
    rw [scanWindow_succ, List.drop_drop, hnext]
    exact ih (by omega) (by omega) hbest

end

/-- The match finder's pair is the best of the whole window (R170, R172). -/
theorem bestMatch_findMatch (d : List Byte) (p : Nat) :
    BestMatch d p (p - lzssWindow) p (findMatch d p) := by
  have hstart : p - min p lzssWindow = p - lzssWindow := by omega
  rw [findMatch, ← hstart]
  exact bestMatch_scanWindow (Nat.min_le_left ..) (Nat.le_refl _) (.empty ..)

/-- Settles O7: the scan keeps the best pair of the starts it has passed. -/
theorem findMatchIsLongestEarliest : Obligations.FindMatchIsLongestEarliest := by
  intro d p
  obtain ⟨hlongest, hnone, hearliest⟩ := bestMatch_findMatch d p
  exact ⟨hlongest, hnone, hearliest⟩

/-! ### The token at a position (R173) -/

/-- The match found is long enough, and its offset fits the field of 12 bits (R173). -/
abbrev MatchFits (d : List Byte) (p : Nat) : Prop :=
  3 ≤ (findMatch d p).1 ∧ (findMatch d p).2 ≤ 4095

section
variable {d : List Byte} {p : Nat}

theorem findMatch_candidate (h : 0 < (findMatch d p).1) :
    ∃ i, i < p ∧ (findMatch d p).2 = p - i ∧ candLen d p i = (findMatch d p).1 := by
  obtain ⟨i, -, hi, hoffset, hlen, -⟩ := (bestMatch_findMatch d p).earliest h
  exact ⟨i, hi, hoffset, hlen⟩

/-- A match is at most 18 bytes long, so that its length always fits the field of 4 bits. -/
theorem findMatch_le_maxMatch (d : List Byte) (p : Nat) : (findMatch d p).1 ≤ maxMatch := by
  obtain hzero | hpos := Nat.eq_zero_or_pos (findMatch d p).1
  · exact hzero ▸ Nat.zero_le _
  · obtain ⟨i, -, -, hlen⟩ := findMatch_candidate hpos
    exact hlen ▸ candLen_le_maxMatch d p i

theorem tokenAt_of_not_matchFits (h : ¬MatchFits d p) : tokenAt d p = .lit (d.getD p 0) := by
  unfold tokenAt
  exact if_neg fun ⟨hlen, hoffset, _⟩ => h ⟨hlen, hoffset⟩

theorem tokenAt_of_matchFits (h : MatchFits d p) :
    ∃ offset lenField, tokenAt d p = .copy offset lenField ∧
      offset.toNat = (findMatch d p).2 ∧ lenField.toNat + 3 = (findMatch d p).1 := by
  obtain ⟨hlen, hoffset⟩ := h
  have hcap : (findMatch d p).1 ≤ 18 := findMatch_le_maxMatch d p
  have htoken : tokenAt d p = .copy (BitVec.ofNat 12 (findMatch d p).2)
      (BitVec.ofNat 4 ((findMatch d p).1 - 3)) := if_pos ⟨hlen, hoffset, by omega⟩
  refine ⟨_, _, htoken, ?_, ?_⟩
  · rw [BitVec.toNat_ofNat]
    omega
  · rw [BitVec.toNat_ofNat]
    omega

/-- The token at a position is the literal there, or a MATCH that points back at a candidate and has
its length. -/
theorem tokenAt_cases (d : List Byte) (p : Nat) :
    tokenAt d p = .lit (d.getD p 0) ∨
      ∃ offset lenField i, tokenAt d p = .copy offset lenField ∧ i < p ∧ offset.toNat = p - i ∧
        lenField.toNat + 3 = candLen d p i := by
  by_cases h : MatchFits d p
  · obtain ⟨offset, lenField, htoken, hoffset, hlen⟩ := tokenAt_of_matchFits h
    obtain ⟨i, hi, hback, hcand⟩ := findMatch_candidate (Nat.zero_lt_of_lt h.1)
    exact .inr ⟨offset, lenField, i, htoken, hi, hoffset.trans hback, hlen.trans hcand.symm⟩
  · exact .inl (tokenAt_of_not_matchFits h)

end

/-- Settles O8: a positive length comes with a candidate below `p`, which the offset points to. -/
theorem tokenIsMatchOrLiteralFallback : Obligations.TokenIsMatchOrLiteralFallback := by
  intro d p _
  refine ⟨fun h => ?_, tokenAt_of_not_matchFits⟩
  obtain ⟨offset, lenField, htoken, hoffset, hlen⟩ := tokenAt_of_matchFits h
  obtain ⟨i, hi, hback, -⟩ := findMatch_candidate (Nat.zero_lt_of_lt h.1)
  exact ⟨offset, lenField, htoken, hoffset, hlen, by omega, by omega⟩

end Sys2Proof.Proofs
end

section
/-! PROOFS. O9, O10 and O43: the decoder undoes the encoder token by token, and what the tokens take. -/
namespace Sys2Proof.Proofs
open Sys2Proof Sys2Proof.Machine Sys2Proof.Laws

/-! ### The copy of a MATCH (R179) -/

/-- A copy appends bytes, each equal to the one an offset before it. -/
theorem copyBytes_replicates {offset : Nat} (hpos : 1 ≤ offset) (n : Nat) (out : List Byte)
    (hout : offset ≤ out.length) :
    ∃ new, copyBytes offset n out = out ++ new ∧ new.length = n ∧
      ∀ j, j < n → (out ++ new).getD (out.length + j) 0 =
        (out ++ new).getD (out.length + j - offset) 0 := by
  induction n generalizing out with
  | zero => exact ⟨[], (List.append_nil out).symm, rfl, fun _ hj => by omega⟩
  | succ n ih =>
    obtain ⟨new, hcopy, hlength, hbytes⟩ :=
      ih (out ++ [out.getD (out.length - offset) 0]) (by simp; omega)
    rw [List.append_assoc, List.singleton_append] at hcopy hbytes
    refine ⟨_ :: new, hcopy, congrArg (· + 1) hlength, fun j hj => ?_⟩
    cases j with
    | zero =>
      have hback : out.length - offset < out.length := by omega
      rw [Nat.add_zero, List.getD_append _ _ _ _ hback,
        List.getD_append_right _ _ _ _ (Nat.le_refl _), Nat.sub_self]
      rfl
    | succ j =>
      have hnext := hbytes j (Nat.lt_of_succ_lt_succ hj)
      rwa [List.length_append, List.length_singleton, Nat.add_assoc, Nat.add_comm 1 j] at hnext

theorem take_append_getD {d : List Byte} {p : Nat} (hp : p < d.length) :
    d.take p ++ [d.getD p 0] = d.take (p + 1) := by
  rw [List.getD_eq_getElem _ _ hp, List.take_append_getElem hp]

/-- A copy goes on along an input whose bytes repeat at the offset. -/
theorem copyBytes_take {d : List Byte} {offset : Nat} (hpos : 1 ≤ offset) (n p : Nat)
    (hoffset : offset ≤ p) (hp : p + n ≤ d.length)
    (hrepeat : ∀ j, j < n → d.getD (p - offset + j) 0 = d.getD (p + j) 0) :
    copyBytes offset n (d.take p) = d.take (p + n) := by
  induction n generalizing p with
  | zero => rfl
  | succ n ih =>
    have hlength : (d.take p).length = p := by
      rw [List.length_take]
      omega
    have hbyte : (d.take p).getD (p - offset) 0 = d.getD p 0 := by
      rw [List.getD_eq_getElem?_getD, List.getElem?_take_of_lt (by omega),
        ← List.getD_eq_getElem?_getD]
      exact hrepeat 0 (Nat.succ_pos n)
    have hnext : p + 1 - offset = p - offset + 1 := by omega
    rw [copyBytes, hlength, hbyte, take_append_getD (by omega),
      ih (p + 1) (by omega) (by omega) fun j hj => ?_]
    · congr 1
      omega
    · rw [hnext, Nat.add_assoc, Nat.add_assoc, Nat.add_comm 1 j]
      exact hrepeat (j + 1) (by omega)

/-- A copy from inside the output passes the offset check (R179, R181). -/
theorem applyCopy_of_fits {offset : BitVec 12} {u : TokenUnit} (hpos : 1 ≤ offset.toNat)
    (hout : offset.toNat ≤ u.out.length) (lenField : BitVec 4) :
    applyCopy offset lenField u = .ok
      { u with
        rest := u.rest.drop 3
        q := u.q + 3
        out := copyBytes offset.toNat (lenField.toNat + 3) u.out } := by
  refine if_neg ?_
  rintro (rfl | hfar)
  · exact absurd hpos (by decide)
  · omega

/-- Settles O43: with the offset check passed, MATCH is the decoder's copy. -/
theorem matchReplicatesBytes : Obligations.MatchReplicatesBytes := by
  intro offset lenField s hne hout
  have hpos : 1 ≤ offset.toNat := Nat.pos_of_ne_zero fun h => hne (BitVec.eq_of_toNat_eq h)
  obtain ⟨new, hcopy, hlength, hbytes⟩ :=
    copyBytes_replicates hpos (lenField.toNat + 3) s.internals.tok.out hout
  have happly := applyCopy_of_fits hpos hout lenField
  rw [hcopy] at happly
  exact ⟨new, congrArg (fun r => Host.Outcome.next (afterToken r s)) happly, hlength,
    hlength ▸ hbytes⟩

/-! ### One token, encoded and decoded (R173, R174, R177) -/

section
variable {d : List Byte} {p : Nat}

/-- The tokens of the encoder have a meaning, so that they are read back (R95, R96). -/
theorem tokenSpelt_tokenAt (d : List Byte) (p : Nat) : TokenSpelt (tokenAt d p) := by
  obtain h | ⟨offset, lenField, i, h, -⟩ := tokenAt_cases d p <;> rw [h] <;> trivial

theorem add_span_tokenAt_le (hp : p < d.length) : p + Token.span (tokenAt d p) ≤ d.length := by
  obtain h | ⟨offset, lenField, i, h, -, -, hlen⟩ := tokenAt_cases d p <;> rw [h, Token.span]
  · exact hp
  · rw [hlen]
    exact add_candLen_le (Nat.le_of_lt hp) i

/-- Where the input up to `p` is decoded, the token at `p` decodes the bytes that it spans. -/
theorem applyToken_tokenAt (hp : p < d.length) (rest : List Byte) (q : Nat) (trunc : Bool) :
    applyToken (tokenAt d p) ⟨encodeToken (tokenAt d p) ++ rest, q, d.take p, trunc⟩ =
      .ok ⟨rest, q + (encodeToken (tokenAt d p)).length,
        d.take (p + Token.span (tokenAt d p)), trunc⟩ := by
  obtain h | ⟨offset, lenField, i, h, hi, hoffset, hlen⟩ := tokenAt_cases d p <;> rw [h]
  · exact congrArg (fun out => Except.ok (TokenUnit.mk rest (q + 2) out trunc))
      (take_append_getD hp)
  · have hback : p - offset.toNat = i := by omega
    have hcopy : copyBytes offset.toNat (lenField.toNat + 3) (d.take p) =
        d.take (p + (lenField.toNat + 3)) := by
      refine copyBytes_take (by omega) _ _ (by omega) ?_ fun j hj => ?_
      · exact hlen ▸ add_candLen_le (Nat.le_of_lt hp) i
      · rw [hback]
        exact getD_eq_of_lt_candLen (hlen ▸ hj)
    have hout : offset.toNat ≤ (d.take p).length := by
      rw [List.length_take]
      omega
    rw [applyToken, applyCopy_of_fits (by omega) hout, hcopy]
    rfl

theorem tokenLoop_of_empty {u : TokenUnit} (h : u.rest = []) (m : Nat) :
    tokenLoop m u = .ok (u.out, u.trunc) := by
  cases m with
  | zero => rfl
  | succ m => simp only [tokenLoop, h, parseToken]

theorem tokenLoop_succ_of_token {u v : TokenUnit} {t : Token} (hparse : parseToken u.rest = .ok t)
    (happly : applyToken t u = .ok v) (m : Nat) : tokenLoop (m + 1) u = tokenLoop m v := by
  simp only [tokenLoop, hparse, happly]

theorem encodeToken_length_pos (t : Token) : 0 < (encodeToken t).length := by
  cases t <;> exact Nat.succ_pos _

/-! ### The round trip (R185) -/

/-- Decoding the tokens from `p` on, with the input up to `p` decoded, gives all of the input: each
token adds the bytes that it spans. -/
theorem tokenLoop_tokensFrom (n : Nat) (hp : p ≤ d.length) (hn : d.length - p ≤ n) (m q : Nat)
    (trunc : Bool) (hm : ((tokensFrom d n p).flatMap encodeToken).length ≤ m) :
    tokenLoop m ⟨(tokensFrom d n p).flatMap encodeToken, q, d.take p, trunc⟩ =
      .ok (d, trunc) := by
  induction n generalizing p m q with
  | zero =>
    have hend : d.take p = d := List.take_of_length_le (by omega)
    rw [tokenLoop_of_empty rfl, hend]
  | succ n ih =>
    by_cases hlt : p < d.length
    · rw [tokensFrom, if_pos hlt, List.flatMap_cons] at hm ⊢
      have htoken := encodeToken_length_pos (tokenAt d p)
      have hspan := span_pos d p
      rw [List.length_append] at hm
      obtain ⟨m, rfl⟩ := Nat.exists_eq_succ_of_ne_zero (show m ≠ 0 by omega)
      rw [tokenLoop_succ_of_token (parseToken_encodeToken (tokenSpelt_tokenAt d p) _)
        (applyToken_tokenAt hlt _ q trunc)]
      exact ih (add_span_tokenAt_le hlt) (by omega) m _ (by omega)
    · have hend : d.take p = d := List.take_of_length_le (by omega)
      rw [tokensFrom, if_neg hlt, tokenLoop_of_empty rfl, hend]

end

/-- Settles O9: the decoder follows the encoder from position 0, where nothing is decoded yet. -/
theorem lzssRoundTrip : Obligations.LzssRoundTrip := by
  intro x
  exact tokenLoop_tokensFrom x.length (Nat.zero_le _) (Nat.le_refl _) _ 0 false (Nat.le_refl _)

/-! ### The length of the token stream (R185) -/

/-- The tokens from `p` on span the rest of the input. -/
theorem sum_span_tokensFrom {d : List Byte} {p : Nat} (n : Nat) (hp : p ≤ d.length)
    (hn : d.length - p ≤ n) : ((tokensFrom d n p).map Token.span).sum = d.length - p := by
  induction n generalizing p with
  | zero => exact (Nat.eq_zero_of_le_zero hn).symm
  | succ n ih =>
    by_cases hlt : p < d.length
    · have hspan := span_pos d p
      have hnext := add_span_tokenAt_le hlt
      rw [tokensFrom, if_pos hlt, List.map_cons, List.sum_cons, ih hnext (by omega)]
      omega
    · rw [tokensFrom, if_neg hlt]
      exact (Nat.sub_eq_zero_of_le (Nat.le_of_not_lt hlt)).symm

/-- A literal takes twice the byte that it spans, any other token less than twice its span. -/
theorem length_encodeToken (t : Token) :
    (∃ b, t = .lit b) ∧ (encodeToken t).length = 2 * Token.span t ∨
      (¬∃ b, t = .lit b) ∧ (encodeToken t).length < 2 * Token.span t := by
  cases t with
  | lit b => exact .inl ⟨⟨b, rfl⟩, rfl⟩
  | copy offset lenField =>
    refine .inr ⟨by simp, ?_⟩
    have hlength : (encodeToken (.copy offset lenField)).length = 3 := rfl
    rw [hlength, Token.span]
    omega
  | reserved tag => exact .inr ⟨by simp, Nat.one_lt_two⟩

/-- Tokens take at most twice what they span, and exactly twice when all are literals. -/
theorem length_flatMap_encodeToken (ts : List Token) :
    (ts.flatMap encodeToken).length ≤ 2 * (ts.map Token.span).sum ∧
      ((ts.flatMap encodeToken).length = 2 * (ts.map Token.span).sum ↔
        ∀ t ∈ ts, ∃ b, t = .lit b) := by
  induction ts with
  | nil => simp
  | cons t ts ih =>
    obtain ⟨hle, hiff⟩ := ih
    rw [List.flatMap_cons, List.length_append, List.map_cons, List.sum_cons, List.forall_mem_cons,
      ← hiff]
    obtain ⟨hlit, hlength⟩ | ⟨hlit, hlength⟩ := length_encodeToken t
    · simp only [hlit, true_and]
      omega
    · simp only [hlit, false_and, iff_false]
      omega

/-- Settles O10: the tokens of the compression span the input. -/
theorem lzssOutputAtMostDouble : Obligations.LzssOutputAtMostDouble := by
  intro x
  have hspan : ((tokensFrom x x.length 0).map Token.span).sum = x.length :=
    sum_span_tokensFrom x.length (Nat.zero_le _) (Nat.le_refl _)
  have hbound := length_flatMap_encodeToken (tokensFrom x x.length 0)
  rwa [hspan] at hbound

end Sys2Proof.Proofs
end

section
/-! PROOFS. O41, O21, O42 and O45: compression and decompression as commands, the end of the token loop, LIT and the reserved tags. -/
namespace Sys2Proof.Proofs
open Sys2Proof Sys2Proof.Machine Sys2Proof.Laws

/-! ### LZSS_DECOMPRESS after LZSS_COMPRESS (R183, R184, R185) -/

/-- What LMEM holds is what MemRead reads there (R62). -/
theorem memRead_of_lmemHolds {s t : State} {addr : Nat} {bytes : List Byte}
    (h : lmemHolds s t addr bytes) : memRead t ⟨addr, bytes.length⟩ = bytes := by
  refine List.ext_getElem (memRead_length ..) fun k _ hk => ?_
  have hin : addr ≤ addr + k ∧ addr + k < addr + bytes.length := by omega
  have hread : (memRead t ⟨addr, bytes.length⟩)[k] = lmemByte t (addr + k) := by simp [memRead]
  rw [hread, h, if_pos hin, Nat.add_sub_cancel_left, List.getD_eq_getElem _ _ hk]

/-- A success of LZSS_COMPRESS had room for the whole token stream (R138, R183). -/
theorem length_le_dstCap_of_lzssCompress {s t : State} (hfit : srcDstFit s)
    (hexec : exec .lzssCompress s = .next t) (herr : t.regs.err = 0) :
    (lzssCompress (srcBytes s)).length ≤ s.regs.dstCap.toNat := by
  by_contra hlarge
  obtain ⟨t', hexec', -, hregs, -⟩ := failsLate_of_deliver (op := 0x1)
    (cmdLzssCompress_of_fit hfit) (Nat.lt_of_not_le hlarge)
  obtain rfl : t = t' := Host.Outcome.next.inj (hexec.symm.trans hexec')
  rw [hregs] at herr
  exact absurd herr (by simp [failedRegs])

/-- Settles O41: what the first command left at DST is the compression, which the second undoes. -/
theorem compressedThenDecompressedReproducesSource :
    Obligations.CompressedThenDecompressedReproducesSource := by
  intro s t dst cap hfit hexec herr t' hfit' hcap
  have hroom := length_le_dstCap_of_lzssCompress hfit hexec herr
  obtain ⟨u, hexec', -, hregs, hholds, -⟩ := lzssCompressCompletes s hfit hroom
  obtain rfl : t = u := Host.Outcome.next.inj (hexec.symm.trans hexec')
  have hlength : (srcBytes s).length = s.regs.srcLen.toNat := memRead_length s (srcRegion s.regs)
  have hregion : srcRegion t'.regs =
      ⟨s.regs.dstAddr.toNat, (lzssCompress (srcBytes s)).length⟩ := by
    have hword : (lzssCompress (srcBytes s)).length < 2 ^ 32 :=
      Nat.lt_of_le_of_lt hroom s.regs.dstCap.isLt
    simpa [t', srcRegion, hregs, doneRegs] using hword
  have hsrc : srcBytes t' = lzssCompress (srcBytes s) := by
    rw [srcBytes, hregion]
    exact memRead_of_lmemHolds hholds
  have hout : lzssDecompress (srcBytes t') = .ok (srcBytes s, false) := by
    rw [hsrc]
    exact lzssRoundTrip (srcBytes s)
  have hdone := lzssDecompressCompletes t' (srcBytes s) false hfit' hout (hlength ▸ hcap)
  rwa [hlength] at hdone

/-! ### The end of the token loop (R177, R182, R184) -/

/-- Where no token is left, or the last is cut short, the token loop ends. -/
theorem fetch_tokensEnd {s : State} {trunc : Bool} (hseq : s.seq = .tokens)
    (h : s.internals.tok.rest = [] ∧ trunc = s.internals.tok.trunc ∨
      s.internals.tok.rest = [0x00] ∧ trunc = true ∨
      (∃ more, s.internals.tok.rest = 0x01 :: more ∧ more.length < 2) ∧ trunc = true) :
    fetch s = .tokensEnd trunc := by
  obtain ⟨hrest, rfl⟩ | ⟨hrest, rfl⟩ | ⟨⟨more, hrest, hshort⟩, rfl⟩ := h
  · simp only [fetch, hseq, hrest, decodeToken, parseToken]
  · have hparse : parseToken [0x00] = .error .tokenCutShort := rfl
    simp only [fetch, hseq, hrest, decodeToken, hparse]
  · have hparse : parseToken (0x01 :: more) = .error .tokenCutShort := by
      match more, hshort with
      | [], _ => rfl
      | [_], _ => rfl
    simp only [fetch, hseq, hrest, decodeToken, hparse]

theorem step_of_tokensEnd {s : State} {trunc : Bool} (hbusy : s.regs.busy = true)
    (hturns : s.turns = []) (h : fetch s = .tokensEnd trunc) :
    step s = .next (complete s.regs.op (finishTokens s trunc) s) := by
  simp [step, runStep, hbusy, hturns, engineStep, h]

/-- Settles O21: the step ends the loop, and the rest of the command delivers the output. -/
theorem tokenStreamEndCompletesDecompression :
    Obligations.TokenStreamEndCompletesDecompression := by
  intro s trunc hbusy hturns hseq hop hdst hout hend
  have hfinish : finishTokens s trunc =
      .ok { primary := s.internals.tok.out, trunc := trunc } := by
    simp only [finishTokens, hop, finishLzssDecompress, capacityCheck_of_le hout]
    rfl
  have hstep := step_of_tokensEnd hbusy hturns (fetch_tokensEnd hseq hend)
  rw [hfinish] at hstep
  exact ⟨_, hstep, complete_seq .., rfl,
    complete_ok_lmemHolds _ s _ rfl (Nat.le_trans (Nat.add_le_add_left hout _) hdst),
    complete_hostSideSame ..⟩

/-! ### LIT and the reserved tags (R178, R180) -/

/-- Settles O42: LIT is one pass of the decoder's loop with a literal, which has no error. -/
theorem litAppendsItsByte : Obligations.LitAppendsItsByte := by
  intro b s
  exact exec_token (.lit b) s

/-- Every reserved tag is the decoder's error at the tag's index, which ends the running command. -/
theorem failsLate_reservedInstr (tag : Byte) (s : State) :
    failsLate (reservedInstr tag) s 0x06 s.internals.tok.q (runningOutputs s.regs) :=
  failsLate_of_running (exec_token (.reserved tag) s)

/-- Settles O45: each row is that of a tag, and the decoder's error does not depend on the tag. -/
theorem reservedTagsEndDecoding : Obligations.ReservedTagsEndDecoding := by
  intro tag more s htag
  obtain ⟨h02, h04, h08, h10, h20, h40, h80⟩ := reservedInstr_one_append
  refine ⟨decodeToken_eq_ok.mpr ⟨.reserved tag, parseToken_reserved htag more, rfl⟩,
    failsLate_reservedInstr tag s, fun i hi => ?_⟩
  obtain ⟨tag', rfl⟩ : ∃ tag', i = reservedInstr tag' := by
    obtain rfl | rfl | rfl | rfl | rfl | rfl | rfl := hi
    exacts [⟨_, (h02 _).symm⟩, ⟨_, (h04 _).symm⟩, ⟨_, (h08 _).symm⟩, ⟨_, (h10 _).symm⟩,
      ⟨_, (h20 _).symm⟩, ⟨_, (h40 _).symm⟩, ⟨_, (h80 _).symm⟩]
  exact failsLate_reservedInstr tag' s

end Sys2Proof.Proofs
end

section
/-! PROOFS. O11: the code table of every input is a complete code of the values present, in which no code begins another. -/
namespace Sys2Proof.Proofs
open Sys2Proof Sys2Proof.Machine Sys2Proof.Laws

/-! ### What a code table is (R205) -/

/-- No code begins another one (R205). -/
def PrefixFree (codes : CodeTable) : Prop :=
  ∀ e ∈ codes, ∀ e' ∈ codes, e.2 <+: e'.2 → e = e'

/-- The sum `Σ 2^(-len)` over the codes (R205). -/
def kraftSum (codes : CodeTable) : ℚ := (codes.map fun e => (1 / 2 : ℚ) ^ e.2.length).sum

/-- The code properties of R205. A single code has one bit, several have fewer bits than codes. -/
structure CompleteCode (codes : CodeTable) : Prop where
  nonempty : ∀ e ∈ codes, 1 ≤ e.2.length
  short : ∀ e ∈ codes, e.2.length ≤ max 1 (codes.length - 1)
  prefixFree : PrefixFree codes
  complete : 2 ≤ codes.length → kraftSum codes = 1

/-- The code properties do not depend on the order of the entries. -/
theorem CompleteCode.perm {codes codes' : CodeTable} (h : CompleteCode codes)
    (hperm : codes'.Perm codes) : CompleteCode codes' where
  nonempty e he := h.nonempty e (hperm.mem_iff.mp he)
  short e he := hperm.length_eq ▸ h.short e (hperm.mem_iff.mp he)
  prefixFree e he e' he' := h.prefixFree e (hperm.mem_iff.mp he) e' (hperm.mem_iff.mp he')
  complete hlen := by
    rw [kraftSum, (hperm.map _).sum_eq]
    exact h.complete (hperm.length_eq ▸ hlen)

/-! ### The codes of a tree (R204) -/

/-- The byte values at the leaves of a tree, from left to right. -/
def treeValues : HuffTree → List Byte
  | .leaf v => [v]
  | .node l r => treeValues l ++ treeValues r

theorem treeValues_length_pos (t : HuffTree) : 0 < (treeValues t).length := by
  induction t with
  | leaf v => exact Nat.one_pos
  | node l r ihl _ =>
    rw [treeValues, List.length_append]
    exact Nat.add_pos_left ihl _

@[simp] theorem length_pushBit (path : Bits) (b : Bool) :
    (pushBit path b).length = path.length + 1 := by
  simp [pushBit]

@[simp] theorem map_fst_treeCodes (t : HuffTree) (path : Bits) :
    (treeCodes t path).map Prod.fst = treeValues t := by
  induction t generalizing path with
  | leaf v => rfl
  | node l r ihl ihr => rw [treeCodes, List.map_append, ihl, ihr, treeValues]

@[simp] theorem length_treeCodes (t : HuffTree) (path : Bits) :
    (treeCodes t path).length = (treeValues t).length := by
  rw [← map_fst_treeCodes t path, List.length_map]

theorem mem_treeCodes_node {l r : HuffTree} {path : Bits} {e : Byte × Bits} :
    e ∈ treeCodes (.node l r) path ↔
      e ∈ treeCodes l (pushBit path false) ∨ e ∈ treeCodes r (pushBit path true) :=
  List.mem_append

/-- The code of a leaf begins with the path to the tree it stands in. -/
theorem path_prefix_of_mem_treeCodes {t : HuffTree} {path : Bits} {e : Byte × Bits}
    (he : e ∈ treeCodes t path) : path <+: e.2 := by
  induction t generalizing path with
  | leaf v =>
    obtain rfl := List.mem_singleton.mp he
    exact List.prefix_rfl
  | node l r ihl ihr =>
    obtain hl | hr := mem_treeCodes_node.mp he
    · exact (List.prefix_append path _).trans (ihl hl)
    · exact (List.prefix_append path _).trans (ihr hr)

/-- A leaf is less deep in its tree than the tree has leaves. -/
theorem length_lt_of_mem_treeCodes {t : HuffTree} {path : Bits} {e : Byte × Bits}
    (he : e ∈ treeCodes t path) : e.2.length < path.length + (treeValues t).length := by
  induction t generalizing path with
  | leaf v =>
    obtain rfl := List.mem_singleton.mp he
    exact Nat.lt_succ_self _
  | node l r ihl ihr =>
    have hl := treeValues_length_pos l
    have hr := treeValues_length_pos r
    rw [treeValues, List.length_append]
    obtain he | he := mem_treeCodes_node.mp he
    · have := ihl he
      rw [length_pushBit] at this
      omega
    · have := ihr he
      rw [length_pushBit] at this
      omega

/-- Two bit strings that part after `path` have no common continuation. -/
theorem not_prefix_of_pushBit {path code code' : Bits} {b b' : Bool} (hb : b ≠ b')
    (h : pushBit path b <+: code) (h' : pushBit path b' <+: code') : ¬code <+: code' := by
  intro hcode
  have hsame : pushBit path b <+: pushBit path b' :=
    List.prefix_of_prefix_length_le (h.trans hcode) h' (by simp)
  have heq : [b] = [b'] :=
    List.append_cancel_left (hsame.eq_of_length (by simp))
  exact hb (List.head_eq_of_cons_eq heq)

theorem prefixFree_treeCodes (t : HuffTree) (path : Bits) : PrefixFree (treeCodes t path) := by
  induction t generalizing path with
  | leaf v =>
    intro e he e' he' _
    rw [List.mem_singleton.mp he, List.mem_singleton.mp he']
  | node l r ihl ihr =>
    intro e he e' he' hprefix
    obtain he | he := mem_treeCodes_node.mp he <;> obtain he' | he' := mem_treeCodes_node.mp he'
    · exact ihl _ e he e' he' hprefix
    · exact absurd hprefix (not_prefix_of_pushBit Bool.false_ne_true
        (path_prefix_of_mem_treeCodes he) (path_prefix_of_mem_treeCodes he'))
    · exact absurd hprefix (not_prefix_of_pushBit Bool.false_ne_true.symm
        (path_prefix_of_mem_treeCodes he) (path_prefix_of_mem_treeCodes he'))
    · exact ihr _ e he e' he' hprefix

/-- The leaves under a path share its part of the sum, each branching one half to each side. -/
theorem kraftSum_treeCodes (t : HuffTree) (path : Bits) :
    kraftSum (treeCodes t path) = (1 / 2) ^ path.length := by
  induction t generalizing path with
  | leaf v => simp [kraftSum, treeCodes]
  | node l r ihl ihr =>
    have hsplit : kraftSum (treeCodes (.node l r) path) =
        kraftSum (treeCodes l (pushBit path false)) +
          kraftSum (treeCodes r (pushBit path true)) := by
      simp [kraftSum, treeCodes]
    rw [hsplit, ihl, ihr, length_pushBit, length_pushBit, pow_succ]
    ring

/-! ### The codes of the root (R202, R204) -/

/-- The codes of a whole tree; a leaf alone has the code "0" (R202). -/
def rootCodes : HuffTree → CodeTable
  | .leaf v => [(v, [false])]
  | .node l r => treeCodes (.node l r) []

theorem map_fst_rootCodes (t : HuffTree) : (rootCodes t).map Prod.fst = treeValues t := by
  cases t with
  | leaf v => rfl
  | node l r => exact map_fst_treeCodes ..

theorem completeCode_nil : CompleteCode [] where
  nonempty := by simp
  short := by simp
  prefixFree := by simp [PrefixFree]
  complete := by simp

theorem completeCode_rootCodes (t : HuffTree) : CompleteCode (rootCodes t) := by
  cases t with
  | leaf v =>
    refine ⟨?_, ?_, prefixFree_treeCodes (.leaf v) [false], ?_⟩ <;> simp [rootCodes]
  | node l r =>
    refine ⟨fun e he => ?_, fun e he => ?_, prefixFree_treeCodes _ _, fun _ => ?_⟩
    · obtain he | he := mem_treeCodes_node.mp he
      · exact (path_prefix_of_mem_treeCodes he).length_le
      · exact (path_prefix_of_mem_treeCodes he).length_le
    · have hlt := length_lt_of_mem_treeCodes he
      rw [List.length_nil, Nat.zero_add] at hlt
      rw [rootCodes, length_treeCodes]
      omega
    · rw [rootCodes, kraftSum_treeCodes, List.length_nil, pow_zero]

/-! ### The codes in ascending byte value (R204, R207) -/

@[simp] theorem mem_byteValues (v : Byte) : v ∈ byteValues :=
  List.mem_map.mpr ⟨v.toNat, List.mem_range.mpr v.isLt, by simp⟩

theorem byteValues_ascending : byteValues.Pairwise fun a b => a.toNat < b.toNat := by
  rw [byteValues, List.pairwise_map]
  refine List.pairwise_lt_range.imp_of_mem fun {a b} ha hb hlt => ?_
  rw [List.mem_range] at ha hb
  rwa [BitVec.toNat_ofNat, BitVec.toNat_ofNat, Nat.mod_eq_of_lt ha, Nat.mod_eq_of_lt hb]

theorem mem_of_lookup_eq_some {codes : CodeTable} {v : Byte} {c : Bits}
    (h : codes.lookup v = some c) : (v, c) ∈ codes := by
  obtain ⟨before, after, rfl, -⟩ := List.lookup_eq_some_iff.mp h
  simp

/-- A value of the table is found by looking it up. -/
theorem exists_lookup_of_mem {codes : CodeTable} {v : Byte} (hv : v ∈ codes.map Prod.fst) :
    ∃ c, codes.lookup v = some c ∧ (v, c) ∈ codes := by
  obtain ⟨e, he, rfl⟩ := List.mem_map.mp hv
  have hsome : (codes.lookup e.1).isSome := List.lookup_isSome_iff.mpr ⟨e, he, by simp⟩
  obtain ⟨c, hc⟩ := Option.isSome_iff_exists.mp hsome
  exact ⟨c, hc, mem_of_lookup_eq_some hc⟩

/-- With distinct values, looking up a value finds its only entry. -/
theorem lookup_eq_some_iff_mem {codes : CodeTable} (hnodup : (codes.map Prod.fst).Nodup)
    {v : Byte} {c : Bits} : codes.lookup v = some c ↔ (v, c) ∈ codes := by
  refine ⟨mem_of_lookup_eq_some, fun hmem => ?_⟩
  obtain ⟨c', hc', hmem'⟩ := exists_lookup_of_mem (List.mem_map_of_mem hmem)
  have heq := List.inj_on_of_nodup_map hnodup hmem' hmem rfl
  rw [hc', (Prod.mk.inj heq).2]

theorem map_fst_sortCodes (codes : CodeTable) :
    (sortCodes codes).map Prod.fst = byteValues.filter fun v => (codes.lookup v).isSome := by
  rw [sortCodes, List.map_filterMap, ← List.filterMap_eq_filter]
  refine List.filterMap_congr fun v _ => ?_
  cases h : codes.lookup v <;> simp [Option.guard, h]

theorem sortCodes_ascending (codes : CodeTable) :
    ((sortCodes codes).map Prod.fst).Pairwise fun a b => a.toNat < b.toNat := by
  rw [map_fst_sortCodes]
  exact byteValues_ascending.filter _

theorem sortCodes_perm {codes : CodeTable} (hnodup : (codes.map Prod.fst).Nodup) :
    (sortCodes codes).Perm codes := by
  have hsorted : ((sortCodes codes).map Prod.fst).Nodup := by
    rw [map_fst_sortCodes]
    exact byteValues_nodup.filter _
  refine (List.perm_ext_iff_of_nodup hsorted.of_map hnodup.of_map).mpr fun e => ?_
  obtain ⟨v, c⟩ := e
  simp [sortCodes, lookup_eq_some_iff_mem hnodup]

/-- A root alone in the queue gives its codes in ascending byte value, a leaf being sorted. -/
theorem codesOf_singleton {root : HuffNode} (hnodup : (treeValues root.tree).Nodup) :
    codesOf [root] = sortCodes (rootCodes root.tree) := by
  obtain ⟨weight, seq, tree⟩ := root
  cases tree with
  | leaf v =>
    have hperm : (sortCodes [(v, [false])]).Perm [(v, [false])] := sortCodes_perm hnodup
    exact (List.perm_singleton.mp hperm).symm
  | node l r => rfl

/-! ### Merging (R203) -/

/-- The byte values at the leaves under a queue. -/
def queueValues (q : List HuffNode) : List Byte := q.flatMap fun x => treeValues x.tree

theorem enqueue_perm (x : HuffNode) (q : List HuffNode) : (enqueue x q).Perm (x :: q) := by
  induction q with
  | nil => exact .refl _
  | cons y ys ih =>
    rw [enqueue]
    split
    · exact .refl _
    · exact (ih.cons y).trans (.swap x y ys)

theorem foldr_enqueue_perm (q : List HuffNode) : (q.foldr enqueue []).Perm q := by
  induction q with
  | nil => exact .refl _
  | cons x q ih => exact (enqueue_perm x _).trans (ih.cons x)

theorem queueValues_perm {q q' : List HuffNode} (h : q.Perm q') :
    (queueValues q).Perm (queueValues q') :=
  h.flatMap_right _

/-- Merging keeps the leaves. -/
theorem queueValues_mergeLoop (n seq : Nat) (q : List HuffNode) :
    (queueValues (mergeLoop n seq q)).Perm (queueValues q) := by
  fun_induction mergeLoop n seq q with
  | case1 n seq a b q ih =>
    refine (ih.trans (queueValues_perm (enqueue_perm _ q))).trans (.of_eq ?_)
    simp [queueValues, treeValues]
  | case2 => exact .refl _

/-- With as many merges as nodes, one root is left of a queue that is not empty. -/
theorem length_mergeLoop (n seq : Nat) (q : List HuffNode) (hn : q.length ≤ n + 1) :
    (mergeLoop n seq q).length = min 1 q.length := by
  fun_induction mergeLoop n seq q with
  | case1 n seq a b q ih =>
    simp only [List.length_cons, enqueue_length] at hn ih ⊢
    rw [ih (by omega)]
    omega
  | case2 n seq q hstop =>
    match n, q with
    | 0, _ => omega
    | _ + 1, [] => rfl
    | _ + 1, [_] => rfl
    | n + 1, a :: b :: q => exact absurd rfl (hstop n a b q rfl)

theorem queueValues_buildTree (leaves : List HuffNode) :
    (queueValues (buildTree leaves)).Perm (queueValues leaves) :=
  (queueValues_mergeLoop ..).trans (queueValues_perm (foldr_enqueue_perm leaves))

theorem length_buildTree (leaves : List HuffNode) :
    (buildTree leaves).length = min 1 leaves.length := by
  rw [buildTree, length_mergeLoop _ _ _ (by simp [foldr_enqueue_length]), foldr_enqueue_length]

/-! ### The code table of an input (R200 to R205) -/

theorem queueValues_leavesOf (count : Byte → Nat) :
    queueValues (leavesOf count) = byteValues.filter fun v => 0 < count v := by
  rw [queueValues, leavesOf, List.flatMap_map]
  exact (List.map_eq_flatMap ..).symm.trans (List.zipIdx_map_fst 0 _)

/-- The table is the sorted list of a complete code's entries, one for each value present. -/
theorem codeTable_eq_sortCodes (x : List Byte) :
    ∃ codes, codeTable x = sortCodes codes ∧ CompleteCode codes ∧
      (codes.map Prod.fst).Perm (byteValues.filter fun v => 0 < freqOf x v) := by
  have hvalues := queueValues_buildTree (leavesOf (freqOf x))
  rw [queueValues_leavesOf] at hvalues
  have hlength := length_buildTree (leavesOf (freqOf x))
  rw [codeTable]
  generalize buildTree (leavesOf (freqOf x)) = q at hvalues hlength
  match q, hvalues, hlength with
  | [], hvalues, _ =>
    exact ⟨[], (List.perm_nil.mp (sortCodes_perm .nil)).symm, completeCode_nil, hvalues⟩
  | [root], hvalues, _ =>
    have hroot : (treeValues root.tree).Perm (byteValues.filter fun v => 0 < freqOf x v) := by
      simpa [queueValues] using hvalues
    have hnodup := hroot.nodup_iff.mpr (byteValues_nodup.filter _)
    exact ⟨_, codesOf_singleton hnodup, completeCode_rootCodes root.tree,
      map_fst_rootCodes root.tree ▸ hroot⟩
  | _ :: _ :: _, _, hlength =>
    rw [List.length_cons, List.length_cons] at hlength
    omega

theorem codeTable_ascending (x : List Byte) :
    ((codeTable x).map Prod.fst).Pairwise fun a b => a.toNat < b.toNat := by
  obtain ⟨codes, heq, -, -⟩ := codeTable_eq_sortCodes x
  rw [heq]
  exact sortCodes_ascending codes

/-- The table holds the entries of a complete code, one for each value present. -/
theorem codeTable_completeCode (x : List Byte) : CompleteCode (codeTable x) ∧
    ((codeTable x).map Prod.fst).Perm (byteValues.filter fun v => 0 < freqOf x v) := by
  obtain ⟨codes, heq, hcodes, hvalues⟩ := codeTable_eq_sortCodes x
  have hperm : (codeTable x).Perm codes :=
    heq ▸ sortCodes_perm (hvalues.nodup_iff.mpr (byteValues_nodup.filter _))
  exact ⟨hcodes.perm hperm, (hperm.map _).trans hvalues⟩

theorem mem_map_fst_codeTable {x : List Byte} {v : Byte} :
    v ∈ (codeTable x).map Prod.fst ↔ v ∈ x := by
  rw [(codeTable_completeCode x).2.mem_iff, List.mem_filter, decide_eq_true_eq, freqOf,
    List.count_pos_iff]
  exact and_iff_right (mem_byteValues v)

theorem length_codeTable_le (x : List Byte) : (codeTable x).length ≤ 256 := by
  have hvalues := (codeTable_completeCode x).2.length_eq
  rw [List.length_map] at hvalues
  rw [hvalues]
  exact (List.length_filter_le ..).trans_eq (by simp [byteValues])

/-- Every code fits the 8-bit length field of its entry (R101, R205). -/
theorem length_code_le {x : List Byte} {e : Byte × Bits} (he : e ∈ codeTable x) :
    e.2.length ≤ 255 := by
  have hshort := (codeTable_completeCode x).1.short e he
  have hcount := length_codeTable_le x
  omega

/-- Settles O11: the table is sorted, and its entries are those of a complete code. -/
theorem huffmanTableCodesArePrefixFree : Obligations.HuffmanTableCodesArePrefixFree := by
  intro x
  obtain ⟨hnonempty, hshort, hfree, hcomplete⟩ := (codeTable_completeCode x).1
  refine ⟨fun v => mem_map_fst_codeTable, codeTable_ascending x, fun e he => ?_, hfree, hcomplete⟩
  refine ⟨hnonempty e he, length_code_le he, fun htwo => (hshort e he).trans_eq ?_⟩
  exact max_eq_right (Nat.le_sub_of_add_le htwo)

end Sys2Proof.Proofs
end

section
/-! PROOFS. O12: the table read back from its bytes decodes the bits of the input that it was made from. -/
namespace Sys2Proof.Proofs
open Sys2Proof Sys2Proof.Machine

/-! ### The serialized table read back (R207, R208) -/

/-- The entry of a decoded table for an entry of a code table (R208). -/
def entryOf (e : Byte × Bits) : Entry := ⟨e.1, BitVec.ofNat 8 e.2.length, e.2⟩

theorem toNat_lengthByte {code : Bits} (h : code.length ≤ 255) :
    (BitVec.ofNat 8 code.length).toNat = code.length := by
  rw [BitVec.toNat_ofNat]
  exact Nat.mod_eq_of_lt (Nat.lt_succ_of_le h)

theorem tableEntries_flatMap_entryBytes {ct : CodeTable} (hlen : ∀ e ∈ ct, e.2.length ≤ 255)
    (q : Nat) : tableEntries ct.length q (ct.flatMap entryBytes) = .ok (ct.map entryOf) := by
  induction ct generalizing q with
  | nil => rfl
  | cons e ct ih =>
    obtain ⟨he, hct⟩ := List.forall_mem_cons.mp hlen
    have hpacked : (packBits e.2).length = ceil8 (BitVec.ofNat 8 e.2.length).toNat := by
      rw [length_packBits, toNat_lengthByte he]
    have hbytes : (e :: ct).flatMap entryBytes =
        e.1 :: BitVec.ofNat 8 e.2.length :: (packBits e.2 ++ ct.flatMap entryBytes) := rfl
    have hroom : ¬(packBits e.2 ++ ct.flatMap entryBytes).length <
        ceil8 (BitVec.ofNat 8 e.2.length).toNat := by
      rw [List.length_append, hpacked]
      omega
    rw [hbytes, List.length_cons, tableEntries, if_neg hroom, List.drop_left' hpacked,
      List.take_left' hpacked, ih hct]
    simp only [toNat_lengthByte he, unpackBits_packBits, List.map_cons, entryOf]

theorem u16At_be16_append (v : BitVec 16) (rest : List Byte) : u16At (be16 v ++ rest) 0 = v :=
  BitVec.extractLsb'_append_extractLsb'

/-- A table of at most 256 codes of at most 255 bits is read back entry by entry. -/
theorem deserializeTable_serializeTable {ct : CodeTable} (hcount : ct.length ≤ 256)
    (hlen : ∀ e ∈ ct, e.2.length ≤ 255) :
    deserializeTable (serializeTable ct) = .ok (ct.map entryOf) := by
  have hword : (BitVec.ofNat 16 ct.length).toNat = ct.length := by
    rw [BitVec.toNat_ofNat]
    exact Nat.mod_eq_of_lt (by omega)
  have hlong : ¬(serializeTable ct).length < 2 := by
    simp [serializeTable, be16]
  have hdrop : (serializeTable ct).drop 2 = ct.flatMap entryBytes := rfl
  rw [deserializeTable, if_neg hlong, hdrop, serializeTable, u16At_be16_append, hword,
    if_neg (Nat.not_lt.mpr hcount), tableEntries_flatMap_entryBytes hlen]

/-! ### Decoding where no code begins another (R209) -/

/-- A value of the table stands there with its code. -/
theorem mem_codeOf {ct : CodeTable} {v : Byte} (hv : v ∈ ct.map Prod.fst) :
    (v, codeOf ct v) ∈ ct := by
  obtain ⟨code, hlookup, hmem⟩ := exists_lookup_of_mem hv
  rwa [codeOf, hlookup]

/-- A match is an entry with the candidate as its code. -/
theorem matchEntry_eq_some {ct : CodeTable} {cand : Bits} {entry : Entry}
    (h : matchEntry (ct.map entryOf) cand = some entry) :
    ∃ e ∈ ct, entryOf e = entry ∧ e.2 = cand := by
  have hmem := List.mem_of_find?_eq_some h
  have hmatch := List.find?_some h
  obtain ⟨e, he, rfl⟩ := List.mem_map.mp hmem
  exact ⟨e, he, rfl, eq_of_beq (Bool.and_eq_true_iff.mp hmatch).2⟩

section
variable {ct : CodeTable} (hfree : PrefixFree ct) (hlen : ∀ e ∈ ct, e.2.length ≤ 255)
include hfree

/-- A candidate that is only a part of a code matches nothing. -/
theorem matchEntry_of_proper_prefix {e : Byte × Bits} (he : e ∈ ct) {cand : Bits}
    (hprefix : cand <+: e.2) (hshort : cand.length < e.2.length) :
    matchEntry (ct.map entryOf) cand = none := by
  by_contra hsome
  obtain ⟨entry, hentry⟩ := Option.ne_none_iff_exists'.mp hsome
  obtain ⟨e', he', -, rfl⟩ := matchEntry_eq_some hentry
  obtain rfl := hfree e' he' e he hprefix
  exact Nat.lt_irrefl _ hshort

include hlen

/-- A candidate that is a code matches its entry. -/
theorem matchEntry_of_mem {e : Byte × Bits} (he : e ∈ ct) :
    matchEntry (ct.map entryOf) e.2 = some (entryOf e) := by
  have hsome : (matchEntry (ct.map entryOf) e.2).isSome := by
    refine List.find?_isSome.mpr ⟨entryOf e, List.mem_map_of_mem he, ?_⟩
    simp [entryOf, toNat_lengthByte (hlen e he)]
  obtain ⟨entry, hentry⟩ := Option.isSome_iff_exists.mp hsome
  obtain ⟨e', he', rfl, hcode⟩ := matchEntry_eq_some hentry
  obtain rfl := hfree e' he' e he (hcode ▸ List.prefix_rfl)
  exact hentry

/-- With `cand` of a code consumed, the rest of it completes the code and emits its value. -/
theorem decodeBits_code_append {e : Byte × Bits} (he : e ∈ ct) (bits : Bits) (out : List Byte)
    {cand suffix : Bits} (hcode : cand ++ suffix = e.2) (hne : suffix ≠ []) :
    decodeBits (ct.map entryOf) (suffix ++ bits) cand out =
      decodeBits (ct.map entryOf) bits [] (out ++ [e.1]) := by
  induction suffix generalizing cand with
  | nil => exact absurd rfl hne
  | cons b suffix ih =>
    have hnext : pushBit cand b ++ suffix = e.2 := by
      rw [← hcode, pushBit, List.append_assoc, List.singleton_append]
    rw [List.cons_append, decodeBits]
    cases suffix with
    | nil =>
      rw [List.append_nil] at hnext
      rw [hnext, matchEntry_of_mem hfree hlen he, List.nil_append]
      rfl
    | cons b' suffix =>
      have hshort : (pushBit cand b).length < e.2.length := by
        rw [← hnext, List.length_append, List.length_cons]
        omega
      rw [matchEntry_of_proper_prefix hfree he ⟨_, hnext⟩ hshort]
      exact ih hnext (List.cons_ne_nil b' suffix)

/-- The codes of values of the table decode to these values, and no candidate is left. -/
theorem decodeBits_encodeBits (hnonempty : ∀ e ∈ ct, 1 ≤ e.2.length) (d out : List Byte)
    (hd : ∀ v ∈ d, v ∈ ct.map Prod.fst) :
    decodeBits (ct.map entryOf) (encodeBits ct d) [] out = (out ++ d, false) := by
  induction d generalizing out with
  | nil => rw [List.append_nil]; rfl
  | cons v d ih =>
    obtain ⟨hv, hd⟩ := List.forall_mem_cons.mp hd
    have hmem := mem_codeOf hv
    rw [encodeBits, List.flatMap_cons, decodeBits_code_append hfree hlen hmem _ _
      (List.nil_append _) (List.ne_nil_of_length_pos (hnonempty _ hmem)), ← encodeBits, ih _ hd,
      List.append_assoc, List.singleton_append]

end

/-! ### The coder and the decoder together (R206, R209, R214) -/

/-- Settles O12: the table is read back whole, has every value of the input, and no code begins another. -/
theorem huffmanRoundTrip : Obligations.HuffmanRoundTrip := by
  intro x
  have hcode := (codeTable_completeCode x).1
  have hlen : ∀ e ∈ codeTable x, e.2.length ≤ 255 := fun e => length_code_le
  refine ⟨⟨(codeTable x).map entryOf, ?_, ?_⟩, List.length_flatMap⟩
  · exact deserializeTable_serializeTable (length_codeTable_le x) hlen
  · exact decodeBits_encodeBits hcode.prefixFree hlen hcode.nonempty x [] fun v =>
      mem_map_fst_codeTable.mpr

end Sys2Proof.Proofs
end


section
/-! PROOFS. O46, O47, O49, O50 and O40: what each kind of chunk does to the parser, and CONT_READ through the external decompressor. -/
namespace Sys2Proof.Proofs
open Sys2Proof Sys2Proof.Machine Sys2Proof.Laws

/-! ### Checksum verification (R248) -/

theorem crcCheck_of_eq {c : Chunk} (h : c.crc = chunkCrc c.tag c.payload) (u : ChunkUnit) :
    crcCheck c u = .ok () := if_pos h

theorem crcCheck_of_ne {c : Chunk} (h : c.crc ≠ chunkCrc c.tag c.payload) (u : ChunkUnit) :
    crcCheck c u = .error (lateErr .crc u.pos) := if_neg h

/-! ### The parser after a chunk with a correct CRC (R249 to R252) -/

section
variable {payload : List Byte} {crc : Word} {u : ChunkUnit}

section
variable (hcrc : crc = chunkCrc tagIhdr payload)
include hcrc

theorem applyIhdr_first (hhdr : u.hdr = none) (hlen : payload.length = 13) :
    applyIhdr payload crc u =
      .ok (.goOn { pastChunk payload u with hdr := some (parseIhdr payload) }) := by
  simp [applyIhdr, crcCheck_of_eq, hcrc, hhdr, hlen]

theorem applyIhdr_second (hhdr : u.hdr.isSome = true) :
    applyIhdr payload crc u = .error (lateErr .chunkOrder u.pos) := by
  simp [applyIhdr, crcCheck_of_eq, hcrc, hhdr]

theorem applyIhdr_badLength (hhdr : u.hdr = none) (hlen : payload.length ≠ 13) :
    applyIhdr payload crc u = .error (lateErr .badParam 3) := by
  simp [applyIhdr, crcCheck_of_eq, hcrc, hhdr, hlen]

end

section
variable (hcrc : crc = chunkCrc tagIdat payload)
include hcrc

theorem applyIdat_of_header (hhdr : u.hdr.isSome = true) :
    applyIdat payload crc u =
      .ok (.goOn { pastChunk payload u with payload := u.payload ++ payload }) := by
  have hsome : u.hdr.isNone = false := Option.isNone_eq_false_iff.mpr hhdr
  simp [applyIdat, crcCheck_of_eq, hcrc, hsome]

theorem applyIdat_of_noHeader (hhdr : u.hdr = none) :
    applyIdat payload crc u = .error (lateErr .chunkOrder u.pos) := by
  simp [applyIdat, crcCheck_of_eq, hcrc, hhdr]

end

theorem applyIend_of_header (hcrc : crc = chunkCrc tagIend payload) (hhdr : u.hdr.isSome = true) :
    applyIend payload crc u = .ok (.stop u) := by
  have hsome : u.hdr.isNone = false := Option.isNone_eq_false_iff.mpr hhdr
  simp [applyIend, crcCheck_of_eq, hcrc, hsome]

theorem applyOther_of_crc {tag : Word} (hcrc : crc = chunkCrc tag payload) :
    applyOther tag payload crc u = .ok (.goOn (pastChunk payload u)) := by
  simp only [applyOther, crcCheck_of_eq (c := ⟨tag, payload, crc⟩) hcrc, ok_bind]

end

/-! ### A chunk as an instruction (R134, R247) -/

section
variable {i : Instr} {s : State} {r : Except CmdError ChunkStep}
  (hexec : exec i s = .next (afterChunk r s))
include hexec

theorem exec_of_goOn {u : ChunkUnit} (h : r = .ok (.goOn u)) :
    exec i s = .next { s with internals := { s.internals with chunk := u } } := by
  rw [hexec, h]
  rfl

theorem failsLate_of_chunk_error {e : CmdError} (h : r = .error e) :
    failsLate i s e.code.toByte e.info (runningOutputs s.regs) := by
  rw [h] at hexec
  exact failsLate_of_running hexec

end

/-- Settles O46: past the CRC, the header seen so far and the payload's length decide. -/
theorem ihdrChunkSetsMetadata : Obligations.IhdrChunkSetsMetadata := by
  intro payload crc s hcrc u
  have hexec : exec (.chunkIhdr payload crc) s =
      .next (afterChunk (applyIhdr payload crc u) s) := rfl
  refine ⟨fun hhdr hlen => ?_, fun hhdr => ?_, fun hhdr hlen => ?_⟩
  · rw [exec_of_goOn hexec (applyIhdr_first hcrc hhdr hlen), pastChunk, hlen]
    rfl
  · exact failsLate_of_chunk_error hexec (applyIhdr_second hcrc hhdr)
  · exact failsLate_of_chunk_error hexec (applyIhdr_badLength hcrc hhdr hlen)

/-- Settles O47: past the CRC, the header seen so far decides. -/
theorem idatChunkAppendsPayload : Obligations.IdatChunkAppendsPayload := by
  intro payload crc s hcrc u
  have hexec : exec (.chunkIdat payload crc) s =
      .next (afterChunk (applyIdat payload crc u) s) := rfl
  refine ⟨fun hhdr => ?_, fun hhdr => ?_⟩
  · rw [exec_of_goOn hexec (applyIdat_of_header hcrc hhdr), pastChunk, Nat.add_assoc]
  · exact failsLate_of_chunk_error hexec (applyIdat_of_noHeader hcrc hhdr)

/-- Settles O49: past the CRC, nothing of the parser's state is looked at. -/
theorem otherChunkSkipped : Obligations.OtherChunkSkipped := by
  intro tag payload crc s _ _ _ hcrc u
  have hexec : exec (.chunkOther tag payload crc) s =
      .next (afterChunk (applyOther tag payload crc u) s) := rfl
  exact exec_of_goOn hexec (applyOther_of_crc hcrc)

/-- Settles O50: the CRC is the first thing that each kind of chunk has checked. -/
theorem chunkCrcMismatchReported : Obligations.ChunkCrcMismatchReported := by
  intro tag payload crc s hcrc i hi
  have hfails (next : Unit → Except CmdError ChunkStep)
      (hexec : exec i s = .next (afterChunk
        (crcCheck ⟨tag, payload, crc⟩ s.internals.chunk >>= next) s)) :
      failsLate i s 0x0A s.internals.chunk.pos (runningOutputs s.regs) :=
    failsLate_of_chunk_error (e := lateErr .crc s.internals.chunk.pos) hexec
      (by rw [crcCheck_of_ne hcrc, error_bind])
  simp only [List.mem_append, List.mem_ite_nil_right, List.mem_singleton] at hi
  obtain ((rfl | ⟨rfl, rfl⟩) | ⟨rfl, rfl⟩) | ⟨rfl, rfl⟩ := hi
  · exact hfails _ rfl
  · exact hfails _ rfl
  · exact hfails _ rfl
  · exact hfails _ rfl

/-! ### CONT_READ through the external decompressor (R242, R253, R255) -/

theorem extDecompress_of_none {payload : List Byte} (h : Config.ext.decompress payload = none) :
    extDecompress payload = .error (lateErr .ext 0) := by
  rw [extDecompress, h]

theorem extDecompress_of_some {payload rows : List Byte}
    (h : Config.ext.decompress payload = some rows) : extDecompress payload = .ok rows := by
  rw [extDecompress, h]

/-- Off the LZSS path the external decompressor's rows are unfiltered, and no token loop runs. -/
theorem cmdContRead_of_external {s : State} {u : ChunkUnit} {tr0 : Bool} {hdr : Ihdr}
    (hfit : srcDstFit s) (hread : containerRead (srcBytes s) = .ok (u, tr0))
    (hhdr : u.hdr = some hdr) (hpayload : u.payload.length ≤ s.params.scratchSize)
    (hext : s.regs.contLzss = false) : cmdContRead s =
      extDecompress u.payload >>= fun rows => readPixels s hdr rows tr0 := by
  rw [cmdContRead_of_fit hfit, hread, ok_bind, afterChunks_of_external tr0 hhdr hpayload hext]
  cases extDecompress u.payload with
  | error e => rfl
  | ok rows =>
    simp only [ok_bind]
    cases readPixels s hdr rows tr0 <;> rfl

/-- Settles O40: the decompressor's failure, then each stage of `readPixels` in its order. -/
theorem contReadExternalPath : Obligations.ContReadExternalPath := by
  intro s u tr0 h hfit hread hhdr hpayload hext
  have hresult := cmdContRead_of_external hfit hread hhdr hpayload hext
  cases hrows : Config.ext.decompress u.payload with
  | none =>
    rw [extDecompress_of_none hrows, error_bind] at hresult
    exact failsLate_of_result (op := 0x8) hresult
  | some rows =>
    rw [extDecompress_of_some hrows, ok_bind] at hresult
    dsimp only
    split_ifs with hscratch
    · rw [readPixels_of_scratch tr0 hscratch] at hresult
      exact failsLate_of_result (op := 0x8) hresult
    · replace hscratch := Nat.le_of_not_lt hscratch
      cases hpixels : unfilter rows h.width.toNat h.height.toNat with
      | error e =>
        rw [readPixels_of_unfilter_error tr0 hscratch hpixels] at hresult
        exact failsLate_of_result (op := 0x8) hresult
      | ok r =>
        dsimp only
        split_ifs with hcap
        · rw [readPixels_of_capacity tr0 hscratch hpixels hcap] at hresult
          exact failsLate_of_result (op := 0x8) hresult
        · replace hcap := Nat.le_of_not_lt hcap
          rw [readPixels_of_fit tr0 hscratch hpixels hcap] at hresult
          exact completesWith_primary (exec_of_result (op := 0x8) hresult) rfl
            (primary_inRange hfit hcap)

end Sys2Proof.Proofs
end

section
/-! PROOFS. O60 and O15: scanlines unfiltered row by row, and a written container read back chunk by chunk. -/
namespace Sys2Proof.Proofs
open Sys2Proof Sys2Proof.Machine Sys2Proof.Laws

/-! ### Scanlines (R241, R254) -/

/-- The first scanline is the first row's pixels after a 0 marker (R241). -/
theorem filterRows_succ (x : List Byte) (w k : Nat) :
    filterRows x w (k + 1) =
      0x00 :: (x.take (rowBytes w) ++ filterRows (x.drop (rowBytes w)) w k) := by
  simp only [filterRows, List.range_succ_eq_map, List.flatMap_cons, List.flatMap_map,
    List.drop_drop, Nat.mul_succ, Nat.mul_zero, List.drop_zero, List.cons_append, Nat.add_comm]

theorem unfilterRows_nil (w h j : Nat) : unfilterRows w (h + 1) j [] = .ok ([], true) := rfl

theorem unfilterRows_badMarker {marker : Byte} (hmarker : marker ≠ 0x00) (w h j : Nat)
    (rest : List Byte) :
    unfilterRows w (h + 1) j (marker :: rest) = .error (lateErr .badFilter j) := if_pos hmarker

theorem unfilterRows_short {w : Nat} {rest : List Byte} (hshort : rest.length < rowBytes w)
    (h j : Nat) : unfilterRows w (h + 1) j (0x00 :: rest) = .ok (rest, true) := by
  rw [unfilterRows, if_neg (not_not_intro rfl), if_pos hshort]

/-- A complete row after a 0 marker gives its pixels, and the rows after it the rest (R254). -/
theorem unfilterRows_row {w : Nat} {row : List Byte} (hrow : row.length = rowBytes w) (h j : Nat)
    (rest : List Byte) :
    unfilterRows w (h + 1) j (0x00 :: (row ++ rest)) =
      (unfilterRows w h (j + (1 + rowBytes w)) rest).map fun r => (row ++ r.1, r.2) := by
  have hlong : ¬(row ++ rest).length < rowBytes w := by
    rw [List.length_append]
    omega
  rw [unfilterRows, if_neg (by simp), if_neg hlong, ← hrow, List.take_left, List.drop_left]
  cases unfilterRows w h (j + (1 + row.length)) rest <;> rfl

/-- Unfiltering undoes the filter on complete rows and goes on with what follows them. -/
theorem unfilterRows_filterRows_append {w k : Nat} {x : List Byte} (hx : x.length = 3 * w * k)
    (m j : Nat) (tail : List Byte) :
    unfilterRows w (m + k) j (filterRows x w k ++ tail) =
      (unfilterRows w m (j + k * (1 + rowBytes w)) tail).map fun r => (x ++ r.1, r.2) := by
  induction k generalizing x j with
  | zero =>
    obtain rfl : x = [] := List.length_eq_zero_iff.mp hx
    have hnone : filterRows [] w 0 = [] := rfl
    rw [hnone, List.nil_append, Nat.zero_mul, Nat.add_zero, Nat.add_zero]
    cases unfilterRows w m j tail <;> rfl
  | succ k ih =>
    have hlen : x.length = rowBytes w + 3 * w * k := by
      rw [hx, rowBytes, Nat.mul_succ, Nat.add_comm]
    have hrow : (x.take (rowBytes w)).length = rowBytes w := by
      rw [List.length_take]
      omega
    have hrest : (x.drop (rowBytes w)).length = 3 * w * k := by
      rw [List.length_drop]
      omega
    have hindex : j + (1 + rowBytes w) + k * (1 + rowBytes w) = j + (k + 1) * (1 + rowBytes w) := by
      rw [Nat.succ_mul]
      omega
    rw [filterRows_succ, List.cons_append, List.append_assoc, ← Nat.add_assoc,
      unfilterRows_row hrow, ih hrest, hindex]
    cases unfilterRows w m (j + (k + 1) * (1 + rowBytes w)) tail with
    | error e => rfl
    | ok r => simp only [Except.map, ← List.append_assoc, List.take_append_drop]

/-- All rows are there: what stands beyond them is not looked at (R254). -/
theorem unfilter_filterRows_append {w h : Nat} {x : List Byte} (hx : x.length = 3 * w * h)
    (tail : List Byte) : unfilter (filterRows x w h ++ tail) w h = .ok (x, false) := by
  have hrows := unfilterRows_filterRows_append hx 0 0 tail
  rw [Nat.zero_add] at hrows
  rw [unfilter, hrows, unfilterRows, Except.map, List.append_nil]

/-- With rows still to come, the first of what follows the complete ones decides (R254). -/
theorem unfilter_after_rows {w h k : Nat} {x : List Byte} (hx : x.length = 3 * w * k) (hk : k < h)
    (tail : List Byte) : ∃ m, unfilter (filterRows x w k ++ tail) w h =
      (unfilterRows w (m + 1) (k * (1 + 3 * w)) tail).map fun r => (x ++ r.1, r.2) := by
  obtain ⟨m, rfl⟩ := Nat.exists_eq_add_of_lt hk
  have hrows := unfilterRows_filterRows_append hx (m + 1) 0 tail
  rw [Nat.zero_add, Nat.add_comm, ← Nat.add_assoc] at hrows
  exact ⟨m, hrows⟩

/-- Settles O60: the complete rows come off one by one, and each clause is a case of what follows
them. -/
theorem unfilterStopsAtBadOrMissingRow : Obligations.UnfilterStopsAtBadOrMissingRow := by
  intro w h k pixels tail hpixels hk rows
  refine ⟨?complete, fun hlt htail => ?missing, fun marker rest hlt htail =>
    ⟨fun hmarker => ?badMarker, fun hmarker hshort => ?short⟩⟩
  case complete =>
    rintro rfl
    exact unfilter_filterRows_append hpixels tail
  case missing =>
    obtain ⟨m, hm⟩ := unfilter_after_rows hpixels hlt tail
    rw [hm, htail, unfilterRows_nil, Except.map, List.append_nil]
  case badMarker =>
    obtain ⟨m, hm⟩ := unfilter_after_rows hpixels hlt tail
    rw [hm, htail, unfilterRows_badMarker hmarker]
    rfl
  case short =>
    obtain ⟨m, hm⟩ := unfilter_after_rows hpixels hlt tail
    rw [hm, htail, hmarker, unfilterRows_short hshort]
    rfl

/-! ### A written container read back (R244, R246, R247) -/

theorem passSignature_containerSignature (rest : List Byte) (pos : Nat) (hdr : Option Ihdr)
    (payload : List Byte) :
    passSignature ⟨containerSignature ++ rest, pos, hdr, payload⟩ =
      .ok ⟨rest, pos + 8, hdr, payload⟩ := by
  simp [passSignature, containerSignature]

/-- The metadata payload reads back as its fields (R240, R249). -/
theorem parseIhdr_ihdrPayload (w h : Word) (comp : Byte) :
    parseIhdr (ihdrPayload w h comp) = ⟨w, h, 0x08, 0x02, comp, 0x00, 0x00⟩ := by
  have hwidth : u32At (ihdrPayload w h comp) 0 = w := by
    rw [ihdrPayload, List.append_assoc, u32At_be32]
  have hheight : u32At (ihdrPayload w h comp) 4 = h := by
    rw [ihdrPayload, List.append_assoc]
    exact u32At_field rfl ..
  rw [parseIhdr, hwidth, hheight]
  rfl

theorem chunkBytes_length (tag : Word) (payload : List Byte) :
    (chunkBytes tag payload).length = 12 + payload.length := EncodedSize.encodeChunk_length _

theorem ihdrPayload_length (w h : Word) (comp : Byte) : (ihdrPayload w h comp).length = 13 := rfl

theorem parseChunk_chunkBytes {payload : List Byte} (hfits : payload.length < 2 ^ 32) (tag : Word)
    (rest : List Byte) :
    parseChunk (chunkBytes tag payload ++ rest) = .ok ⟨tag, payload, chunkCrc tag payload⟩ :=
  parseChunk_encodeChunk (decide_eq_true hfits) rest

/-- Past a written chunk stands what was written after it. -/
theorem pastChunk_chunkBytes (tag : Word) (payload rest : List Byte) (pos : Nat) (hdr : Option Ihdr)
    (seen : List Byte) :
    pastChunk payload ⟨chunkBytes tag payload ++ rest, pos, hdr, seen⟩ =
      ⟨rest, pos + (12 + payload.length), hdr, seen⟩ := by
  rw [pastChunk, ← chunkBytes_length tag, List.drop_left]

section
variable {c : Chunk} {u v : ChunkUnit} (hparse : parseChunk u.rest = .ok c)
include hparse

theorem chunkLoop_succ_of_goOn (happly : applyChunk c u = .ok (.goOn v)) (n : Nat) :
    chunkLoop (n + 1) u = chunkLoop n v := by
  simp only [chunkLoop, hparse, happly]

theorem chunkLoop_succ_of_stop (happly : applyChunk c u = .ok (.stop v)) (n : Nat) :
    chunkLoop (n + 1) u = .ok (v, false) := by
  simp only [chunkLoop, hparse, happly]

end

section
variable (n pos : Nat) (rest seen : List Byte)

theorem chunkLoop_ihdr (w h : Word) (comp : Byte) :
    chunkLoop (n + 1) ⟨chunkBytes tagIhdr (ihdrPayload w h comp) ++ rest, pos, none, seen⟩ =
      chunkLoop n ⟨rest, pos + 25, some ⟨w, h, 0x08, 0x02, comp, 0x00, 0x00⟩, seen⟩ := by
  have hfits : (ihdrPayload w h comp).length < 2 ^ 32 :=
    (ihdrPayload_length w h comp).trans_lt (by decide)
  refine chunkLoop_succ_of_goOn (parseChunk_chunkBytes hfits tagIhdr rest) ?_ n
  refine (applyIhdr_first rfl rfl (ihdrPayload_length w h comp)).trans ?_
  rw [pastChunk_chunkBytes, parseIhdr_ihdrPayload, ihdrPayload_length]

theorem chunkLoop_idat {payload : List Byte} (hfits : payload.length < 2 ^ 32) (hdr : Ihdr) :
    chunkLoop (n + 1) ⟨chunkBytes tagIdat payload ++ rest, pos, some hdr, seen⟩ =
      chunkLoop n ⟨rest, pos + (12 + payload.length), some hdr, seen ++ payload⟩ := by
  refine chunkLoop_succ_of_goOn (parseChunk_chunkBytes hfits tagIdat rest) ?_ n
  refine (applyIdat_of_header rfl rfl).trans ?_
  rw [pastChunk_chunkBytes]

theorem chunkLoop_iend (hdr : Ihdr) :
    chunkLoop (n + 1) ⟨chunkBytes tagIend [] ++ rest, pos, some hdr, seen⟩ =
      .ok (⟨chunkBytes tagIend [] ++ rest, pos, some hdr, seen⟩, false) := by
  refine chunkLoop_succ_of_stop (parseChunk_chunkBytes (by decide) tagIend rest) ?_ n
  exact applyIend_of_header rfl rfl

end

/-- Signature, metadata, payload and end marker of a written container are read in this order, and
nothing is cut short (R244, R247). -/
theorem containerRead_containerBytes (w h : Word) (comp : Byte) {packed : List Byte}
    (hfits : packed.length < 2 ^ 32) :
    containerRead (containerBytes w h comp packed) =
      .ok (⟨chunkBytes tagIend [] ++ [], 8 + 25 + (12 + packed.length),
        some ⟨w, h, 0x08, 0x02, comp, 0x00, 0x00⟩, packed⟩, false) := by
  have hbytes : containerBytes w h comp packed = containerSignature ++
      (chunkBytes tagIhdr (ihdrPayload w h comp) ++
        (chunkBytes tagIdat packed ++ (chunkBytes tagIend [] ++ []))) := by
    simp only [containerBytes, List.append_assoc, List.append_nil]
  have hlength : (chunkBytes tagIhdr (ihdrPayload w h comp) ++
      (chunkBytes tagIdat packed ++ (chunkBytes tagIend [] ++ []))).length =
        packed.length + 46 + 1 + 1 + 1 := by
    simp only [List.length_append, chunkBytes_length, ihdrPayload_length, List.length_nil]
    omega
  rw [hbytes, containerRead, openContainer, chunkStart, passSignature_containerSignature, ok_bind,
    runChunks, hlength, chunkLoop_ihdr, chunkLoop_idat _ _ _ _ hfits, chunkLoop_iend, Nat.zero_add,
    List.nil_append]

/-- Settles O15: the parser reads the written chunks back, either compressor inverts, and the
filter's rows are all complete. -/
theorem containerRoundTrip : Obligations.ContainerRoundTrip := by
  intro contLzss w h x _ _ hx hfits
  refine ⟨⟨_, containerRead_containerBytes w h _ hfits, rfl, rfl⟩, fun _ => lzssRoundTrip _,
    fun _ => Config.ext.law _, ?_⟩
  have hpixels := unfilter_filterRows_append hx []
  rwa [List.append_nil] at hpixels

end Sys2Proof.Proofs
end

section
/-! PROOFS. O14 and O13: the header's checks one after another, and an archive opened again as it was made. -/
namespace Sys2Proof.Proofs
open Sys2Proof Sys2Proof.Machine

/-! ### The header's checks (R282) -/

theorem archiveHeader_of_badMagic {magic : Word} {a : List Byte}
    (h : a.length < 4 ∨ a.take 4 ≠ be32 magic) :
    archiveHeader magic a = .error (lateErr .badMagic 0) := if_pos h

section
variable {magic : Word} {a rest : List Byte} (hmagic : a = be32 magic ++ rest)
include hmagic

/-- Behind the magic only the two length checks are left. -/
theorem archiveHeader_of_magic : archiveHeader magic a =
    if a.length < 12 then .error (lateErr .badArchive 1)
    else if a.length < 12 + (u32At a 8).toNat then .error (lateErr .badArchive 2)
    else .ok ((u32At a 4).toNat, (u32At a 8).toNat) := by
  have hlength : 4 ≤ a.length := by
    rw [hmagic, List.length_append]
    exact Nat.le_add_right ..
  have htake : a.take 4 = be32 magic := by
    rw [hmagic]
    exact List.take_left' rfl
  have hpass : ¬(a.length < 4 ∨ a.take 4 ≠ be32 magic) :=
    not_or.mpr ⟨Nat.not_lt.mpr hlength, not_not_intro htake⟩
  rw [archiveHeader, if_neg hpass]

theorem archiveHeader_of_short (h : a.length < 12) :
    archiveHeader magic a = .error (lateErr .badArchive 1) := by
  rw [archiveHeader_of_magic hmagic, if_pos h]

theorem archiveHeader_of_tablePastEnd (hfull : 12 ≤ a.length)
    (hpast : a.length < 12 + (u32At a 8).toNat) :
    archiveHeader magic a = .error (lateErr .badArchive 2) := by
  rw [archiveHeader_of_magic hmagic, if_neg (Nat.not_lt.mpr hfull), if_pos hpast]

theorem archiveHeader_of_fit (hfit : 12 + (u32At a 8).toNat ≤ a.length) :
    archiveHeader magic a = .ok ((u32At a 4).toNat, (u32At a 8).toNat) := by
  have hfull : 12 ≤ a.length := Nat.le_of_add_right_le hfit
  rw [archiveHeader_of_magic hmagic, if_neg (Nat.not_lt.mpr hfull), if_neg (Nat.not_lt.mpr hfit)]

end

/-- No stage comes before the header (R285). -/
theorem unpackArchive_of_header_error {magic : Word} {a : List Byte} {e : CmdError}
    (h : archiveHeader magic a = .error e) : unpackArchive magic a = .error e := by
  rw [unpackArchive, unpackStream, openArchive, h]
  rfl

/-- Settles O14: each clause passes the header's checks before its own, and Unpack hands on what
fails there. -/
theorem badArchiveHeadersRefused : Obligations.BadArchiveHeadersRefused := by
  intro magic a
  refine ⟨fun hbad => ?badMagic, fun rest hmagic =>
    ⟨fun hshort => ?short, fun hfull hpast => ?tablePastEnd, archiveHeader_of_fit hmagic⟩⟩
  case badMagic => exact unpackArchive_of_header_error (archiveHeader_of_badMagic hbad)
  case short => exact unpackArchive_of_header_error (archiveHeader_of_short hmagic hshort)
  case tablePastEnd =>
    exact unpackArchive_of_header_error (archiveHeader_of_tablePastEnd hmagic hfull hpast)

/-! ### The table's length fits its field (R281) -/

theorem length_entryBytes_le {e : Byte × Bits} (h : e.2.length ≤ 255) :
    (entryBytes e).length ≤ 34 := by
  rw [entryBytes, List.length_cons, List.length_cons, length_packBits, ceil8]
  omega

/-- The bound that R281 states: two count bytes, and at most 34 for each of 256 entries. -/
theorem length_serializeTable_le {ct : CodeTable} (hcount : ct.length ≤ 256)
    (hlen : ∀ e ∈ ct, e.2.length ≤ 255) : (serializeTable ct).length ≤ 8706 := by
  have hentries : (ct.flatMap entryBytes).length ≤ ct.length * 34 := by
    rw [List.length_flatMap]
    refine (List.sum_le_card_nsmul _ 34 ?_).trans_eq (by rw [List.length_map, smul_eq_mul])
    exact List.forall_mem_map.mpr fun e he => length_entryBytes_le (hlen e he)
  have htwo : (serializeTable ct).length = 2 + (ct.flatMap entryBytes).length :=
    List.length_append
  omega

/-! ### An archive opened again (R281 to R284) -/

theorem toNat_lengthField {n : Nat} (h : n < 2 ^ 32) : (BitVec.ofNat 32 n).toNat = n := by
  rw [BitVec.toNat_ofNat]
  exact Nat.mod_eq_of_lt h

/-- The packed bits hold no fewer bits than were packed, so nothing is clamped (R284). -/
theorem clampBits_packBits (bits : Bits) :
    clampBits (packBits bits) bits.length = (bits, false) := by
  have hholds : ¬8 * (packBits bits).length < bits.length := by
    rw [length_packBits, ceil8]
    omega
  rw [clampBits, if_neg hholds, unpackBits_packBits]

/-- With the header passed, the table is read from its region and the payload from behind it (R283,
R284). -/
theorem openArchive_of_header {magic : Word} {a : List Byte} {bitLen tableLen : Nat}
    (h : archiveHeader magic a = .ok (bitLen, tableLen)) : openArchive magic a =
      deserializeTable ((a.drop 12).take tableLen) >>= fun table =>
        let payload := clampBits (a.drop (12 + tableLen)) bitLen
        .ok (bitStart table payload.1 payload.2) := by
  rw [openArchive, h]
  rfl

section
variable {table : List Byte} (htable : table.length < 2 ^ 32) (magic : Word)
include htable

/-- The header of an archive says what it was made with, when both lengths fit their fields. -/
theorem archiveHeader_archiveBytes {bitLen : Nat} (hbits : bitLen < 2 ^ 32) (packed : List Byte) :
    archiveHeader magic (archiveBytes magic bitLen table packed) = .ok (bitLen, table.length) := by
  have hmagic : archiveBytes magic bitLen table packed =
      be32 magic ++ (be32 (BitVec.ofNat 32 bitLen) ++
        (be32 (BitVec.ofNat 32 table.length) ++ (table ++ packed))) := by
    simp only [archiveBytes, List.append_assoc]
  have hbitLen : u32At (archiveBytes magic bitLen table packed) 4 = BitVec.ofNat 32 bitLen := by
    rw [hmagic]
    exact u32At_field rfl ..
  have htableLen : u32At (archiveBytes magic bitLen table packed) 8 =
      BitVec.ofNat 32 table.length := by
    rw [hmagic, ← List.append_assoc]
    exact u32At_field rfl ..
  have hfit : 12 + (u32At (archiveBytes magic bitLen table packed) 8).toNat ≤
      (archiveBytes magic bitLen table packed).length := by
    rw [htableLen, toNat_lengthField htable]
    simp only [archiveBytes, be32, List.length_append, List.length_cons, List.length_nil]
    omega
  rw [archiveHeader_of_fit hmagic hfit, hbitLen, htableLen, toNat_lengthField hbits,
    toNat_lengthField htable]

/-- Table and payload stand where the header says, and the padding is dropped again. -/
theorem openArchive_archiveBytes {entries : List Entry}
    (hentries : deserializeTable table = .ok entries) {bits : Bits} (hbits : bits.length < 2 ^ 32) :
    openArchive magic (archiveBytes magic bits.length table (packBits bits)) =
      .ok (bitStart entries bits false) := by
  have htail : (archiveBytes magic bits.length table (packBits bits)).drop 12 =
      table ++ packBits bits := by
    rw [archiveBytes, List.append_assoc]
    exact List.drop_left' rfl
  rw [openArchive_of_header (archiveHeader_archiveBytes htable magic hbits _), ← List.drop_drop,
    htail, List.take_left, List.drop_left, hentries, ok_bind, clampBits_packBits]

end

/-! ### The pipeline and its inverse (R280, R285, R288) -/

/-- Up to and with the Huffman stage, Unpack gives back the stream that the archive was made of. -/
theorem unpackStream_archiveOf (magic : Word) {stream : List Byte}
    (hbits : (huffmanEncode stream).1.length < 2 ^ 32) :
    unpackStream magic (archiveOf magic stream) = .ok (stream, false) := by
  obtain ⟨⟨entries, hentries, hdecode⟩, -⟩ := huffmanRoundTrip stream
  have htable : (serializeTable (huffmanEncode stream).2).length < 2 ^ 32 :=
    (length_serializeTable_le (length_codeTable_le stream) fun _ => length_code_le).trans_lt
      (by decide)
  have hrun : runBits (bitStart entries (huffmanEncode stream).1 false) =
      huffmanDecode (huffmanEncode stream).1 entries := rfl
  rw [unpackStream, archiveOf, openArchive_archiveBytes htable magic hentries hbits, ok_bind, hrun,
    hdecode]
  rfl

/-- Settles O13: the archive gives the token stream back, and its decompression the input. -/
theorem packUnpackRoundTrip : Obligations.PackUnpackRoundTrip := by
  intro magic x hbits
  rw [packArchive, unpackArchive, unpackStream_archiveOf magic hbits, ok_bind]
  exact lzssRoundTrip x

end Sys2Proof.Proofs
end

section
/-! PROOFS. O17: the reset state meets the invariant of O16, as a hard reset does from every state. -/
namespace Sys2Proof.Proofs
open Sys2Proof Sys2Proof.Machine Sys2Proof.Laws

/-! ### Reset (R341, R343) -/

/-- The only LMEM contents left open at reset are those of event 0, and later events count from 1
(log 2). -/
theorem lmemEpoch_lt_freeCtr_reset : State.reset.lmemEpoch < State.reset.freeCtr := Nat.zero_lt_one

/-- Settles O17: after reset the engine is idle, so no clause on a stage applies; LMEM lists nothing
and the registers report no outcome. -/
theorem resetMeetsInvariant : Obligations.ResetMeetsInvariant := by
  have hidle : State.reset.seq = .idle := rfl
  exact invariant_of_idle wf_reset statusFits_reset hidle lmemEpoch_lt_freeCtr_reset

end Sys2Proof.Proofs
end
